-- ==== Sys2Proof/Word.lean ====
section
/-!
DEFINITION. The word types of the block (00_scope.md R7, R8): bytes, the 16-bit operand field, the
32-bit command and register words, and the 64-bit results that span two RES registers.
-/

namespace Sys2Proof

/-- A `u8`: one byte of an input, a window or a buffer. -/
abbrev Byte := BitVec 8

/-- A 16-bit operand field or header field. -/
abbrev Half := BitVec 16

/-- A 32-bit command word, register or host access value. -/
abbrev Word := BitVec 32

/-- A 64-bit result, held in two RES registers. -/
abbrev DWord := BitVec 64

end Sys2Proof
end

