-- ==== Sys2Proof/Config.lean ====
section
/-!
DEFINITION. What is fixed for the block: the implementation parameters of 00_scope.md R5, each at the
value this hardware takes, and the free values of the points the spec leaves OPEN (constants with no
body, so that no proof can see their value): the AGRICB layout (30_encoding.md R100), the norms
(43_crc32_framer.md R222) and the content of input bytes never written (20_memory.md R66).
-/

namespace Sys2Proof

/-! ### Parameters with a value (R5) -/

/-- `IN_CAP`: bytes in each input window. -/
def Config.inCap : Nat := 4096

/-- `NMEA_MAX_FIELDS`. -/
def Config.nmeaMaxFields : Nat := 32

/-- `NMEA_MAX_CHARS`. -/
def Config.nmeaMaxChars : Nat := 512

/-- `PRINT_LO`. PRESUMED by the spec (G1, from general knowledge). -/
def Config.printLo : Byte := 0x20

/-- `PRINT_HI`. PRESUMED by the spec (G1, from general knowledge). -/
def Config.printHi : Byte := 0x7E

/-- `NMEA_RESET_ON_NEW_BUFFER`. -/
def Config.nmeaResetOnNewBuffer : Bool := false

/-- `HEX`: the bytes of the string "0123456789ABCDEF". -/
def Config.hex : List Byte :=
  [0x30, 0x31, 0x32, 0x33, 0x34, 0x35, 0x36, 0x37, 0x38, 0x39, 0x41, 0x42, 0x43, 0x44, 0x45, 0x46]

/-- `F0_START_RESET`: `$`. -/
def Config.f0StartReset : Byte := 0x24

/-- `F1_START`: `!`. -/
def Config.f1Start : Byte := 0x21

/-- `NUM_MAX_DIGITS`. -/
def Config.numMaxDigits : Nat := 18

/-- `AIS_CAP`. -/
def Config.aisCap : Nat := 4096

/-- `AIS_BITS_MAX`. -/
def Config.aisBitsMax : Nat := 64

/-- `SIG_SLOTS`. -/
def Config.sigSlots : Nat := 8

/-- `SIG_MAX_SIZE`. -/
def Config.sigMaxSize : Nat := 4095

/-- `SIG_CS_INIT`. -/
def Config.sigCsInit : Byte := 0x00

/-- `CRC_ACC_CAP`. -/
def Config.crcAccCap : Nat := 1024

/-- `CRC_PREAMBLE`. -/
def Config.crcPreamble : List Byte := [0xAA, 0x44, 0xB5]

/-- `CRC_HDR_LEN`. -/
def Config.crcHdrLen : Nat := 24

/-- `CRC_ID_OFF`. -/
def Config.crcIdOff : Nat := 3

/-- `CRC_LEN_OFF`. -/
def Config.crcLenOff : Nat := 5

/-- `CRC_WHITELIST`: the accepted (message id, payload length) pairs. -/
def Config.crcWhitelist : List (Half × Half) := [(11276, 228)]

/-- The AGRICB pair itself, named by 43_crc32_framer.md R221 and R223. -/
def Config.agricbPair : Half × Half := (11276, 228)

/-- `CRC_TRAILER`. -/
def Config.crcTrailer : Nat := 4

/-- `CRC_POLY`. -/
def Config.crcPoly : Word := 0xEDB88320

/-- `CRC_INIT`. -/
def Config.crcInit : Word := 0x00000000

/-- `CRC_XOROUT`. -/
def Config.crcXorOut : Word := 0x00000000

/-- `CRC_FAIL_STEP`. -/
def Config.crcFailStep : Nat := 3

/-! ### The AIS position fields (30_encoding.md R95) -/

/-- One row of the table of R95, at one of its two start columns. -/
structure AisField where
  /-- First bit. -/
  off : Nat
  /-- Number of bits. -/
  len : Nat
  /-- Read as two's complement. -/
  signed : Bool
  /-- The raw value that means "not available" (`AIS_SENTINEL`). -/
  sentinel : Int
  deriving DecidableEq, Repr

/-- The start bits of the five position fields. -/
structure AisOffsets where
  sog : Nat
  lon : Nat
  lat : Nat
  cog : Nat
  hdg : Nat
  deriving DecidableEq, Repr

/-- `AIS_OFF_A`: types 1, 2, 3. PRESUMED by the spec (G3, from general knowledge). -/
def Config.aisOffA : AisOffsets := ⟨50, 61, 89, 116, 128⟩

/-- `AIS_OFF_B`: types 18, 19. PRESUMED by the spec (G3, from general knowledge). -/
def Config.aisOffB : AisOffsets := ⟨46, 57, 85, 112, 124⟩

/-- Speed over ground at the given offsets. -/
def Config.aisSog (o : AisOffsets) : AisField := ⟨o.sog, 10, false, 1023⟩

/-- Longitude at the given offsets. -/
def Config.aisLon (o : AisOffsets) : AisField := ⟨o.lon, 28, true, 0x6791AC0⟩

/-- Latitude at the given offsets. -/
def Config.aisLat (o : AisOffsets) : AisField := ⟨o.lat, 27, true, 0x3412140⟩

/-- Course over ground at the given offsets. -/
def Config.aisCog (o : AisOffsets) : AisField := ⟨o.cog, 12, false, 3600⟩

/-- True heading at the given offsets. -/
def Config.aisHdg (o : AisOffsets) : AisField := ⟨o.hdg, 9, false, 511⟩

/-! ### The OPEN parameters: free values -/

/-- Where one AGRICB field lies: its width (1, 2, 4 or 8 bytes) and its payload offset, with
`offset + width <= 228` as 00_scope.md R6 asks. The number type of a field is no part of it: the block
returns raw bits (43_crc32_framer.md R220). -/
inductive FieldSpec where
  | w1 (off : Fin 228)
  | w2 (off : Fin 227)
  | w4 (off : Fin 225)
  | w8 (off : Fin 221)
  deriving DecidableEq, Repr, Inhabited

/-- The width in bytes. -/
def FieldSpec.width : FieldSpec → Nat
  | .w1 _ => 1
  | .w2 _ => 2
  | .w4 _ => 4
  | .w8 _ => 8

/-- The payload offset. -/
def FieldSpec.offset : FieldSpec → Nat
  | .w1 o => o.val
  | .w2 o => o.val
  | .w4 o => o.val
  | .w8 o => o.val

/-- The entries of `AGRICB_LAYOUT` whose index and name 30_encoding.md R100 fixes, in index order. -/
inductive AgricbField where
  | posLat | posLon | posHgt | velN | velE | velU | att0 | att1 | att2
  | sats | tow | solStatus | posStd0 | posStd1 | posStd2 | velStdN | velStdE | velStdU
  deriving DecidableEq, Repr

/-- The entry with index `j`, for the indices R100 fixes (0 to 17). -/
def AgricbField.ofIndex : Nat → Option AgricbField
  | 0 => some .posLat
  | 1 => some .posLon
  | 2 => some .posHgt
  | 3 => some .velN
  | 4 => some .velE
  | 5 => some .velU
  | 6 => some .att0
  | 7 => some .att1
  | 8 => some .att2
  | 9 => some .sats
  | 10 => some .tow
  | 11 => some .solStatus
  | 12 => some .posStd0
  | 13 => some .posStd1
  | 14 => some .posStd2
  | 15 => some .velStdN
  | 16 => some .velStdE
  | 17 => some .velStdU
  | _ => none

/-- FREE VALUE: where each named AGRICB field lies (30_encoding.md R100 leaves it OPEN). -/
opaque Config.agricbNamed : AgricbField → FieldSpec

/-- FREE VALUE: the further entries of the layout, by index (R100: from j = 18 on). -/
opaque Config.agricbExtra : List (Nat × FieldSpec)

/-- FREE VALUE: `NORM2`, on raw field words (43_crc32_framer.md R222 leaves it OPEN). -/
opaque Config.norm2 : DWord → DWord → DWord

/-- FREE VALUE: `NORM3`, on raw field words (43_crc32_framer.md R222 leaves it OPEN). -/
opaque Config.norm3 : DWord → DWord → DWord → DWord

/-- FREE VALUE: what a host read returns for the input-window byte at a host address that the host has
never written (20_memory.md R66: unspecified, the same on every read until it is written). -/
opaque Config.unwrittenByte : Nat → Byte

end Sys2Proof
end

