-- ==== Sys2Proof/Machine/State.lean ====
section
/-!
DEFINITION. The state of the block as plain data (10_state.md), the host accesses that drive it
(20_memory.md), the spec's own model-only state (the fault mark, 10_state.md R53) and the state at
power-on (70_reset_and_hazards.md R270). The views of R32 to R47 are computed from it (Flags.lean).
-/

namespace Sys2Proof.Machine

/-- The content of a fixed buffer of `w`-bit entries: the non-zero entries with their indices, rising.
An unlisted index holds 0, the reset value of every buffer. -/
abbrev Buf (w : Nat) := List (Nat × BitVec w)

/-- The input windows by host address: a byte is listed exactly when its written mark is 1
(10_state.md R50, R51), with addresses rising. -/
abbrev Memory := List Host.Cell

/-- ARG0 to ARG3 (10_state.md R22, R23). -/
structure Args where
  a0 : Word
  a1 : Word
  a2 : Word
  a3 : Word
  deriving DecidableEq, Repr

/-- RES0 to RES7 (10_state.md R22, R23). -/
structure Results where
  r0 : Word
  r1 : Word
  r2 : Word
  r3 : Word
  r4 : Word
  r5 : Word
  r6 : Word
  r7 : Word
  deriving DecidableEq, Repr

/-- STATUS.ERR (60_exceptions.md R250); the codes 5 to 15 are never written, so they have no name. -/
inductive Err where
  | ok | illegal | badArg | noSent | badNum
  deriving DecidableEq, Repr

/-- STATUS (10_state.md R25). -/
structure Status where
  err : Err
  res : Bool
  nodata : Bool
  deriving DecidableEq, Repr

/-- `F.st`: IDLE = 0, BODY = 1, CK1 = 2, CK2 = 3 (10_state.md R30). -/
inductive FramerSt where
  | idle | body | ck1 | ck2
  deriving DecidableEq, Repr

/-- A framer instance (10_state.md R30). -/
structure Framer where
  /-- The configured start character. -/
  start : Byte
  st : FramerSt
  /-- The running XOR accumulator. -/
  cs : Byte
  /-- The fields opened in the current sentence. -/
  nf : BitVec 6
  /-- The characters stored in the current sentence. -/
  nc : BitVec 10
  /-- The stored field characters, 512 bytes, commas excluded. -/
  chars : Buf 8
  /-- The field table, 32 start offsets. -/
  fstart : Buf 10
  /-- A completed sentence is queryable. -/
  valid : Bool
  /-- The index of the next byte of the current buffer to read. -/
  pos : BitVec 13
  /-- The length of the current buffer. -/
  len : BitVec 13
  deriving DecidableEq, Repr

/-- The AIS fragment state and message (10_state.md R36). -/
structure Ais where
  /-- The accumulated payload, 4096 bytes. -/
  acc : Buf 8
  acclen : BitVec 13
  /-- A fragment sequence is in progress. -/
  inprog : Bool
  /-- The expected next fragment index, an `i64`. -/
  expect : DWord
  /-- The expected sequence id, 512 bytes. -/
  seq : Buf 8
  seqlen : BitVec 10
  /-- The last emitted armored payload, 4096 bytes. -/
  msg : Buf 8
  msglen : BitVec 13
  msgvalid : Bool
  deriving DecidableEq, Repr

/-- A signature slot with its destination record (10_state.md R40). -/
structure Slot where
  reg : Bool
  n0 : Byte
  n1 : Byte
  size : BitVec 12
  present : Bool
  /-- `S[k].rec`, 4096 bytes. -/
  record : Buf 8
  deriving DecidableEq, Repr

/-- `C.st`: SEEK = 0, HDR = 1, VER = 2, and 3 never held (10_state.md R46). -/
inductive CrcSt where
  | seek | hdr | ver
  deriving DecidableEq, Repr

/-- The preamble-CRC32 framer (10_state.md R45). -/
structure Crc where
  st : CrcSt
  /-- The accumulation buffer, 1024 bytes. -/
  acc : Buf 8
  fill : BitVec 11
  pos : BitVec 11
  mid : Half
  plen : Half
  /-- The mailbox's ready flag. -/
  ready : Bool
  /-- The result record, 1024 bytes. -/
  res : Buf 8
  rlen : BitVec 11
  deriving DecidableEq, Repr

/-- The fault mark's content (10_state.md R53, 60_exceptions.md R261): the reason, with the command
word or host address, and the input index, that caused it. -/
inductive ModelFault where
  /-- UNWRITTEN_INPUT: the command word, and the index of the unwritten byte in its unit's window. -/
  | unwrittenInput (cmd : Word) (index : Nat)
  /-- BAD_ACCESS: the host address. -/
  | badAccess (addr : BitVec 20)
  deriving DecidableEq, Repr

/-- A host access (00_scope.md R9; 20_memory.md R60, R63): `size` bytes at a 20-bit host address. Any
size may be asked for; the block accepts 1, 2 and 4 (R63). -/
inductive HostAccess where
  | read (addr : BitVec 20) (size : Nat)
  | write (addr : BitVec 20) (size : Nat) (value : Word)
  deriving DecidableEq, Repr

/-- Why a step stops with a fault. It is empty: the block raises no exception, and a model fault sets
the fault mark and the machine goes on (60_exceptions.md R250, R261). Nobody raises one. -/
inductive Fault where
  deriving DecidableEq, Repr

/-- Why an instruction has no meaning. -/
inductive Refusal where
  /-- Raised by an arm of `exec` for an instruction that has no meaning in the model yet, under its
  mnemonic; safe, since nothing is then claimed of it. No arm raises it now. -/
  | notModelled (mnemonic : String)
  deriving DecidableEq, Repr

/-- The state of the machine: what the spec gives the block (`args` to `faultMark`), and two fields of
the model's own that stand for the host outside it (`port`, `rdata`). -/
structure State where
  args : Args
  status : Status
  res : Results
  /-- U0's framer F0. -/
  f0 : Framer
  /-- U1's framer F1. -/
  f1 : Framer
  ais : Ais
  /-- U2's slots S[0..7]. -/
  slots : Vector Slot 8
  crc : Crc
  /-- The input windows IN_0 to IN_3 with their written marks. -/
  mem : Memory
  /-- The fault mark; `none` is "no fault". -/
  faultMark : Option ModelFault
  /-- The model's own: the accesses the host has still to issue, in order (log entry 1). -/
  port : List HostAccess
  /-- The model's own: the value the last host read returned (log entry 2). -/
  rdata : Word
  deriving DecidableEq, Repr

/-- A framer instance at reset, with its start character (10_state.md R30). -/
def Framer.reset (start : Byte) : Framer where
  start := start
  st := .idle
  cs := 0
  nf := 0
  nc := 0
  chars := []
  fstart := []
  valid := false
  pos := 0
  len := 0

/-- The AIS state at reset (10_state.md R36). -/
def Ais.reset : Ais where
  acc := []
  acclen := 0
  inprog := false
  expect := 0
  seq := []
  seqlen := 0
  msg := []
  msglen := 0
  msgvalid := false

/-- A slot at reset (10_state.md R40). -/
def Slot.reset : Slot where
  reg := false
  n0 := 0
  n1 := 0
  size := 0
  present := false
  record := []

/-- U3 at reset (10_state.md R45). -/
def Crc.reset : Crc where
  st := .seek
  acc := []
  fill := 0
  pos := 0
  mid := 0
  plen := 0
  ready := false
  res := []
  rlen := 0

/-- The power-on state (70_reset_and_hazards.md R270): every unit at its reset values, ARG, RES and
STATUS 0, no input byte written, no fault. The model's own fields are empty and 0 (DESIGN CHOICE, log
entries 1 and 2). -/
def State.reset : State where
  args := ⟨0, 0, 0, 0⟩
  status := ⟨.ok, false, false⟩
  res := ⟨0, 0, 0, 0, 0, 0, 0, 0⟩
  f0 := Framer.reset Config.f0StartReset
  f1 := Framer.reset Config.f1Start
  ais := Ais.reset
  slots := Vector.replicate 8 Slot.reset
  crc := Crc.reset
  mem := []
  faultMark := none
  port := []
  rdata := 0

end Sys2Proof.Machine
end

