-- ==== Sys2Proof/Machine/Ops.lean ====
section
/-!
DEFINITION. The named operations over buffers, input windows and registers, and the four ways a command
ends: `finish` and `fail` (00_scope.md R9), the model fault (60_exceptions.md R261), and a plain RES
write. The block has no exception entry and no return from one (60_exceptions.md R250, R255); `fail`
and `modelFault` are its only error reports, each one shared operation here.
-/

namespace Sys2Proof.Machine

/-- What a command answers. -/
abbrev Result := Host.Outcome State Fault Refusal

/-! ### Lists of cells -/

/-- The entry at index `i`, the first one if there were several. -/
def cellsFind {α : Type} : List (Nat × α) → Nat → Option α
  | [], _ => none
  | (j, v) :: t, i => if j = i then some v else cellsFind t i

/-- The cells that put `vs` at the indices from `i` on. -/
def cellsOf {α : Type} : Nat → List α → List (Nat × α)
  | _, [] => []
  | i, v :: vs => (i, v) :: cellsOf (i + 1) vs

/-- `l` with every entry of the `n` indices from `i` on replaced by `mid`. -/
def cellsSplice {α : Type} (l : List (Nat × α)) (i n : Nat) (mid : List (Nat × α)) : List (Nat × α) :=
  l.filter (fun c => c.1 < i) ++ mid ++ l.filter (fun c => i + n ≤ c.1)

/-- The indices rise strictly. -/
abbrev CellsRise {α : Type} (l : List (Nat × α)) : Prop := l.Pairwise (fun x y => x.1 < y.1)

/-! ### Fixed buffers -/

/-- Entry `i` of a buffer; 0 where nothing else was stored. -/
def bufGet {w : Nat} (b : Buf w) (i : Nat) : BitVec w := (cellsFind b i).getD 0

/-- `b[i .. i+len(vs)) <- vs`. Zeros are not listed: they are what an unlisted index holds. -/
def bufWrite {w : Nat} (b : Buf w) (i : Nat) (vs : List (BitVec w)) : Buf w :=
  cellsSplice b i vs.length ((cellsOf i vs).filter (fun c => c.2 ≠ 0))

/-- `b[i .. i+n)` as a string. -/
def bufRead {w : Nat} (b : Buf w) (i n : Nat) : List (BitVec w) := (List.range' i n).map (bufGet b)

/-- The canonical form of a buffer of `cap` entries: indices rising, inside it, no 0 listed. -/
abbrev Buf.wf {w : Nat} (cap : Nat) (b : Buf w) : Prop :=
  CellsRise b ∧ ∀ c ∈ b, c.1 < cap ∧ c.2 ≠ 0

/-! ### The input windows -/

/-- The host address of byte `i` of window `IN_u` (20_memory.md R61). -/
def inAddr (u i : Nat) : Nat := 0x01000 * (u + 1) + i

/-- The byte last written at a host address of the input windows; `none` while its written mark is 0. -/
def memGet (m : Memory) (a : Nat) : Option Byte := cellsFind m a

/-- Store `bs` at the host addresses from `a` on and set their marks (20_memory.md R65). -/
def memWrite (m : Memory) (a : Nat) (bs : List Byte) : Memory :=
  cellsSplice m a bs.length (cellsOf a bs)

/-- The canonical form of the input windows: addresses rising, each inside IN0 to IN3. Every listed byte
is one the host wrote; none is equal to what an unlisted address reads as, which is no value. -/
abbrev Memory.wf (m : Memory) : Prop :=
  CellsRise m ∧ ∀ c ∈ m, 0x01000 ≤ c.1 ∧ c.1 < 0x05000

/-- `IN_u[i]` as a command reads it: the byte, or nothing where `W_u[i] = 0` (10_state.md R51). -/
def inByte (m : Memory) (u i : Nat) : Option Byte := memGet m (inAddr u i)

/-- `IN_u[i .. i+n)` as a command reads it, or the index of its first unwritten byte. -/
def inBytes (m : Memory) (u : Nat) : Nat → Nat → Except Nat (List Byte)
  | _, 0 => .ok []
  | i, n + 1 =>
    match inByte m u i with
    | none => .error i
    | some b =>
      match inBytes m u (i + 1) n with
      | .error k => .error k
      | .ok bs => .ok (b :: bs)

/-! ### Byte strings and bit fields -/

/-- `LEw(s, 0)` of a whole string `s`: its little-endian value (00_scope.md R8). -/
def leNat : List Byte → Nat
  | [] => 0
  | b :: bs => b.toNat + 256 * leNat bs

/-- `LE16(b, i)` of a buffer. -/
def bufLE16 (b : Buf 8) (i : Nat) : Half := BitVec.ofNat 16 (leNat (bufRead b i 2))

/-- Byte `j` of a little-endian value (20_memory.md R64). -/
def byteLane {w : Nat} (v : BitVec w) (j : Nat) : Byte := v.extractLsb' (8 * j) 8

/-- The `n` low bytes of a host access value, least significant first (20_memory.md R64). -/
def valueBytes (v : Word) (n : Nat) : List Byte := (List.range n).map (byteLane v)

/-- `rotl2_8` (00_scope.md R7). -/
def rotl2 (x : Byte) : Byte := (x <<< 2) ||| (x >>> 6)

/-- The hex digit of a nibble (00_scope.md R5, `HEX`). -/
def hexDigit (n : BitVec 4) : Byte := Config.hex.getD n.toNat 0

/-- `HEX[x >> 4]`. -/
def hexHi (x : Byte) : Byte := hexDigit (x.extractLsb' 4 4)

/-- `HEX[x & 0xF]`. -/
def hexLo (x : Byte) : Byte := hexDigit (x.extractLsb' 0 4)

/-! ### Registers -/

/-- ARG`r` (10_state.md R23), `r` = 0 to 3. -/
def Args.get (a : Args) (r : Nat) : Word :=
  match r with
  | 0 => a.a0
  | 1 => a.a1
  | 2 => a.a2
  | _ => a.a3

/-- RES`r` (10_state.md R23), `r` = 0 to 7. -/
def Results.get (x : Results) (r : Nat) : Word :=
  match r with
  | 0 => x.r0
  | 1 => x.r1
  | 2 => x.r2
  | 3 => x.r3
  | 4 => x.r4
  | 5 => x.r5
  | 6 => x.r6
  | _ => x.r7

/-- `RES0 <- v`. -/
def State.setRes0 (s : State) (v : Word) : State := { s with res := { s.res with r0 := v } }

/-- `RES0 <- v; RES1 <- w`. -/
def State.setRes01 (s : State) (v w : Word) : State := { s with res := { s.res with r0 := v, r1 := w } }

/-- `RES0 <- v[31:0]; RES1 <- v[63:32]`. -/
def State.setResPair (s : State) (v : DWord) : State :=
  s.setRes01 (v.extractLsb' 0 32) (v.extractLsb' 32 32)

/-- `RES2 <- v`. -/
def State.setRes2 (s : State) (v : Word) : State := { s with res := { s.res with r2 := v } }

/-- Slot `k` of U2 (10_state.md R40). -/
def slotGet (v : Vector Slot 8) (k : Nat) : Slot := v[k]?.getD Slot.reset

/-- Replace slot `k` of U2. -/
def slotSet (v : Vector Slot 8) (k : Nat) (x : Slot) : Vector Slot 8 := v.setIfInBounds k x

/-! ### How a command ends -/

/-- `finish(res, nodata)` (00_scope.md R9). -/
def State.finish (s : State) (res nodata : Bool) : State :=
  { s with status := { err := .ok, res := res, nodata := nodata } }

/-- `fail(code)` (00_scope.md R9; 60_exceptions.md R251): nothing but STATUS changes. -/
def State.fail (s : State) (code : Err) : State :=
  { s with status := { err := code, res := false, nodata := false } }

/-- `model_fault(reason)` (60_exceptions.md R261): the mark records this fault, nothing else changes.
DESIGN CHOICE (log entry 3): a later model fault records itself over an earlier one. -/
def State.modelFault (s : State) (f : ModelFault) : State := { s with faultMark := some f }

end Sys2Proof.Machine
end

