-- ==== Sys2Proof/Machine/Flags.lean ====
section
/-!
DEFINITION. The words of STATUS (10_state.md R25) and of the read-only view registers, where every flag of
10_state.md R52 is read (R32 to R34, R37, R41, R47). A view stores nothing: each word is computed from
the unit state.
-/

namespace Sys2Proof.Machine

/-- The code of STATUS.ERR (60_exceptions.md R250). -/
def Err.code : Err → BitVec 4
  | .ok => 0
  | .illegal => 1
  | .badArg => 2
  | .noSent => 3
  | .badNum => 4

/-- The code of `F.st` (10_state.md R30). -/
def FramerSt.code : FramerSt → BitVec 2
  | .idle => 0
  | .body => 1
  | .ck1 => 2
  | .ck2 => 3

/-- The code of `C.st` (10_state.md R46). -/
def CrcSt.code : CrcSt → BitVec 2
  | .seek => 0
  | .hdr => 1
  | .ver => 2

/-- A flag as a register bit. -/
def flag (b : Bool) : Word := if b then 1 else 0

/-- A field of a register word, its lowest bit at `lo`. -/
def fieldAt {w : Nat} (v : BitVec w) (lo : Nat) : Word := (v.setWidth 32) <<< lo

/-- STATUS (R25). -/
def statusWord (t : Status) : Word := fieldAt t.err.code 0 ||| flag t.res <<< 8 ||| flag t.nodata <<< 9

/-- NM_STATE and AI_STATE (R32). -/
def framerStateWord (F : Framer) : Word :=
  fieldAt F.st.code 0 ||| flag F.valid <<< 2 ||| fieldAt F.start 8 ||| fieldAt F.nf 16

/-- NM_POS and AI_POS (R33). -/
def framerPosWord (F : Framer) : Word := fieldAt F.pos 0 ||| fieldAt F.len 16

/-- NM_ACC and AI_ACC (R34). -/
def framerAccWord (F : Framer) : Word := fieldAt F.cs 0 ||| fieldAt F.nc 16

/-- AI_FRAG (R37). -/
def aisFragWord (A : Ais) : Word := fieldAt A.acclen 0 ||| flag A.inprog <<< 13

/-- AI_MSG (R37). -/
def aisMsgWord (A : Ais) : Word := fieldAt A.msglen 0 ||| flag A.msgvalid <<< 13

/-- SG_FLAGS (R41): bit `k` is `S[k].present`, bit `8 + k` is `S[k].reg`. -/
def sigFlagsWord (v : Vector Slot 8) : Word :=
  (List.range 8).foldl
    (fun w k => w ||| flag (slotGet v k).present <<< k ||| flag (slotGet v k).reg <<< (8 + k)) 0

/-- CR_STATE (R47). -/
def crcStateWord (c : Crc) : Word := fieldAt c.st.code 0 ||| flag c.ready <<< 2

/-- CR_FILL (R47). -/
def crcFillWord (c : Crc) : Word := fieldAt c.fill 0 ||| fieldAt c.pos 16

/-- CR_HDR (R47). -/
def crcHdrWord (c : Crc) : Word := fieldAt c.mid 0 ||| fieldAt c.plen 16

/-- CR_RLEN (R47). -/
def crcRlenWord (c : Crc) : Word := fieldAt c.rlen 0

end Sys2Proof.Machine
end

