-- ==== Sys2Proof/Machine/Bus.lean ====
section
/-!
DEFINITION. What a host access does, but for issuing a command (20_memory.md R60 to R66): the address map,
the allowed widths and alignments, reads of registers and windows, stores to ARG0..ARG3 and to the
input windows.
-/

namespace Sys2Proof.Machine

/-- The width and alignment rule (R63; 90_conflicts.md C13): aligned 32-bit in the register block;
8, 16 or 32 bits, naturally aligned, everywhere else. -/
def accessOk (a size : Nat) : Bool :=
  if a < 0x01000 then decide (size = 4 ∧ a % 4 = 0)
  else decide ((size = 1 ∨ size = 2 ∨ size = 4) ∧ a % size = 0)

/-- A read of the register at offset `a` (10_state.md R22); CMD reads as 0 (R24), reserved offsets too
(20_memory.md R62). -/
def regRead (s : State) (a : Nat) : Word :=
  match a with
  | 0x004 => s.args.a0
  | 0x008 => s.args.a1
  | 0x00C => s.args.a2
  | 0x010 => s.args.a3
  | 0x014 => statusWord s.status
  | 0x020 => s.res.r0
  | 0x024 => s.res.r1
  | 0x028 => s.res.r2
  | 0x02C => s.res.r3
  | 0x030 => s.res.r4
  | 0x034 => s.res.r5
  | 0x038 => s.res.r6
  | 0x03C => s.res.r7
  | 0x040 => framerStateWord s.f0
  | 0x044 => framerPosWord s.f0
  | 0x048 => framerAccWord s.f0
  | 0x050 => framerStateWord s.f1
  | 0x054 => framerPosWord s.f1
  | 0x058 => framerAccWord s.f1
  | 0x05C => aisFragWord s.ais
  | 0x060 => aisMsgWord s.ais
  | 0x070 => sigFlagsWord s.slots
  | 0x080 => crcStateWord s.crc
  | 0x084 => crcFillWord s.crc
  | 0x088 => crcHdrWord s.crc
  | 0x08C => crcRlenWord s.crc
  | _ => 0

/-- The byte a host reads at a window or unmapped address (20_memory.md R61, R62, R66): an input byte
never written is a free value; NM_FSTART is 16-bit little-endian entries (10_state.md R35). -/
def windowByte (s : State) (a : Nat) : Byte :=
  if 0x01000 ≤ a ∧ a < 0x05000 then (memGet s.mem a).getD (Config.unwrittenByte a)
  else if 0x05000 ≤ a ∧ a < 0x05200 then bufGet s.f0.chars (a - 0x05000)
  else if 0x05200 ≤ a ∧ a < 0x05240 then
    byteLane ((bufGet s.f0.fstart ((a - 0x05200) / 2)).setWidth 16) ((a - 0x05200) % 2)
  else if 0x06000 ≤ a ∧ a < 0x07000 then bufGet s.ais.msg (a - 0x06000)
  else if 0x07000 ≤ a ∧ a < 0x07400 then bufGet s.crc.res (a - 0x07000)
  else if 0x10000 ≤ a ∧ a < 0x18000 then
    bufGet (slotGet s.slots ((a - 0x10000) / 0x1000)).record ((a - 0x10000) % 0x1000)
  else 0

/-- The value of an allowed read of `size` bytes at `a` (20_memory.md R64, R66). -/
def busRead (s : State) (a size : Nat) : Word :=
  if a < 0x01000 then regRead s a
  else BitVec.ofNat 32 (leNat ((List.range' a size).map (windowByte s)))

/-- The store of an allowed write that is not to CMD (20_memory.md R62, R65): ARG0..ARG3 and the input
windows take it, anything else ignores it. -/
def busStore (s : State) (a size : Nat) (v : Word) : State :=
  if 0x01000 ≤ a ∧ a < 0x05000 then { s with mem := memWrite s.mem a (valueBytes v size) }
  else match a with
    | 0x004 => { s with args := { s.args with a0 := v } }
    | 0x008 => { s with args := { s.args with a1 := v } }
    | 0x00C => { s with args := { s.args with a2 := v } }
    | 0x010 => { s with args := { s.args with a3 := v } }
    | _ => s

end Sys2Proof.Machine
end

