-- ==== Sys2Proof/Syntax.lean ====
section
/-!
DEFINITION. The commands of the block, one constructor for each row of spec/opcode_table.json
(30_encoding.md R83). A constructor holds EVERY operand bit of its word, the ones its rule does not
name included (R81 ignores them): a word is then recovered exactly from its command, which is what the
fault mark of 60_exceptions.md R261 records. Arguments named `ua` and `ub` are those ignored bits.
-/

namespace Sys2Proof

/-- A command: one 32-bit word of format C (30_encoding.md R80, R82). -/
inductive Instr where
  /-- NMEA.CFG (40_nmea_framer.md R121): `c` the start character. -/
  | nmeaCfg (c : Byte) (ub : Half)
  /-- NMEA.FEEDN (R122): `len` the buffer length. -/
  | nmeaFeedn (ua : Byte) (len : Half)
  /-- NMEA.FEEDC (R123). -/
  | nmeaFeedc (ua : Byte) (ub : Half)
  /-- NMEA.NFIELDS (R124). -/
  | nmeaNfields (ua : Byte) (ub : Half)
  /-- NMEA.FIELD (R125): `i` the field index. -/
  | nmeaField (i : Byte) (ub : Half)
  /-- NMEA.FINT (R127): `i` the field index. -/
  | nmeaFint (i : Byte) (ub : Half)
  /-- NMEA.FDEC (R129): `i` the field index. -/
  | nmeaFdec (i : Byte) (ub : Half)
  /-- NMEA.ISMSG (R130): `n` the field count, `len` the name length; the name stands in ARG0..ARG3. -/
  | nmeaIsmsg (n : Byte) (len : Half)
  /-- AIS.FEEDN (41_ais.md R151): `len` the buffer length. -/
  | aisFeedn (ua : Byte) (len : Half)
  /-- AIS.FEEDC (R152). -/
  | aisFeedc (ua : Byte) (ub : Half)
  /-- AIS.MSGLEN (R153). -/
  | aisMsglen (ua : Byte) (ub : Half)
  /-- AIS.BITS (R156): `sgn` is A[7], `len` is A[6:0], `start` is B (30_encoding.md R81). -/
  | aisBits (sgn : Bool) (len : BitVec 7) (start : Half)
  /-- AIS.TYPE (R157). -/
  | aisType (ua : Byte) (ub : Half)
  /-- AIS.MMSI (R158). -/
  | aisMmsi (ua : Byte) (ub : Half)
  /-- AIS.POS (R160). -/
  | aisPos (ua : Byte) (ub : Half)
  /-- SIG.REG (42_sigcsum.md R184): `k` the slot, `size` the payload size; the name stands in ARG0. -/
  | sigReg (k : Byte) (size : Half)
  /-- SIG.SCAN (R185): `k` the slot, `len` the buffer length; the start index stands in ARG0. -/
  | sigScan (k : Byte) (len : Half)
  /-- SIG.LATEST (R186): `k` the slot, `len` the buffer length. -/
  | sigLatest (k : Byte) (len : Half)
  /-- SIG.CLR (R187): `k` the slot. -/
  | sigClr (k : Byte) (ub : Half)
  /-- CRC.FEED (43_crc32_framer.md R217): `len` the input length. -/
  | crcFeed (ua : Byte) (len : Half)
  /-- CRC.TAKE (R218). -/
  | crcTake (ua : Byte) (ub : Half)
  /-- CRC.CRC32 (R219): `len` the input length. -/
  | crcCrc32 (ua : Byte) (len : Half)
  /-- CRC.FIELD (R221): `j` the layout field index. -/
  | crcField (j : Byte) (ub : Half)
  /-- CRC.NORM (R223): `j` the norm index. -/
  | crcNorm (j : Byte) (ub : Half)
  /-- BLK.RESET (44_block.md R240). -/
  | blkReset (ua : Byte) (ub : Half)
  deriving DecidableEq, Repr

end Sys2Proof
end

