-- ==== Sys2Proof/WellFormed.lean ====
section
/-!
DEFINITION. The form of a command the assembler of 30_encoding.md R85 writes: every operand bit its
rule does not name is 0. The block itself accepts any such bit (R81), so the decoder and `exec` do not
ask for this form; it singles out one word for each command and its named operands.
-/

namespace Sys2Proof

/-- `i` is written as R85 writes it: the operand bits R81 ignores are 0. -/
def WellFormed : Instr → Bool
  | .nmeaCfg _ ub => ub == 0
  | .nmeaFeedn ua _ => ua == 0
  | .nmeaFeedc ua ub => ua == 0 && ub == 0
  | .nmeaNfields ua ub => ua == 0 && ub == 0
  | .nmeaField _ ub => ub == 0
  | .nmeaFint _ ub => ub == 0
  | .nmeaFdec _ ub => ub == 0
  | .nmeaIsmsg _ _ => true
  | .aisFeedn ua _ => ua == 0
  | .aisFeedc ua ub => ua == 0 && ub == 0
  | .aisMsglen ua ub => ua == 0 && ub == 0
  | .aisBits _ _ _ => true
  | .aisType ua ub => ua == 0 && ub == 0
  | .aisMmsi ua ub => ua == 0 && ub == 0
  | .aisPos ua ub => ua == 0 && ub == 0
  | .sigReg _ _ => true
  | .sigScan _ _ => true
  | .sigLatest _ _ => true
  | .sigClr _ ub => ub == 0
  | .crcFeed ua _ => ua == 0
  | .crcTake ua ub => ua == 0 && ub == 0
  | .crcCrc32 ua _ => ua == 0
  | .crcField _ ub => ub == 0
  | .crcNorm _ ub => ub == 0
  | .blkReset ua ub => ua == 0 && ub == 0

end Sys2Proof
end

