-- ==== Sys2Proof/Decode.lean ====
section
/-!
DEFINITION. Format C: the decoder, total on command words, and the encoder (30_encoding.md R80 to R84).
-/

namespace Sys2Proof

/-- Why a word is no command: its (UNIT, OP) pair is not in the map of 30_encoding.md R83 (R84). -/
inductive Reject where
  | illegal (unit op : BitVec 4)
  deriving DecidableEq, Repr

/-- UNIT, bits 31:28 (R80). -/
def unitOf (w : Word) : BitVec 4 := w.extractLsb' 28 4

/-- OP, bits 27:24 (R80). -/
def opOf (w : Word) : BitVec 4 := w.extractLsb' 24 4

/-- UNIT and OP together, bits 31:24: what selects the command (R83, mask 0xFF000000). -/
def selectorOf (w : Word) : Byte := w.extractLsb' 24 8

/-- The operand A, bits 23:16 (R80, R81). -/
def operandA (w : Word) : Byte := w.extractLsb' 16 8

/-- The operand B, bits 15:0 (R80, R81). -/
def operandB (w : Word) : Half := w.extractLsb' 0 16

/-- The command selected by the pair `sel` with operands `a` and `b` (R81, R83). -/
def commandOf (sel : Nat) (a : Byte) (b : Half) : Option Instr :=
  match sel with
  | 0x00 => some (.nmeaCfg a b)
  | 0x01 => some (.nmeaFeedn a b)
  | 0x02 => some (.nmeaFeedc a b)
  | 0x03 => some (.nmeaNfields a b)
  | 0x04 => some (.nmeaField a b)
  | 0x05 => some (.nmeaFint a b)
  | 0x06 => some (.nmeaFdec a b)
  | 0x07 => some (.nmeaIsmsg a b)
  | 0x11 => some (.aisFeedn a b)
  | 0x12 => some (.aisFeedc a b)
  | 0x13 => some (.aisMsglen a b)
  | 0x14 => some (.aisBits a.msb (a.extractLsb' 0 7) b)
  | 0x15 => some (.aisType a b)
  | 0x16 => some (.aisMmsi a b)
  | 0x17 => some (.aisPos a b)
  | 0x20 => some (.sigReg a b)
  | 0x21 => some (.sigScan a b)
  | 0x22 => some (.sigLatest a b)
  | 0x23 => some (.sigClr a b)
  | 0x31 => some (.crcFeed a b)
  | 0x32 => some (.crcTake a b)
  | 0x33 => some (.crcCrc32 a b)
  | 0x34 => some (.crcField a b)
  | 0x35 => some (.crcNorm a b)
  | 0xF0 => some (.blkReset a b)
  | _ => none

/-- The command of a word, or the named rejection of 30_encoding.md R84. -/
def decode (w : Word) : Except Reject Instr :=
  match commandOf (selectorOf w).toNat (operandA w) (operandB w) with
  | some i => .ok i
  | none => .error (.illegal (unitOf w) (opOf w))

/-- UNIT and OP of a command, as the opcode map of R83 lists them. -/
def selector : Instr → Byte
  | .nmeaCfg _ _ => 0x00
  | .nmeaFeedn _ _ => 0x01
  | .nmeaFeedc _ _ => 0x02
  | .nmeaNfields _ _ => 0x03
  | .nmeaField _ _ => 0x04
  | .nmeaFint _ _ => 0x05
  | .nmeaFdec _ _ => 0x06
  | .nmeaIsmsg _ _ => 0x07
  | .aisFeedn _ _ => 0x11
  | .aisFeedc _ _ => 0x12
  | .aisMsglen _ _ => 0x13
  | .aisBits _ _ _ => 0x14
  | .aisType _ _ => 0x15
  | .aisMmsi _ _ => 0x16
  | .aisPos _ _ => 0x17
  | .sigReg _ _ => 0x20
  | .sigScan _ _ => 0x21
  | .sigLatest _ _ => 0x22
  | .sigClr _ _ => 0x23
  | .crcFeed _ _ => 0x31
  | .crcTake _ _ => 0x32
  | .crcCrc32 _ _ => 0x33
  | .crcField _ _ => 0x34
  | .crcNorm _ _ => 0x35
  | .blkReset _ _ => 0xF0

/-- The operands A and B of a command, every bit of them (R80, R81). -/
def operands : Instr → Byte × Half
  | .nmeaCfg a b => (a, b)
  | .nmeaFeedn a b => (a, b)
  | .nmeaFeedc a b => (a, b)
  | .nmeaNfields a b => (a, b)
  | .nmeaField a b => (a, b)
  | .nmeaFint a b => (a, b)
  | .nmeaFdec a b => (a, b)
  | .nmeaIsmsg a b => (a, b)
  | .aisFeedn a b => (a, b)
  | .aisFeedc a b => (a, b)
  | .aisMsglen a b => (a, b)
  | .aisBits sgn len b => (BitVec.cons sgn len, b)
  | .aisType a b => (a, b)
  | .aisMmsi a b => (a, b)
  | .aisPos a b => (a, b)
  | .sigReg a b => (a, b)
  | .sigScan a b => (a, b)
  | .sigLatest a b => (a, b)
  | .sigClr a b => (a, b)
  | .crcFeed a b => (a, b)
  | .crcTake a b => (a, b)
  | .crcCrc32 a b => (a, b)
  | .crcField a b => (a, b)
  | .crcNorm a b => (a, b)
  | .blkReset a b => (a, b)

/-- The word of a command (R80, R85): UNIT and OP, then A, then B. -/
def encode (i : Instr) : Word :=
  (selector i ++ (operands i).1 : BitVec 16) ++ (operands i).2

/-- The command the decoder reads from the low `nbits` bits of `w`, the bits above them 0. A command is
one 32-bit word (R82), stored little-endian in CMD, so bit 0 of the table is bit 0 of the word. -/
def decodeTableWord (nbits w : Nat) : Option Instr :=
  match decode (BitVec.ofNat 32 (w % 2 ^ nbits)) with
  | .ok i => some i
  | .error _ => none

end Sys2Proof
end

