-- ==== Sys2Proof/Machine/Operands.lean ====
section
/-!
DEFINITION. How operands are read: the ones packed in ARG registers (30_encoding.md R81), and the decimal
readers of a field, `ParseInt` and `ParseDec` (40_nmea_framer.md R126, R128).
-/

namespace Sys2Proof.Machine

/-- Byte `j` of the name in ARG0..ARG3, four bytes a register, little-endian (30_encoding.md R81). -/
def nameByte (a : Args) (j : Nat) : Byte := byteLane (a.get (j / 4)) (j % 4)

/-- NMEA.ISMSG's name of `len` bytes, `len <= 16` (30_encoding.md R81). -/
def nameBytes (a : Args) (len : Nat) : List Byte := (List.range len).map (nameByte a)

/-- SIG.REG's `n0 = ARG0[7:0]` (30_encoding.md R81). -/
def sigName0 (a : Args) : Byte := byteLane a.a0 0

/-- SIG.REG's `n1 = ARG0[15:8]` (30_encoding.md R81). -/
def sigName1 (a : Args) : Byte := byteLane a.a0 1

/-- SIG.SCAN's `start = ARG0`, an unsigned 32-bit number (30_encoding.md R81). -/
def sigStart (a : Args) : Nat := a.a0.toNat

/-- A decimal digit. -/
def isDigit (b : Byte) : Bool := decide (0x30 ≤ b.toNat ∧ b.toNat ≤ 0x39)

/-- The decimal value of a string of digits, most significant first. -/
def decValue (ds : List Byte) : Nat := ds.foldl (fun v b => 10 * v + (b.toNat - 0x30)) 0

/-- The optional sign of R126: whether it is '-', and the rest of the string. -/
def splitSign : List Byte → Bool × List Byte
  | [] => (false, [])
  | b :: t => if b = 0x2D then (true, t) else if b = 0x2B then (false, t) else (false, b :: t)

/-- A magnitude with its sign. -/
def signedValue (neg : Bool) (m : Nat) : Int := if neg then -(m : Int) else m

/-- `ParseInt(s)` (40_nmea_framer.md R126); `none` is FAIL. -/
def parseInt (s : List Byte) : Option Int :=
  let (neg, t) := splitSign s
  if t.length < 1 ∨ t.length > Config.numMaxDigits then none
  else if t.all isDigit then some (signedValue neg (decValue t)) else none

/-- The parts of a number before and after its first '.', the second empty where there is none. -/
def splitPoint (t : List Byte) : List Byte × List Byte :=
  (t.takeWhile (· ≠ 0x2E), (t.dropWhile (· ≠ 0x2E)).drop 1)

/-- `ParseDec(s)` (40_nmea_framer.md R128): significand and number of fraction digits; `none` is FAIL. A
second '.' stands in the fraction part and is no digit, so it fails as R128 says. -/
def parseDec (s : List Byte) : Option (Int × Nat) :=
  let (neg, t) := splitSign s
  let (d1, d2) := splitPoint t
  if ¬ (d1 ++ d2).all isDigit then none
  else if d1.length + d2.length < 1 ∨ d1.length + d2.length > Config.numMaxDigits then none
  else some (signedValue neg (decValue (d1 ++ d2)), d2.length)

end Sys2Proof.Machine
end

