-- ==== Sys2Proof/Machine/Framer.lean ====
section
/-!
DEFINITION. The NMEA framer, shared by U0 (instance F0) and U1 (instance F1): the byte step
(40_nmea_framer.md R110 to R119), the feed loop (R120) and the queryable fields (10_state.md R31).
-/

namespace Sys2Proof.Machine

/-- Printable: inside 0x20..0x7E (R111). -/
def printable (b : Byte) : Bool :=
  decide (Config.printLo.toNat ≤ b.toNat ∧ b.toNat ≤ Config.printHi.toNat)

/-- A start character: the accumulators are reset and field 0 is opened, empty (R112). -/
def framerOpen (F : Framer) : Framer :=
  { F with st := .body, cs := 0, nf := 1, nc := 0, fstart := bufWrite F.fstart 0 [0] }

/-- A comma in BODY (R114). -/
def framerComma (F : Framer) : Framer :=
  if F.nf.toNat = Config.nmeaMaxFields then { F with st := .idle }
  else { F with
    cs := F.cs ^^^ 0x2C
    fstart := bufWrite F.fstart F.nf.toNat [F.nc]
    nf := F.nf + 1 }

/-- Any other byte in BODY (R116). -/
def framerStore (F : Framer) (b : Byte) : Framer :=
  if F.nc.toNat = Config.nmeaMaxChars then { F with st := .idle }
  else { F with
    chars := bufWrite F.chars F.nc.toNat [b]
    nc := F.nc + 1
    cs := F.cs ^^^ b }

/-- `Step(F, b)` (R110 to R118): the framer after one byte, and whether it answered COMPLETE. -/
def framerStep (F : Framer) (b : Byte) : Framer × Bool :=
  if ¬ printable b then ({ F with st := .idle }, false)
  else if b = F.start then (framerOpen F, false)
  else match F.st with
    | .idle => (F, false)
    | .body =>
      if b = 0x2C then (framerComma F, false)
      else if b = 0x2A then ({ F with st := .ck1 }, false)
      else (framerStore F b, false)
    | .ck1 => ({ F with st := if b = hexHi F.cs then .ck2 else .idle }, false)
    | .ck2 => ({ F with st := .idle }, decide (b = hexLo F.cs))

/-- The loop of `FramerRun` over window `IN_u` (R120) for at most `n` bytes: the framer and whether a
sentence completed, or the index of an unwritten byte. -/
def framerScan (m : Memory) (u : Nat) : Nat → Framer → Except Nat (Framer × Bool)
  | 0, F => .ok (F, false)
  | n + 1, F =>
    match inByte m u F.pos.toNat with
    | none => .error F.pos.toNat
    | some b =>
      match framerStep { F with pos := F.pos + 1 } b with
      | (F', true) => .ok ({ F' with valid := true }, true)
      | (F', false) => framerScan m u n F'

/-- `FramerRun(F, u)` (R120): `F.valid` is cleared, then the bytes from `F.pos` to `F.len` are scanned. -/
def framerRun (m : Memory) (u : Nat) (F : Framer) : Except Nat (Framer × Bool) :=
  framerScan m u (F.len.toNat - F.pos.toNat) { F with valid := false }

/-- A new buffer of `len` bytes (R122; 41_ais.md R151); `reset` is `NMEA_RESET_ON_NEW_BUFFER`. -/
def framerNewBuffer (F : Framer) (len : Half) (reset : Bool) : Framer :=
  { F with pos := 0, len := len.setWidth 13, st := if reset then .idle else F.st }

/-- Where field `i` starts in `F.chars` (10_state.md R31). -/
def fieldStart (F : Framer) (i : Nat) : Nat := (bufGet F.fstart i).toNat

/-- Where field `i` ends in `F.chars` (10_state.md R31). -/
def fieldEnd (F : Framer) (i : Nat) : Nat :=
  if i + 1 < F.nf.toNat then (bufGet F.fstart (i + 1)).toNat else F.nc.toNat

/-- Field `i` of the queryable sentence, as a byte string (10_state.md R31). -/
def fieldBytes (F : Framer) (i : Nat) : List Byte :=
  bufRead F.chars (fieldStart F i) (fieldEnd F i - fieldStart F i)

end Sys2Proof.Machine
end

