-- ==== Sys2Proof/Machine/Ais.lean ====
section
/-!
DEFINITION. U1: reassembly of `AIVDM` fragments (41_ais.md R140 to R150), bit reads and the position
report (R155, R159; 30_encoding.md R93 to R95), and the U1 commands (R151 to R160).
-/

namespace Sys2Proof.Machine

/-! ### Reassembly -/

/-- The bytes of `AIVDM`. -/
def aivdm : List Byte := [0x41, 0x49, 0x56, 0x44, 0x4D]

/-- The completed sentence is offered to reassembly (R141). -/
def isAivdm (F : Framer) : Bool := decide (F.nf.toNat = 7 ∧ fieldBytes F 0 = aivdm)

/-- `Clear()` (R148). -/
def aisClear (A : Ais) : Ais := { A with inprog := false, acclen := 0, expect := 0, seqlen := 0 }

/-- `Emit(p)` (R149). -/
def aisEmit (A : Ais) (p : List Byte) : Ais :=
  { A with msg := bufWrite A.msg 0 p, msglen := BitVec.ofNat 13 p.length, msgvalid := true }

/-- The first fragment of a sequence: payload `p`, sequence id `q` (R142, R143). -/
def aisFirst (A : Ais) (p q : List Byte) : Ais :=
  { A with
    acc := bufWrite A.acc 0 p
    acclen := BitVec.ofNat 13 p.length
    expect := 2
    seq := bufWrite A.seq 0 q
    seqlen := BitVec.ofNat 10 q.length
    inprog := true }

/-- The accumulated payload followed by `p` (R142). -/
def aisAppend (A : Ais) (p : List Byte) : Ais :=
  { A with
    acc := bufWrite A.acc A.acclen.toNat p
    acclen := BitVec.ofNat 13 (A.acclen.toNat + p.length) }

/-- A fragment of index `x`, other than 1, in a sequence of `t`: payload `p`, sequence id `q`
(R142, R145 to R148). -/
def aisNext (A : Ais) (t x : Int) (p q : List Byte) : Ais × Bool :=
  if A.inprog = false ∨ x ≠ A.expect.toInt ∨ q ≠ bufRead A.seq 0 A.seqlen.toNat then (aisClear A, false)
  else if x > t then (aisClear A, false)
  else if A.acclen.toNat + p.length > Config.aisCap then (aisClear A, false)
  else
    let A' := aisAppend A p
    if x < t then ({ A' with expect := A'.expect + 1 }, false)
    else (aisClear (aisEmit A' (bufRead A'.acc 0 A'.acclen.toNat)), true)

/-- `Reassemble()` on the sentence F1 = `F` has just completed (R142); true is EMITTED. -/
def reassemble (F : Framer) (A : Ais) : Ais × Bool :=
  match parseInt (fieldBytes F 1) with
  | none => (A, false)
  | some t =>
    if t = 1 then (aisEmit A (fieldBytes F 5), true)
    else match parseInt (fieldBytes F 2) with
      | none => (A, false)
      | some x =>
        if x = 1 then (aisFirst A (fieldBytes F 5) (fieldBytes F 3), false)
        else aisNext A t x (fieldBytes F 5) (fieldBytes F 3)

/-- What a completed sentence does to the fragment state and message (R141, R142). -/
def aisOffer (F : Framer) (A : Ais) : Ais × Bool :=
  if isAivdm F then reassemble F A else (A, false)

/-- The loop of `AisRun` (R150), for at most `n` runs of the framer. -/
def aisLoop (m : Memory) : Nat → Framer → Ais → Except Nat (Framer × Ais × Bool)
  | 0, F, A => .ok (F, A, false)
  | n + 1, F, A =>
    match framerRun m 1 F with
    | .error i => .error i
    | .ok (F', false) => .ok (F', A, false)
    | .ok (F', true) =>
      match aisOffer F' A with
      | (A', true) => .ok (F', A', true)
      | (A', false) => aisLoop m n F' A'

/-- `AisRun()` (R150). DEDUCED (log entry 11): each completed sentence takes at least one byte of the
buffer, so one run more than the bytes left is never used up. -/
def aisRun (m : Memory) (F : Framer) (A : Ais) : Except Nat (Framer × Ais × Bool) :=
  aisLoop m (F.len.toNat - F.pos.toNat + 1) F A

/-! ### Bits -/

/-- `SixBit(c)` (30_encoding.md R93). -/
def sixBit (c : Byte) : BitVec 6 :=
  let v : Int := (c.toNat : Int) - 48
  BitVec.ofInt 6 (if v > 40 then v - 8 else v)

/-- `BitAt(m, b)` (30_encoding.md R94), the first bit of a character its most significant. -/
def bitAt (m : Buf 8) (b : Nat) : Bool := (sixBit (bufGet m (b / 6))).getMsbD (b % 6)

/-- The number whose bits, most significant first, are the `n` bits of `m` from bit `b` on. -/
def rawBits (m : Buf 8) (b n : Nat) : Nat :=
  (List.range n).foldl (fun raw j => 2 * raw + (bitAt m (b + j)).toNat) 0

/-- `ReadBits(b, n, sg)` (R155); `none` is NODATA. -/
def readBits (A : Ais) (b n : Nat) (sg : Bool) : Option Int :=
  if b + n > 6 * A.msglen.toNat then none
  else
    let raw : Int := rawBits A.msg b n
    if sg ∧ n ≥ 1 ∧ bitAt A.msg b then some (raw - 2 ^ n) else some raw

/-! ### The position report -/

/-- A decoded field: its value if it has data, and whether it is present (R159). -/
structure PosField where
  value : Option Int
  present : Bool
  deriving DecidableEq, Repr

/-- One field of the position report (R159). -/
def posField (A : Ais) (f : AisField) : PosField :=
  let r := readBits A f.off f.len f.signed
  { value := r, present := r.isSome && r != some f.sentinel }

/-- The offsets for a message type, `none` for a type that is no position report (R159). -/
def posOffsets (ty : Int) : Option AisOffsets :=
  if ty = 1 ∨ ty = 2 ∨ ty = 3 then some Config.aisOffA
  else if ty = 18 ∨ ty = 19 then some Config.aisOffB
  else none

/-- A field's RES value: 0 without data, else the value in 32-bit two's complement (R160). -/
def PosField.word (f : PosField) : Word :=
  match f.value with
  | none => 0
  | some v => BitVec.ofInt 32 v

/-- Five flags as bits 0 to 4. -/
def fiveFlags (a b c d e : Bool) : Word :=
  (if a then 1 else 0) ||| (if b then 2 else 0) ||| (if c then 4 else 0) |||
    (if d then 8 else 0) ||| (if e then 16 else 0)

/-- RES0 to RES7 of a position report of type `ty` (R160). -/
def posResults (A : Ais) (ty : Int) (o : AisOffsets) : Results :=
  let sog := posField A (Config.aisSog o)
  let lon := posField A (Config.aisLon o)
  let lat := posField A (Config.aisLat o)
  let cog := posField A (Config.aisCog o)
  let hdg := posField A (Config.aisHdg o)
  { r0 := fiveFlags sog.present lon.present lat.present cog.present hdg.present
    r1 := sog.word
    r2 := lon.word
    r3 := lat.word
    r4 := cog.word
    r5 := hdg.word
    r6 := BitVec.ofInt 32 ty
    r7 := fiveFlags sog.value.isNone lon.value.isNone lat.value.isNone cog.value.isNone
      hdg.value.isNone }

/-! ### Commands -/

/-- `r <- AisRun(); RES0 <- F1.pos; finish(r, 0)`, from F1 = `F`, for the command word `w`
(R151, R152). -/
def feedU1 (w : Word) (F : Framer) (s : State) : Result :=
  match aisRun s.mem F s.ais with
  | .error i => .next (s.modelFault (.unwrittenInput w i))
  | .ok (F', A', r) =>
    .next ((({ s with f1 := F', ais := A' }).setRes0 (F'.pos.setWidth 32)).finish r false)

/-- AIS.FEEDN (R151). -/
def execAisFeedn (ua : Byte) (len : Half) (s : State) : Result :=
  if len.toNat > Config.inCap then .next (s.fail .badArg)
  else feedU1 (encode (.aisFeedn ua len)) (framerNewBuffer s.f1 len Config.nmeaResetOnNewBuffer) s

/-- AIS.FEEDC (R152). -/
def execAisFeedc (ua : Byte) (ub : Half) (s : State) : Result :=
  feedU1 (encode (.aisFeedc ua ub)) s.f1 s

/-- AIS.MSGLEN (R153). -/
def execAisMsglen (s : State) : Result :=
  if ¬ s.ais.msgvalid then .next (s.fail .noSent)
  else .next ((s.setRes01 (s.ais.msglen.setWidth 32)
    (BitVec.ofNat 32 (6 * s.ais.msglen.toNat))).finish true false)

/-- The NOSENT check and bit read of R156, shared by AIS.BITS, AIS.TYPE and AIS.MMSI (R157, R158). -/
def readBitsCommand (b n : Nat) (sg : Bool) (s : State) : Result :=
  if ¬ s.ais.msgvalid then .next (s.fail .noSent)
  else match readBits s.ais b n sg with
    | none => .next ((s.setRes01 0 0).finish false true)
    | some v => .next ((s.setResPair (BitVec.ofInt 64 v)).finish true false)

/-- AIS.BITS (R156). -/
def execAisBits (sgn : Bool) (len : BitVec 7) (start : Half) (s : State) : Result :=
  if len.toNat > Config.aisBitsMax then .next (s.fail .badArg)
  else readBitsCommand start.toNat len.toNat sgn s

/-- AIS.TYPE (R157). -/
def execAisType (s : State) : Result := readBitsCommand 0 6 false s

/-- AIS.MMSI (R158). -/
def execAisMmsi (s : State) : Result := readBitsCommand 8 30 false s

/-- AIS.POS (R159, R160). -/
def execAisPos (s : State) : Result :=
  if ¬ s.ais.msgvalid then .next (s.fail .noSent)
  else match readBits s.ais 0 6 false with
    | none => .next (({ s with res := ⟨0, 0, 0, 0, 0, 0, 0xFFFFFFFF, 0⟩ }).finish false true)
    | some ty =>
      match posOffsets ty with
      | none =>
        .next (({ s with res := ⟨0, 0, 0, 0, 0, 0, BitVec.ofInt 32 ty, 0⟩ }).finish false false)
      | some o => .next (({ s with res := posResults s.ais ty o }).finish true false)

end Sys2Proof.Machine
end

