-- ==== Sys2Proof/Machine/Blk.lean ====
section
/-!
DEFINITION. The block command (44_block.md R240).
-/

namespace Sys2Proof.Machine

/-- BLK.RESET (44_block.md R240; 70_reset_and_hazards.md R271): every unit field, ARG and RES at its reset
value; the input windows with their marks, and the fault mark (10_state.md R53), are kept. -/
def execBlkReset (s : State) : Result :=
  .next (({ s with
    args := State.reset.args
    res := State.reset.res
    f0 := State.reset.f0
    f1 := State.reset.f1
    ais := State.reset.ais
    slots := State.reset.slots
    crc := State.reset.crc }).finish true false)

end Sys2Proof.Machine
end

