-- ==== Sys2Proof/Machine/Crc.lean ====
section
/-!
DEFINITION. U3: the reflected CRC32 (43_crc32_framer.md R210), the frame state machine (R211 to R216), field
extraction and norms (R220, R222; 30_encoding.md R100), and the U3 commands (R217 to R223).
-/

namespace Sys2Proof.Machine

/-! ### The CRC32 engine -/

/-- One of the eight shifts of R210. -/
def crcShift (c : Word) : Word :=
  if c.getLsbD 0 then (c >>> 1) ^^^ Config.crcPoly else c >>> 1

/-- One byte of R210: it enters the low 8 bits, then eight shifts. -/
def crcByte (c : Word) (b : Byte) : Word :=
  crcShift (crcShift (crcShift (crcShift (crcShift (crcShift (crcShift (crcShift
    (c ^^^ b.setWidth 32))))))))

/-- The CRC of R210 with a given start value and final XOR. -/
def crc32With (init xorOut : Word) (s : List Byte) : Word := s.foldl crcByte init ^^^ xorOut

/-- `CRC32(s)` (R210). -/
def crc32 (s : List Byte) : Word := crc32With Config.crcInit Config.crcXorOut s

/-! ### The frame state machine -/

/-- `C.fill - C.pos`: the bytes from the search position on. -/
def crcAvail (c : Crc) : Nat := c.fill.toNat - c.pos.toNat

/-- The search position advanced by `n`. -/
def crcAdvance (c : Crc) (n : Nat) : Crc := { c with pos := c.pos + BitVec.ofNat 11 n }

/-- A rejected header or CRC: on by `CRC_FAIL_STEP`, back to SEEK (R213, R214). -/
def crcReject (c : Crc) : Crc := { crcAdvance c Config.crcFailStep with st := .seek }

/-- The header latched (R213). -/
def crcLatch (c : Crc) : Crc :=
  { c with
    mid := bufLE16 c.acc (c.pos.toNat + Config.crcIdOff)
    plen := bufLE16 c.acc (c.pos.toNat + Config.crcLenOff) }

/-- The length of the candidate frame (R214; 30_encoding.md R98). -/
def crcFrameLen (c : Crc) : Nat := Config.crcHdrLen + c.plen.toNat + Config.crcTrailer

/-- `Deliver(f)` (R215). -/
def crcDeliver (c : Crc) (f : List Byte) : Crc :=
  let n := f.length
  let r := c.fill.toNat - (c.pos.toNat + n)
  { c with
    res := bufWrite c.res 0 f
    rlen := BitVec.ofNat 11 n
    ready := true
    acc := bufWrite c.acc 0 (bufRead c.acc (c.pos.toNat + n) r)
    fill := BitVec.ofNat 11 r
    pos := 0
    st := .seek }

/-- The frame `f` carries its own CRC32 (30_encoding.md R99). -/
def frameCrcOk (f : List Byte) : Bool :=
  decide (crc32 (f.take (f.length - 4)) = BitVec.ofNat 32 (leNat (f.drop (f.length - 4))))

/-- One turn of the loop of `Run` (R211 to R215): `none` where it waits, else the new state and the
number of frames accepted. -/
def crcStep (c : Crc) : Option (Crc × Nat) :=
  match c.st with
  | .seek =>
    if crcAvail c < 3 then none
    else if bufRead c.acc c.pos.toNat 3 = Config.crcPreamble then some ({ c with st := .hdr }, 0)
    else some (crcAdvance c 1, 0)
  | .hdr =>
    if crcAvail c < Config.crcHdrLen then none
    else
      let c' := crcLatch c
      if (c'.mid, c'.plen) ∈ Config.crcWhitelist then some ({ c' with st := .ver }, 0)
      else some (crcReject c', 0)
  | .ver =>
    if crcAvail c < crcFrameLen c then none
    else
      let f := bufRead c.acc c.pos.toNat (crcFrameLen c)
      if frameCrcOk f then some (crcDeliver c f, 1) else some (crcReject c, 0)

/-- At most `n` turns of `Run`, with the frames accepted so far. -/
def crcTurns : Nat → Crc → Nat → Crc × Nat
  | 0, c, d => (c, d)
  | n + 1, c, d =>
    match crcStep c with
    | none => (c, d)
    | some (c', k) => crcTurns n c' (d + k)

/-- `Run()` (R211): the state where it waits, and the frames accepted. DEDUCED (log entry 11): a turn
moves the search position or the state on, three turns at most for each byte held. -/
def crcRun (c : Crc) : Crc × Nat := crcTurns (3 * crcAvail c + 3) c 0

/-- Append `bs` to the accumulation buffer (R216). -/
def crcAppend (c : Crc) (bs : List Byte) : Crc :=
  { c with
    acc := bufWrite c.acc c.fill.toNat bs
    fill := BitVec.ofNat 11 (c.fill.toNat + bs.length) }

/-- A full buffer is discarded, and counted (R216). -/
def crcDiscard (c : Crc) : Crc × Nat :=
  if c.fill.toNat = Config.crcAccCap then ({ c with fill := 0, pos := 0, st := .seek }, 1) else (c, 0)

/-- At most `n` passes of the loop of `Feed` (R216) over the input `bs`, with the counts so far of
accepted frames and discards. -/
def crcPasses : Nat → List Byte → Crc → Nat → Nat → Crc × Nat × Nat
  | 0, _, c, dec, dis => (c, dec, dis)
  | n + 1, bs, c, dec, dis =>
    let room := Config.crcAccCap - c.fill.toNat
    let (c1, k) := crcRun (crcAppend c (bs.take room))
    let (c2, x) := crcDiscard c1
    match bs.drop room with
    | [] => (c2, dec + k, dis + x)
    | b :: t => crcPasses n (b :: t) c2 (dec + k) (dis + x)

/-- `Feed(L)` on the input `bs` (R216): the state, the frames accepted, the discards. DEDUCED (log entry
11): each pass but the last appends a byte, or discards a full buffer so that the next one does. -/
def crcFeed (bs : List Byte) (c : Crc) : Crc × Nat × Nat := crcPasses (bs.length + 2) bs c 0 0

/-! ### Extraction -/

/-- The entry of `AGRICB_LAYOUT` with index `j` (30_encoding.md R100). -/
def layoutEntry (j : Nat) : Option FieldSpec :=
  match AgricbField.ofIndex j with
  | some f => some (Config.agricbNamed f)
  | none => cellsFind Config.agricbExtra j

/-- The raw bits of a field of the accepted frame (R220). -/
def fieldRaw (c : Crc) (f : FieldSpec) : DWord :=
  BitVec.ofNat 64 (leNat (bufRead c.res (Config.crcHdrLen + f.offset) f.width))

/-- The raw bits of a named field of the accepted frame (R220). -/
def namedRaw (c : Crc) (f : AgricbField) : DWord := fieldRaw c (Config.agricbNamed f)

/-- Row `j` of the table of R222. -/
def normValue (c : Crc) (j : Nat) : DWord :=
  match j with
  | 0 => Config.norm2 (namedRaw c .posStd0) (namedRaw c .posStd1)
  | 1 => Config.norm3 (namedRaw c .posStd0) (namedRaw c .posStd1) (namedRaw c .posStd2)
  | 2 => Config.norm2 (namedRaw c .velStdN) (namedRaw c .velStdE)
  | _ => Config.norm3 (namedRaw c .velStdN) (namedRaw c .velStdE) (namedRaw c .velStdU)

/-- A frame was accepted and it is an AGRICB frame: the NOSENT checks of R221 and R223. -/
def agricbHeld (c : Crc) : Bool :=
  decide (c.rlen ≠ 0 ∧
    (bufLE16 c.res Config.crcIdOff, bufLE16 c.res Config.crcLenOff) = Config.agricbPair)

/-! ### Commands -/

/-- CRC.FEED (R217). -/
def execCrcFeed (ua : Byte) (len : Half) (s : State) : Result :=
  if len.toNat > Config.inCap then .next (s.fail .badArg)
  else match inBytes s.mem 3 0 len.toNat with
    | .error i => .next (s.modelFault (.unwrittenInput (encode (.crcFeed ua len)) i))
    | .ok bs =>
      let (c, dec, dis) := crcFeed bs s.crc
      .next ((({ s with crc := c }).setRes01 (BitVec.ofNat 32 dec) (BitVec.ofNat 32 dis)).finish
        c.ready false)

/-- CRC.TAKE (R218). -/
def execCrcTake (s : State) : Result :=
  let r := s.crc.ready
  .next ((({ s with crc := { s.crc with ready := false } }).setRes0 (if r then 1 else 0)).finish r false)

/-- CRC.CRC32 (R219). -/
def execCrcCrc32 (ua : Byte) (len : Half) (s : State) : Result :=
  if len.toNat > Config.inCap then .next (s.fail .badArg)
  else match inBytes s.mem 3 0 len.toNat with
    | .error i => .next (s.modelFault (.unwrittenInput (encode (.crcCrc32 ua len)) i))
    | .ok bs => .next ((s.setRes0 (crc32 bs)).finish true false)

/-- CRC.FIELD (R221). -/
def execCrcField (j : Byte) (s : State) : Result :=
  match layoutEntry j.toNat with
  | none => .next (s.fail .badArg)
  | some f =>
    if ¬ agricbHeld s.crc then .next (s.fail .noSent)
    else .next ((s.setResPair (fieldRaw s.crc f)).finish true false)

/-- CRC.NORM (R223). -/
def execCrcNorm (j : Byte) (s : State) : Result :=
  if j.toNat > 3 then .next (s.fail .badArg)
  else if ¬ agricbHeld s.crc then .next (s.fail .noSent)
  else .next ((s.setResPair (normValue s.crc j.toNat)).finish true false)

end Sys2Proof.Machine
end

