-- ==== Sys2Proof/Machine/Nmea.lean ====
section
/-!
DEFINITION. The U0 commands (40_nmea_framer.md R121 to R130).
-/

namespace Sys2Proof.Machine

/-- NMEA.CFG (R121). -/
def execNmeaCfg (c : Byte) (s : State) : Result :=
  if c ≠ 0x24 ∧ c ≠ 0x21 then .next (s.fail .badArg)
  else .next (({ s with
    f0 := { s.f0 with start := c, st := .idle, valid := false, pos := 0, len := 0 } }).finish true false)

/-- `r <- FramerRun(F0, 0); RES0 <- F0.pos; finish(r, 0)`, from F0 = `F`, for the command word `w`
(R122, R123). -/
def feedU0 (w : Word) (F : Framer) (s : State) : Result :=
  match framerRun s.mem 0 F with
  | .error i => .next (s.modelFault (.unwrittenInput w i))
  | .ok (F', r) => .next ((({ s with f0 := F' }).setRes0 (F'.pos.setWidth 32)).finish r false)

/-- NMEA.FEEDN (R122). -/
def execNmeaFeedn (ua : Byte) (len : Half) (s : State) : Result :=
  if len.toNat > Config.inCap then .next (s.fail .badArg)
  else feedU0 (encode (.nmeaFeedn ua len)) (framerNewBuffer s.f0 len Config.nmeaResetOnNewBuffer) s

/-- NMEA.FEEDC (R123). -/
def execNmeaFeedc (ua : Byte) (ub : Half) (s : State) : Result :=
  feedU0 (encode (.nmeaFeedc ua ub)) s.f0 s

/-- NMEA.NFIELDS (R124). -/
def execNmeaNfields (s : State) : Result :=
  if ¬ s.f0.valid then .next (s.fail .noSent)
  else .next ((s.setRes0 (s.f0.nf.setWidth 32)).finish true false)

/-- NMEA.FIELD (R125). The length is stored as R7 says, its low 32 bits. -/
def execNmeaField (i : Byte) (s : State) : Result :=
  if ¬ s.f0.valid then .next (s.fail .noSent)
  else if i.toNat ≥ s.f0.nf.toNat then .next (s.fail .badArg)
  else
    let b := BitVec.ofNat 32 (fieldStart s.f0 i.toNat)
    let e := BitVec.ofNat 32 (fieldEnd s.f0 i.toNat)
    .next ((s.setRes01 b (e - b)).finish true false)

/-- NMEA.FINT (R127). -/
def execNmeaFint (i : Byte) (s : State) : Result :=
  if ¬ s.f0.valid then .next (s.fail .noSent)
  else if i.toNat ≥ s.f0.nf.toNat then .next (s.fail .badArg)
  else match parseInt (fieldBytes s.f0 i.toNat) with
    | none => .next (s.fail .badNum)
    | some v => .next ((s.setResPair (BitVec.ofInt 64 v)).finish true false)

/-- NMEA.FDEC (R129). -/
def execNmeaFdec (i : Byte) (s : State) : Result :=
  if ¬ s.f0.valid then .next (s.fail .noSent)
  else if i.toNat ≥ s.f0.nf.toNat then .next (s.fail .badArg)
  else match parseDec (fieldBytes s.f0 i.toNat) with
    | none => .next (s.fail .badNum)
    | some (m, q) =>
      .next (((s.setResPair (BitVec.ofInt 64 m)).setRes2 (BitVec.ofNat 32 q)).finish true false)

/-- NMEA.ISMSG (R130). -/
def execNmeaIsmsg (n : Byte) (len : Half) (s : State) : Result :=
  if len.toNat > 16 then .next (s.fail .badArg)
  else if ¬ s.f0.valid then .next (s.fail .noSent)
  else
    let hit := decide (s.f0.nf.toNat = n.toNat ∧ fieldBytes s.f0 0 = nameBytes s.args len.toNat)
    .next ((s.setRes0 (if hit then 1 else 0)).finish hit false)

end Sys2Proof.Machine
end

