-- ==== Sys2Proof/Machine/Sig.lean ====
section
/-!
DEFINITION. U2: signature and frame (30_encoding.md R96, R97), the rotate-XOR checksum and frame test
(42_sigcsum.md R180 to R183), and the U2 commands (R184 to R187).
-/

namespace Sys2Proof.Machine

/-- `Sig(k)` of a slot (30_encoding.md R96). -/
def sigOf (S : Slot) : List Byte :=
  [S.n0, S.n1, hexDigit (S.size.extractLsb' 8 4), hexDigit (S.size.extractLsb' 4 4),
    hexDigit (S.size.extractLsb' 0 4)]

/-- The accumulator over a string: each byte rotates it left by 2 and is XORed in (R180). -/
def rotXorAcc (acc : Byte) (s : List Byte) : Byte := s.foldl (fun a b => rotl2 a ^^^ b) acc

/-- `RotXor(k, p)` (R180). -/
def rotXor (S : Slot) (p : List Byte) : Byte := rotl2 (rotXorAcc Config.sigCsInit (sigOf S ++ p))

/-- `FL(k)`, the frame length of a slot (30_encoding.md R97). -/
def frameLen (S : Slot) : Nat := S.size.toNat + 6

/-- The string begins with a valid frame of the slot (R181): the whole frame lies inside it. DESIGN CHOICE (log
entry 19): the example of R185 has a frame of 9 bytes at offset 2 found with L = 10, which R181 excludes;
the pseudocode is followed. -/
def frameAtHead (S : Slot) (buf : List Byte) : Bool :=
  let p := (buf.drop 5).take S.size.toNat
  decide (frameLen S ≤ buf.length) && decide (buf.take 5 = sigOf S) &&
    decide (buf[5 + S.size.toNat]? = some (rotXor S p))

/-- The offset of the first valid frame in a string whose first byte has offset `i` (R185). -/
def firstFrame (S : Slot) : Nat → List Byte → Option Nat
  | _, [] => none
  | i, b :: t => if frameAtHead S (b :: t) then some i else firstFrame S (i + 1) t

/-- The offset of the last valid frame in a string whose first byte has offset `i` (R186). -/
def lastFrame (S : Slot) : Nat → List Byte → Option Nat
  | _, [] => none
  | i, b :: t =>
    match lastFrame S (i + 1) t with
    | some j => some j
    | none => if frameAtHead S (b :: t) then some i else none

/-- `Accept(k, i)` with the payload `p` of the frame (R183). -/
def sigAccept (S : Slot) (p : List Byte) : Slot :=
  { S with record := bufWrite S.record 0 p, present := true }

/-- How a scan of slot `k` ends on the string `buf`, whose first byte has offset `base`: at the frame
found, or with nothing found (R185, R186). -/
def scanResult (k base : Nat) (buf : List Byte) (found : Option Nat) (s : State) : State :=
  match found with
  | none => (s.setRes01 0xFFFFFFFF 0xFFFFFFFF).finish false false
  | some i =>
    let S := slotGet s.slots k
    let p := (buf.drop (i - base + 5)).take S.size.toNat
    (({ s with slots := slotSet s.slots k (sigAccept S p) }).setRes01
      (BitVec.ofNat 32 (i + frameLen S)) (BitVec.ofNat 32 i)).finish true false

/-- SIG.REG (R184). -/
def execSigReg (k : Byte) (size : Half) (s : State) : Result :=
  if k.toNat ≥ Config.sigSlots ∨ size.toNat > Config.sigMaxSize then .next (s.fail .badArg)
  else
    let S : Slot := { reg := true, n0 := sigName0 s.args, n1 := sigName1 s.args,
                      size := size.setWidth 12, present := false, record := [] }
    .next (({ s with slots := slotSet s.slots k.toNat S }).finish true false)

/-- SIG.SCAN (R185). The unwritten byte recorded is the first one of the range (log entry 4). R185's example
needs L = 11 here, not the 10 it writes (log entry 19). -/
def execSigScan (k : Byte) (len : Half) (s : State) : Result :=
  if k.toNat ≥ Config.sigSlots ∨ len.toNat > Config.inCap then .next (s.fail .badArg)
  else if ¬ (slotGet s.slots k.toNat).reg then .next (s.fail .badArg)
  else
    let start := sigStart s.args
    match inBytes s.mem 2 start (len.toNat - start) with
    | .error i => .next (s.modelFault (.unwrittenInput (encode (.sigScan k len)) i))
    | .ok buf => .next (scanResult k.toNat start buf (firstFrame (slotGet s.slots k.toNat) start buf) s)

/-- SIG.LATEST (R186). -/
def execSigLatest (k : Byte) (len : Half) (s : State) : Result :=
  if k.toNat ≥ Config.sigSlots ∨ len.toNat > Config.inCap then .next (s.fail .badArg)
  else if ¬ (slotGet s.slots k.toNat).reg then .next (s.fail .badArg)
  else match inBytes s.mem 2 0 len.toNat with
    | .error i => .next (s.modelFault (.unwrittenInput (encode (.sigLatest k len)) i))
    | .ok buf => .next (scanResult k.toNat 0 buf (lastFrame (slotGet s.slots k.toNat) 0 buf) s)

/-- SIG.CLR (R187). -/
def execSigClr (k : Byte) (s : State) : Result :=
  if k.toNat ≥ Config.sigSlots then .next (s.fail .badArg)
  else
    let S := slotGet s.slots k.toNat
    let S' := { S with present := false }
    .next ((({ s with slots := slotSet s.slots k.toNat S' }).setRes0
      (if S.present then 1 else 0)).finish true false)

end Sys2Proof.Machine
end

