-- ==== Sys2Proof/Machine/Dispatch.lean ====
section
/-!
DEFINITION. The dispatch: one arm for each command, in the order of spec/opcode_table.json.
-/

namespace Sys2Proof.Machine

def exec (i : Instr) (s : State) : Host.Outcome State Fault Refusal :=
  match i with
  | .nmeaCfg c _ => Sys2Proof.Machine.execNmeaCfg c s
  | .nmeaFeedn ua len => Sys2Proof.Machine.execNmeaFeedn ua len s
  | .nmeaFeedc ua ub => Sys2Proof.Machine.execNmeaFeedc ua ub s
  | .nmeaNfields _ _ => Sys2Proof.Machine.execNmeaNfields s
  | .nmeaField j _ => Sys2Proof.Machine.execNmeaField j s
  | .nmeaFint j _ => Sys2Proof.Machine.execNmeaFint j s
  | .nmeaFdec j _ => Sys2Proof.Machine.execNmeaFdec j s
  | .nmeaIsmsg n len => Sys2Proof.Machine.execNmeaIsmsg n len s
  | .aisFeedn ua len => Sys2Proof.Machine.execAisFeedn ua len s
  | .aisFeedc ua ub => Sys2Proof.Machine.execAisFeedc ua ub s
  | .aisMsglen _ _ => Sys2Proof.Machine.execAisMsglen s
  | .aisBits sgn len start => Sys2Proof.Machine.execAisBits sgn len start s
  | .aisType _ _ => Sys2Proof.Machine.execAisType s
  | .aisMmsi _ _ => Sys2Proof.Machine.execAisMmsi s
  | .aisPos _ _ => Sys2Proof.Machine.execAisPos s
  | .sigReg k size => Sys2Proof.Machine.execSigReg k size s
  | .sigScan k len => Sys2Proof.Machine.execSigScan k len s
  | .sigLatest k len => Sys2Proof.Machine.execSigLatest k len s
  | .sigClr k _ => Sys2Proof.Machine.execSigClr k s
  | .crcFeed ua len => Sys2Proof.Machine.execCrcFeed ua len s
  | .crcTake _ _ => Sys2Proof.Machine.execCrcTake s
  | .crcCrc32 ua len => Sys2Proof.Machine.execCrcCrc32 ua len s
  | .crcField j _ => Sys2Proof.Machine.execCrcField j s
  | .crcNorm j _ => Sys2Proof.Machine.execCrcNorm j s
  | .blkReset _ _ => Sys2Proof.Machine.execBlkReset s

end Sys2Proof.Machine
end

