-- ==== Sys2Proof/Machine/Cycle.lean ====
section
/-!
DEFINITION. The command cycle (44_block.md R241) and a whole host access (20_memory.md R63 to R66, R70).
-/

namespace Sys2Proof.Machine

/-- `Cycle(w)` (44_block.md R241): a word that is no command ends in fail(ILLEGAL) (30_encoding.md R84). -/
def cycle (w : Word) (s : State) : Result :=
  match decode w with
  | .error _ => .next (s.fail .illegal)
  | .ok i => exec i s

/-- One host access. A width or alignment R63 does not allow is the model fault BAD_ACCESS; a write to
CMD issues a command (10_state.md R24); a read changes nothing of the block (20_memory.md R66), and
what it returned stands in `rdata`. -/
def hostAccess (x : HostAccess) (s : State) : Result :=
  match x with
  | .read a size =>
    if ¬ accessOk a.toNat size then .next (s.modelFault (.badAccess a))
    else .next { s with rdata := busRead s a.toNat size }
  | .write a size v =>
    if ¬ accessOk a.toNat size then .next (s.modelFault (.badAccess a))
    else if a.toNat = 0 then cycle v s
    else .next (busStore s a.toNat size v)

end Sys2Proof.Machine
end

