-- ==== Sys2Proof/Machine/Step.lean ====
section
/-!
DEFINITION. One step of the machine: the host's next access takes effect (20_memory.md R70); with none to
come the block waits (70_reset_and_hazards.md R272).
-/

namespace Sys2Proof.Machine

/-- One step. -/
def step (s : State) : Host.Outcome State Fault Refusal :=
  match s.port with
  | [] => .next s
  | x :: rest => hostAccess x { s with port := rest }

/-- `s` with a write of the word to CMD as the host's next access (log entry 1): the block fetches
nothing, a command takes effect when it is written to CMD (20_memory.md R72). -/
def State.withFetchWord (s : State) (nbits w : Nat) : State :=
  { s with port := .write 0 4 (BitVec.ofNat 32 (w % 2 ^ nbits)) :: s.port }

end Sys2Proof.Machine
end

