-- ==== Sys2Proof/Machine/Pseudo.lean ====
section
/-!
DEFINITION. The pseudo-instructions of 30_encoding.md R86 as the host accesses they expand to, and the two
host loops FEED.ALL.NMEA and FEED.ALL.AIS, the second with the list of messages of 41_ais.md R154. They
are procedures of the host, not of the block.
-/

namespace Sys2Proof.Machine

/-- `WR CMD, w` (30_encoding.md R85). -/
def issue (i : Instr) : HostAccess := .write 0 4 (encode i)

/-- `WR ARG<r>, v` (30_encoding.md R85). -/
def writeArg (r : Nat) (v : Word) : HostAccess := .write (BitVec.ofNat 20 (4 + 4 * r)) 4 v

/-- `LE32` of name bytes `4r..4r+3`, missing bytes 0 (R86). -/
def nameWord (name : List Byte) (r : Nat) : Word :=
  BitVec.ofNat 32 (leNat ((List.range 4).map (fun j => name.getD (4 * r + j) 0)))

/-- `NMEA.ISMSG "<name>", <n>` (R86). -/
def pseudoIsmsg (name : List Byte) (n : Byte) : List HostAccess :=
  (List.range ((name.length + 3) / 4)).map (fun r => writeArg r (nameWord name r)) ++
    [issue (.nmeaIsmsg n (BitVec.ofNat 16 name.length))]

/-- `SIG.REG <k>, "<c0c1>", <size>` (R86). -/
def pseudoSigReg (k c0 c1 : Byte) (size : Half) : List HostAccess :=
  [writeArg 0 (c0.setWidth 32 ||| c1.setWidth 32 <<< 8), issue (.sigReg k size)]

/-- `SIG.SCAN <k>, <len>, <start>` (R86). -/
def pseudoSigScan (k : Byte) (len : Half) (start : Word) : List HostAccess :=
  [writeArg 0 start, issue (.sigScan k len)]

/-- The loop of R86: `i` is issued again while STATUS.RES = 1 after the previous command, at most `n`
times; the states after the commands that ended with STATUS.RES = 1, in order. -/
def whileRes (i : Instr) : Nat → Result → List State
  | 0, _ => []
  | n + 1, .next s => if s.status.res then s :: whileRes i n (exec i s) else []
  | _ + 1, _ => []

/-- `FEED.ALL.NMEA <len>` (R86): the states in which the buffer's sentences are queryable, in order. The
loop ends before its bound: every sentence takes a byte of the buffer. -/
def feedAllNmea (len : Half) (s : State) : List State :=
  whileRes (.nmeaFeedc 0 0) (Config.inCap + 1) (exec (.nmeaFeedn 0 len) s)

/-- The current AIS message (41_ais.md R149). -/
def aisMessage (A : Ais) : List Byte := bufRead A.msg 0 A.msglen.toNat

/-- `FEED.ALL.AIS <len>` (R86): the messages of the buffer, in order (41_ais.md R154). -/
def feedAllAis (len : Half) (s : State) : List (List Byte) :=
  (whileRes (.aisFeedc 0 0) (Config.inCap + 1) (exec (.aisFeedn 0 len) s)).map
    (fun t => aisMessage t.ais)

end Sys2Proof.Machine
end

