-- ==== Sys2Proof/Safety.lean ====
section
/-!
DEFINITION. What claims are stated in: a final state (60_exceptions.md R261), the legal values of the state
(10_state.md R30, R31, R36, R40, R45), U3 at rest (43_crc32_framer.md R225), the meaning of the AIS raw
values (41_ais.md R161) and the law of the OPEN norms (43_crc32_framer.md R222).
-/

namespace Sys2Proof.Machine

/-- A state whose fault mark is clear; with the mark set a state is never final (60_exceptions.md R261),
and a claim about a run speaks only of final states. -/
abbrev State.Final (s : State) : Prop := s.faultMark = none

/-- The legal values of a framer instance (10_state.md R30), its buffers in canonical form. -/
structure Framer.Legal (F : Framer) : Prop where
  nf_le : F.nf.toNat ≤ 32
  nc_le : F.nc.toNat ≤ 512
  pos_le : F.pos.toNat ≤ F.len.toNat
  len_le : F.len.toNat ≤ 4096
  chars_wf : Buf.wf 512 F.chars
  fstart_wf : Buf.wf 32 F.fstart
  fstart_le : ∀ i, (bufGet F.fstart i).toNat ≤ 512
  /-- A sentence being read or queryable has a field 0 (40_nmea_framer.md R112, R124). -/
  nf_pos : F.st ≠ .idle ∨ F.valid = true → 1 ≤ F.nf.toNat

/-- The field table runs forward and stays inside the stored characters, so that every field of 10_state.md
R31 is a slice of them. -/
structure Framer.TableRuns (F : Framer) : Prop where
  first : bufGet F.fstart 0 = 0 ∨ F.nf = 0
  rises : ∀ i, i + 1 < F.nf.toNat → (bufGet F.fstart i).toNat ≤ (bufGet F.fstart (i + 1)).toNat
  last : ∀ i, i + 1 = F.nf.toNat → (bufGet F.fstart i).toNat ≤ F.nc.toNat

/-- The legal values of the AIS state (10_state.md R36). -/
structure Ais.Legal (A : Ais) : Prop where
  acclen_le : A.acclen.toNat ≤ 4096
  seqlen_le : A.seqlen.toNat ≤ 512
  msglen_le : A.msglen.toNat ≤ 4096
  acc_wf : Buf.wf 4096 A.acc
  seq_wf : Buf.wf 512 A.seq
  msg_wf : Buf.wf 4096 A.msg

/-- The legal values of a slot (10_state.md R40); its record holds nothing from its payload size on
(42_sigcsum.md R183). -/
structure Slot.Legal (S : Slot) : Prop where
  record_wf : Buf.wf S.size.toNat S.record

/-- The legal values of U3 (10_state.md R45); in VER the latched header is whitelisted
(43_crc32_framer.md R213). -/
structure Crc.Legal (c : Crc) : Prop where
  fill_le : c.fill.toNat ≤ 1024
  pos_le : c.pos.toNat ≤ c.fill.toNat
  rlen_le : c.rlen.toNat ≤ 1024
  acc_wf : Buf.wf 1024 c.acc
  res_wf : Buf.wf 1024 c.res
  ver_whitelisted : c.st = .ver → (c.mid, c.plen) ∈ Config.crcWhitelist

/-- U3 at a point where `Run` returns at once, its buffer not full (43_crc32_framer.md R225). -/
structure Crc.AtRest (c : Crc) : Prop where
  waits : crcStep c = none
  room : c.fill.toNat < 1024

/-- Every element of the state has a legal value, and the input windows their canonical form. -/
structure State.Legal (s : State) : Prop where
  f0 : s.f0.Legal
  f1 : s.f1.Legal
  f0_start : s.f0.start = 0x24 ∨ s.f0.start = 0x21
  f1_start : s.f1.start = 0x21
  ais : s.ais.Legal
  slots : ∀ k, (slotGet s.slots k).Legal
  crc : s.crc.Legal
  mem : Memory.wf s.mem

/-! ### The meaning of raw values (41_ais.md R161) -/

/-- Speed over ground in metres a second. -/
def sogMetresPerSecond (r : Int) : ℚ := r * (514444 / 10000000)

/-- Longitude or latitude in degrees. -/
def positionDegrees (r : Int) : ℚ := r / 600000

/-- Course over ground in degrees. -/
def cogDegrees (r : Int) : ℚ := r * (1 / 10)

/-- True heading in degrees. -/
def headingDegrees (r : Int) : ℚ := r

/-! ### The law of the norms (43_crc32_framer.md R222) -/

/-- The law NORM2 and NORM3 must meet: `value` is the number the layout's type gives a raw word, `round`
the rounding of that type. The model assumes it nowhere; a claim that needs it takes it as a premise. -/
structure NormLaw (value : DWord → ℝ) (round : ℝ → ℝ) : Prop where
  norm2 : ∀ a b, value (Config.norm2 a b) = round (Real.sqrt (value a ^ 2 + value b ^ 2))
  norm3 : ∀ a b c,
    value (Config.norm3 a b c) = round (Real.sqrt (value a ^ 2 + value b ^ 2 + value c ^ 2))

end Sys2Proof.Machine
end

