-- ==== Sys2Proof/Certificates/Slice0/Obligations.lean ====
section
/-!
DEFINITION. The statements for the provers. The words they are stated in that are not the model's own stand
first, in Sys2Proof.Claims: they say what the spec's rules say without calling the operations the
commands call, wherever that can be done.
-/

namespace Sys2Proof.Claims

open Sys2Proof.Machine

/-- The (UNIT, OP) pairs 30_encoding.md R84 lists as illegal. -/
def IllegalPair (unit op : Nat) : Prop :=
  (unit = 0 ∧ 8 ≤ op) ∨ (unit = 1 ∧ (op = 0 ∨ 8 ≤ op)) ∨ (unit = 2 ∧ 4 ≤ op) ∨
    (unit = 3 ∧ (op = 0 ∨ 6 ≤ op)) ∨ (4 ≤ unit ∧ unit ≤ 14) ∨ (unit = 15 ∧ 1 ≤ op)

/-- The command with every bit that R81 ignores at 0, the form R85 writes. -/
def canonical : Instr → Instr
  | .nmeaCfg c _ => .nmeaCfg c 0
  | .nmeaFeedn _ len => .nmeaFeedn 0 len
  | .nmeaFeedc _ _ => .nmeaFeedc 0 0
  | .nmeaNfields _ _ => .nmeaNfields 0 0
  | .nmeaField i _ => .nmeaField i 0
  | .nmeaFint i _ => .nmeaFint i 0
  | .nmeaFdec i _ => .nmeaFdec i 0
  | .nmeaIsmsg n len => .nmeaIsmsg n len
  | .aisFeedn _ len => .aisFeedn 0 len
  | .aisFeedc _ _ => .aisFeedc 0 0
  | .aisMsglen _ _ => .aisMsglen 0 0
  | .aisBits sgn len start => .aisBits sgn len start
  | .aisType _ _ => .aisType 0 0
  | .aisMmsi _ _ => .aisMmsi 0 0
  | .aisPos _ _ => .aisPos 0 0
  | .sigReg k size => .sigReg k size
  | .sigScan k len => .sigScan k len
  | .sigLatest k len => .sigLatest k len
  | .sigClr k _ => .sigClr k 0
  | .crcFeed _ len => .crcFeed 0 len
  | .crcTake _ _ => .crcTake 0 0
  | .crcCrc32 _ len => .crcCrc32 0 len
  | .crcField j _ => .crcField j 0
  | .crcNorm j _ => .crcNorm j 0
  | .blkReset _ _ => .blkReset 0 0

/-- The word of the command lies in the row of the opcode map with match value `m` (30_encoding.md R83). -/
def OpcodeIs (i : Instr) (m : Word) : Prop := encode i &&& 0xFF000000 = m

/-- Byte `j` of ARG0 to ARG3, packed little-endian (30_encoding.md R81). -/
def argByte (x : Args) (j : Nat) : Byte := (x.a3 ++ x.a2 ++ x.a1 ++ x.a0 : BitVec 128).extractLsb' (8 * j) 8

/-- Two argument sets that hold the same ARG bits of those the command's rule names (30_encoding.md R81). -/
def SameNamedArgs (i : Instr) (x y : Args) : Prop :=
  match i with
  | .nmeaIsmsg _ len => ∀ j, j < len.toNat → argByte x j = argByte y j
  | .sigReg _ _ => argByte x 0 = argByte y 0 ∧ argByte x 1 = argByte y 1
  | .sigScan _ _ => x.a0 = y.a0
  | _ => True

/-- The UNIT of a command: 0 to 3, or 15 for BLK. -/
def unit (i : Instr) : Nat := (selector i).toNat / 16

/-- Bytes `lo` to `hi - 1` of window `IN_u` are all written. -/
def Written (m : Memory) (u lo hi : Nat) : Prop := ∀ j, lo ≤ j → j < hi → inByte m u j ≠ none

/-- Byte `k` is the first unwritten byte of window `IN_u` from `lo` on, and lies below `hi`. -/
def FirstUnwritten (m : Memory) (u lo hi k : Nat) : Prop :=
  lo ≤ k ∧ k < hi ∧ inByte m u k = none ∧ Written m u lo k

/-- Window `IN_u` holds the string `bs` from index `i` on. -/
def Holds (m : Memory) (u i : Nat) (bs : List Byte) : Prop :=
  ∀ j, j < bs.length → inByte m u (i + j) = bs[j]?

/-- The XOR of the bytes of a string. -/
def xorOf (bs : List Byte) : Byte := bs.foldl (· ^^^ ·) 0

/-- The uppercase hex digit of `n < 16` (00_scope.md R5, `HEX`). -/
def hexChar (n : Nat) : Byte := BitVec.ofNat 8 (if n < 10 then 0x30 + n else 0x37 + n)

/-- A byte a field may hold (30_encoding.md R90). -/
def FieldChar (start b : Byte) : Prop :=
  0x20 ≤ b.toNat ∧ b.toNat ≤ 0x7E ∧ b ≠ 0x2C ∧ b ≠ 0x2A ∧ b ≠ start

/-- The fields of a valid sentence (30_encoding.md R90). -/
structure ValidFields (start : Byte) (fs : List (List Byte)) : Prop where
  start_ok : start = 0x24 ∨ start = 0x21
  some_field : 1 ≤ fs.length
  fields_le : fs.length ≤ 32
  chars_le : (fs.map List.length).sum ≤ 512
  chars_ok : ∀ f ∈ fs, ∀ b ∈ f, FieldChar start b

/-- The body of a sentence: its fields with commas between (30_encoding.md R90). -/
def body (fs : List (List Byte)) : List Byte := List.intercalate [0x2C] fs

/-- A sentence on the wire with checksum characters `h1` and `h0` (30_encoding.md R90). -/
def wire (start : Byte) (fs : List (List Byte)) (h1 h0 : Byte) : List Byte :=
  [start] ++ body fs ++ [0x2A, h1, h0]

/-- The checksum characters of a body (30_encoding.md R91). -/
def check1 (bs : List Byte) : Byte := hexChar ((xorOf bs).toNat / 16)

/-- The second checksum character of a body (30_encoding.md R91). -/
def check0 (bs : List Byte) : Byte := hexChar ((xorOf bs).toNat % 16)

/-- A valid sentence on the wire (30_encoding.md R90, R91). -/
def sentence (start : Byte) (fs : List (List Byte)) : List Byte :=
  wire start fs (check1 (body fs)) (check0 (body fs))

/-- The queryable sentence of a framer has exactly the fields `fs` (10_state.md R31). -/
def HasFields (F : Framer) (fs : List (List Byte)) : Prop :=
  F.nf.toNat = fs.length ∧ ∀ i, i < fs.length → some (fieldBytes F i) = fs[i]?

/-- What the framer has read of a sentence begun and not yet ended: nothing in IDLE; else the start
character, its fields so far, and in CK1 and CK2 the '*' and the first digit (40_nmea_framer.md R112 to
R117). -/
def Carried (F : Framer) (w : List Byte) : Prop :=
  (F.st = .idle ∧ w = []) ∨
  ∃ fs, ValidFields F.start fs ∧ HasFields F fs ∧ F.nc.toNat = (fs.map List.length).sum ∧
    F.cs = xorOf (body fs) ∧
    ((F.st = .body ∧ w = [F.start] ++ body fs) ∨ (F.st = .ck1 ∧ w = [F.start] ++ body fs ++ [0x2A]) ∨
      (F.st = .ck2 ∧ w = [F.start] ++ body fs ++ [0x2A, check1 (body fs)]))

/-- Checksum digits of the body `bs` up to and with the first one that mismatches, which is no start
character (40_nmea_framer.md R117, R118). -/
def MismatchedDigits (start : Byte) (bs ds : List Byte) : Prop :=
  (∃ d, ds = [d] ∧ d ≠ check1 bs ∧ d ≠ start) ∨
    (∃ d, ds = [check1 bs, d] ∧ d ≠ check0 bs ∧ d ≠ start)

/-- The command feeds U1 the bytes `a` to `e - 1` of IN1: AIS.FEEDN a new buffer from its first byte on,
AIS.FEEDC the rest of the current one, from `F1.pos` on (41_ais.md R151, R152). -/
def FeedsU1 (i : Instr) (s : State) (a e : Nat) : Prop :=
  (∃ ua len, i = .aisFeedn ua len ∧ a = 0 ∧ e = len.toNat ∧ e ≤ 4096) ∨
    (∃ ua ub, i = .aisFeedc ua ub ∧ a = s.f1.pos.toNat ∧ e = s.f1.len.toNat)

/-- The fields are those of an AIVDM sentence of 7 fields (41_ais.md R141). -/
def IsAivdm (fs : List (List Byte)) : Prop :=
  fs.length = 7 ∧ fs[0]? = some [0x41, 0x49, 0x56, 0x44, 0x4D]

/-- A valid '!' sentence that is no AIVDM sentence of 7 fields, and bytes after it with no start character:
what U1 passes over (41_ais.md R141). -/
def PassedOver (bs : List Byte) : Prop :=
  ∃ gs gap, ValidFields 0x21 gs ∧ ¬ IsAivdm gs ∧ 0x21 ∉ gap ∧ bs = sentence 0x21 gs ++ gap

/-- U1 has the first fragment of a sequence: payload `p`, sequence id `q` (41_ais.md R142, R143). -/
def FirstHeld (A : Ais) (q p : List Byte) : Prop :=
  A.inprog = true ∧ A.expect = 2 ∧ bufRead A.seq 0 A.seqlen.toNat = q ∧ bufRead A.acc 0 A.acclen.toNat = p

/-- The decimal value of a string of digits. -/
def decimal : List Byte → Nat
  | [] => 0
  | d :: t => (d.toNat - 0x30) * 10 ^ t.length + decimal t

/-- A string of decimal digits. -/
def Digits (ds : List Byte) : Prop := ∀ d ∈ ds, 0x30 ≤ d.toNat ∧ d.toNat ≤ 0x39

/-- An optional sign, and whether it is '-' (40_nmea_framer.md R126). -/
def SignOf (sg : List Byte) (neg : Bool) : Prop :=
  (sg = [] ∧ neg = false) ∨ (sg = [0x2B] ∧ neg = false) ∨ (sg = [0x2D] ∧ neg = true)

/-- The six-bit value of a character as a number (30_encoding.md R93). -/
def sixValue (c : Byte) : Nat := if c.toNat > 88 then (c.toNat - 56) % 64 else (c.toNat + 16) % 64

/-- Bit `b` of the current AIS message (30_encoding.md R94). -/
def messageBit (A : Ais) (b : Nat) : Bool :=
  decide (sixValue (bufGet A.msg (b / 6)) / 2 ^ (5 - b % 6) % 2 = 1)

/-- The signature of a slot (30_encoding.md R96). -/
def signature (S : Slot) : List Byte :=
  [S.n0, S.n1, hexChar (S.size.toNat / 256), hexChar (S.size.toNat / 16 % 16), hexChar (S.size.toNat % 16)]

/-- `RotXor` as the closed form of 42_sigcsum.md R190. -/
def rotXorClosed (s : List Byte) : Byte :=
  (List.range s.length).foldl
    (fun a j => a ^^^ (s.getD j 0).rotateLeft ((2 * (s.length - j)) % 8)) 0

/-- A valid frame of slot `S` with payload `p` stands at offset `i` of `IN_2[0..L)` (42_sigcsum.md R181). -/
def FrameAt (m : Memory) (S : Slot) (L i : Nat) (p : List Byte) : Prop :=
  i + S.size.toNat + 6 ≤ L ∧ p.length = S.size.toNat ∧ Holds m 2 i (signature S) ∧
    Holds m 2 (i + 5) p ∧ inByte m 2 (i + 5 + S.size.toNat) = some (rotXorClosed (signature S ++ p))

/-- Slot `S'` is `S` after accepting the payload `p` (42_sigcsum.md R183). -/
def Accepted (S S' : Slot) (p : List Byte) : Prop :=
  S' = { S with present := true, record := S'.record } ∧ bufRead S'.record 0 p.length = p ∧
    ∀ j, p.length ≤ j → bufGet S'.record j = bufGet S.record j

/-- The slots after a command that accepted a frame of payload `p` into slot `k` and left the others. -/
def SlotsAccepted (v v' : Vector Slot 8) (k : Nat) (p : List Byte) : Prop :=
  Accepted (slotGet v k) (slotGet v' k) p ∧ ∀ j, j ≠ k → slotGet v' j = slotGet v j

/-- The CRC register as a bit-serial shift register: one input bit, least significant first. -/
def lfsr (c : Word) (bit : Bool) : Word :=
  if (c.getLsbD 0 ^^ bit) then (c >>> 1) ^^^ 0xEDB88320 else c >>> 1

/-- The bits of a string, each byte least significant bit first. -/
def bitsOf (bs : List Byte) : List Bool :=
  bs.flatMap (fun b => (List.range 8).map (fun i => b.getLsbD i))

/-- U3 with nothing accumulated, seeking a preamble. -/
def CrcEmpty (c : Crc) : Prop := c.st = .seek ∧ c.fill = 0 ∧ c.pos = 0

/-- U3's mailbox and result record are the same. -/
def SameResult (c c' : Crc) : Prop := c'.ready = c.ready ∧ c'.res = c.res ∧ c'.rlen = c.rlen

/-- A 256-byte AGRICB frame with its own CRC32 (30_encoding.md R98, R99). -/
def AgricbFrame (f : List Byte) : Prop :=
  f.length = 256 ∧ f.take 7 = [0xAA, 0x44, 0xB5, 0x0C, 0x2C, 0xE4, 0x00] ∧
    f.drop 252 = (List.range 4).map
      (fun j => BitVec.ofNat 8 (((bitsOf (f.take 252)).foldl lfsr 0).toNat / 256 ^ j))

/-- The accepted frame is an AGRICB frame: its id and length are 11276 and 228, little-endian. -/
def AgricbHeld (c : Crc) : Prop := c.rlen ≠ 0 ∧ bufRead c.res 3 4 = [0x0C, 0x2C, 0xE4, 0x00]

/-- The little-endian number in `w` bytes of a buffer from index `i` on. -/
def littleEndian (b : Buf 8) (i : Nat) : Nat → Nat
  | 0 => 0
  | w + 1 => (bufGet b i).toNat + 256 * littleEndian b (i + 1) w

/-- Two states of U3 that hold the same accumulated bytes and are otherwise equal. -/
def SameStream (c c' : Crc) : Prop :=
  { c with acc := [] } = { c' with acc := [] } ∧
    bufRead c.acc 0 c.fill.toNat = bufRead c'.acc 0 c'.fill.toNat

/-- One command, then another. -/
def andThen (i j : Instr) (s : State) : Host.Outcome State Fault Refusal :=
  match exec i s with
  | .next t => exec j t
  | .fault r => .fault r
  | .refused r => .refused r

end Sys2Proof.Claims

open Sys2Proof Sys2Proof.Machine Sys2Proof.Claims

/-! ### Encoding -/

/-- 30_encoding.md R80, R81, R83: decoding an encoded command gives it back, at every value of every operand
bit. -/
def Obligations.DecodeOfEncode : Prop := ∀ i : Instr, decode (encode i) = .ok i

/-- 30_encoding.md R80, R82: encoding what a word decodes to gives the word back. That no two words decode to
one command is the model's choice (log entry 12: Instr holds the operand bits a rule does not name); by
R81 words that differ in those bits only are the same command to the block, which
IgnoredBitsChangeNothing says. -/
def Obligations.EncodeOfDecode : Prop := ∀ (w : Word) (i : Instr), decode w = .ok i → encode i = w

/-- 30_encoding.md R84: exactly the listed pairs are illegal, and such a word ends in fail(ILLEGAL) and
changes nothing else. -/
def Obligations.IllegalPairsFail : Prop :=
  ∀ (w : Word) (s : State),
    (IllegalPair (w.toNat / 2 ^ 28) (w.toNat / 2 ^ 24 % 16) →
      cycle w s = .next { s with status := ⟨.illegal, false, false⟩ }) ∧
    (¬ IllegalPair (w.toNat / 2 ^ 28) (w.toNat / 2 ^ 24 % 16) →
      ∃ i, decode w = .ok i ∧ cycle w s = exec i s)

/-- 95_test_vectors.md 2.1 and the words of 3.1 to 3.5: words written out from 30_encoding.md R83 and R85
decode to the commands they stand for. -/
def Obligations.SpecWordsDecode : Prop :=
  decode 0x00240000 = .ok (.nmeaCfg 0x24 0) ∧
  decode 0x0212FFFF = .ok (.nmeaFeedc 0x12 0xFFFF) ∧
  decode 0x07070005 = .ok (.nmeaIsmsg 7 5) ∧
  decode 0x149C003D = .ok (.aisBits true 28 61) ∧
  decode 0x140400A5 = .ok (.aisBits false 4 165) ∧
  decode 0x2100001C = .ok (.sigScan 0 28) ∧
  decode 0x3100009C = .ok (.crcFeed 0 156) ∧
  decode 0xF0000000 = .ok (.blkReset 0 0) ∧
  decode 0xE5123456 = .error (.illegal 14 5)

/-- 30_encoding.md R81: the bits of its word that a command's rule does not name change nothing, but for the
word a model fault records; nor do the ARG bits its rule does not name. -/
def Obligations.IgnoredBitsChangeNothing : Prop :=
  ∀ (i : Instr) (s : State),
    (exec i s = exec (canonical i) s ∨
      ∃ k, exec i s = .next { s with faultMark := some (.unwrittenInput (encode i) k) } ∧
        exec (canonical i) s =
          .next { s with faultMark := some (.unwrittenInput (encode (canonical i)) k) }) ∧
    (∀ (x : Args) (t : State), SameNamedArgs i s.args x → exec i s = .next t →
      ∃ t', exec i { s with args := x } = .next t' ∧ t' = { t with args := t'.args })

/-! ### The step -/

/-- 10_state.md R24, 44_block.md R241: a write of a word to CMD runs its command; the host's access is used
up. With no access to come the block waits (70_reset_and_hazards.md R272; that the waiting accesses are
a list in the state is the model's choice, log entry 1). -/
def Obligations.StepRunsDecodedCommand : Prop :=
  ∀ (s : State),
    (∀ (w : Word) (i : Instr) (rest : List HostAccess), s.port = .write 0 4 w :: rest →
      decode w = .ok i → step s = exec i { s with port := rest }) ∧
    (s.port = [] → step s = .next s)

/-- 60_exceptions.md R250, R255: no exception and no trap. That every step and every command, one that
records a model fault included, answers a next state is the model's choice (log entry 17). -/
def Obligations.EveryStepAnswers : Prop :=
  (∀ s : State, ∃ t, step s = .next t) ∧ (∀ (i : Instr) (s : State), ∃ t, exec i s = .next t)

/-- 20_memory.md R63: a width or alignment that is not allowed is BAD_ACCESS and has no other effect; an
allowed read is none, and changes nothing but what the host has read (R66). That a later fault records
itself over an earlier one, and the field holding what was read, are the model's choices (log entries 3
and 2). -/
def Obligations.BadAccessIsAModelFault : Prop :=
  ∀ (s : State) (a : BitVec 20) (size : Nat) (v : Word),
    let allowed := (a.toNat < 0x1000 ∧ size = 4 ∧ a.toNat % 4 = 0) ∨
      (0x1000 ≤ a.toNat ∧ (size = 1 ∨ size = 2 ∨ size = 4) ∧ a.toNat % size = 0)
    (¬ allowed → hostAccess (.read a size) s = .next { s with faultMark := some (.badAccess a) } ∧
      hostAccess (.write a size v) s = .next { s with faultMark := some (.badAccess a) }) ∧
    (allowed → hostAccess (.read a size) s = .next { s with rdata := busRead s a.toNat size }) ∧
    (allowed → a.toNat ≠ 0 → ∃ t, hostAccess (.write a size v) s = .next t ∧ t.faultMark = s.faultMark)

/-- 20_memory.md R65, R66: a write to an input window stores its bytes and sets their marks, so that the host
reads each of them back, and leaves every other byte of the address space; a write to ARG0..ARG3 stores its value; a write to CMD issues it. -/
def Obligations.HostWritesStore : Prop :=
  ∀ (s : State) (a : BitVec 20) (size : Nat) (v : Word),
    (0x1000 ≤ a.toNat → a.toNat < 0x5000 → (size = 1 ∨ size = 2 ∨ size = 4) → a.toNat % size = 0 →
      ∃ m, hostAccess (.write a size v) s = .next { s with mem := m } ∧
        (∀ j, j < size → memGet m (a.toNat + j) = some (BitVec.ofNat 8 (v.toNat / 256 ^ j)) ∧
          windowByte { s with mem := m } (a.toNat + j) = BitVec.ofNat 8 (v.toNat / 256 ^ j)) ∧
        (∀ x, x < a.toNat ∨ a.toNat + size ≤ x → memGet m x = memGet s.mem x ∧
          windowByte { s with mem := m } x = windowByte s x)) ∧
    (hostAccess (.write 0x004 4 v) s = .next { s with args := { s.args with a0 := v } }) ∧
    (hostAccess (.write 0x008 4 v) s = .next { s with args := { s.args with a1 := v } }) ∧
    (hostAccess (.write 0x00C 4 v) s = .next { s with args := { s.args with a2 := v } }) ∧
    (hostAccess (.write 0x010 4 v) s = .next { s with args := { s.args with a3 := v } }) ∧
    (hostAccess (.write 0x000 4 v) s = cycle v s)

/-- 20_memory.md R64: wider reads of a window are little-endian. R61, R66: byte `i` of window `IN_u` is the
byte at 0x1000 (u + 1) + i, and a host read of a written input byte gives the byte a command reads there. -/
def Obligations.WindowReadsAreLittleEndian : Prop :=
  ∀ (s : State) (a : Nat), 0x1000 ≤ a →
    (busRead s a 1).toNat = (windowByte s a).toNat ∧
    (busRead s a 2).toNat = (windowByte s a).toNat + 256 * (windowByte s (a + 1)).toNat ∧
    (busRead s a 4).toNat = (windowByte s a).toNat + 256 * (windowByte s (a + 1)).toNat +
      65536 * (windowByte s (a + 2)).toNat + 16777216 * (windowByte s (a + 3)).toNat ∧
    (∀ b, a < 0x5000 → memGet s.mem a = some b → windowByte s a = b) ∧
    (∀ u i b, u < 4 → i < 4096 → a = 0x1000 * (u + 1) + i → inByte s.mem u i = some b → windowByte s a = b)

/-- 20_memory.md R62: reserved offsets and unmapped addresses read 0 and ignore writes, and a write to a
read-only register or window has no effect; none of these is a model fault. -/
def Obligations.ReservedReadsZeroAndReadOnlyIgnores : Prop :=
  ∀ (s : State) (a : BitVec 20) (size : Nat) (v : Word),
    (a.toNat < 0x1000 → size = 4 → a.toNat % 4 = 0 → 0x014 ≤ a.toNat →
      hostAccess (.write a size v) s = .next s ∧
      (a.toNat = 0x018 ∨ a.toNat = 0x01C ∨ a.toNat = 0x04C ∨ a.toNat = 0x064 ∨ a.toNat = 0x068 ∨
        a.toNat = 0x06C ∨ a.toNat = 0x074 ∨ a.toNat = 0x078 ∨ a.toNat = 0x07C ∨ 0x090 ≤ a.toNat →
        hostAccess (.read a size) s = .next { s with rdata := 0 })) ∧
    (0x5000 ≤ a.toNat → (size = 1 ∨ size = 2 ∨ size = 4) → a.toNat % size = 0 →
      hostAccess (.write a size v) s = .next s ∧
      ((0x5240 ≤ a.toNat ∧ a.toNat < 0x6000) ∨ (0x7400 ≤ a.toNat ∧ a.toNat < 0x10000) ∨
        0x18000 ≤ a.toNat → hostAccess (.read a size) s = .next { s with rdata := 0 }))

/-- 70_reset_and_hazards.md R270: the power-on state. -/
def Obligations.PowerOnState : Prop :=
  let s := State.reset
  let F (c : Byte) : Framer := ⟨c, .idle, 0, 0, 0, [], [], false, 0, 0⟩
  s.f0 = F 0x24 ∧ s.f1 = F 0x21 ∧ s.ais = ⟨[], 0, false, 0, [], 0, [], 0, false⟩ ∧
  (∀ k, slotGet s.slots k = ⟨false, 0, 0, 0, false, []⟩) ∧
  s.crc = ⟨.seek, [], 0, 0, 0, 0, false, [], 0⟩ ∧
  (∀ (w i : Nat), bufGet ([] : Buf w) i = 0) ∧
  s.args = ⟨0, 0, 0, 0⟩ ∧ s.res = ⟨0, 0, 0, 0, 0, 0, 0, 0⟩ ∧ s.status = ⟨.ok, false, false⟩ ∧
  (∀ u i, inByte s.mem u i = none) ∧ s.faultMark = none ∧
  busRead s 0x040 4 = 0x00002400 ∧ busRead s 0x050 4 = 0x00002100 ∧
  (∀ a, a < 0x1000 → a ≠ 0x040 → a ≠ 0x050 → busRead s a 4 = 0)

/-- 10_state.md R25, R32, R33, R34: STATUS and the framer views, at their addresses, read-only, field by
field, all other bits 0. -/
def Obligations.StatusAndFramerViews : Prop :=
  ∀ s : State,
    let errNo : Nat := match s.status.err with
      | .ok => 0 | .illegal => 1 | .badArg => 2 | .noSent => 3 | .badNum => 4
    let stNo (F : Framer) : Nat := match F.st with | .idle => 0 | .body => 1 | .ck1 => 2 | .ck2 => 3
    let state (F : Framer) : Nat :=
      stNo F + 4 * F.valid.toNat + 256 * F.start.toNat + 65536 * F.nf.toNat
    (∀ a v, a ∈ ([0x014, 0x040, 0x044, 0x048, 0x050, 0x054, 0x058] : List (BitVec 20)) →
      hostAccess (.write a 4 v) s = .next s) ∧
    (busRead s 0x014 4).toNat = errNo + 256 * s.status.res.toNat + 512 * s.status.nodata.toNat ∧
    (busRead s 0x040 4).toNat = state s.f0 ∧ (busRead s 0x050 4).toNat = state s.f1 ∧
    (busRead s 0x044 4).toNat = s.f0.pos.toNat + 65536 * s.f0.len.toNat ∧
    (busRead s 0x054 4).toNat = s.f1.pos.toNat + 65536 * s.f1.len.toNat ∧
    (busRead s 0x048 4).toNat = s.f0.cs.toNat + 65536 * s.f0.nc.toNat ∧
    (busRead s 0x058 4).toNat = s.f1.cs.toNat + 65536 * s.f1.nc.toNat

/-- 10_state.md R22, R35, R37, R41, R47; 20_memory.md R61: the other view registers, ARG, RES, and the view
windows. -/
def Obligations.UnitViewsAndWindows : Prop :=
  ∀ s : State,
    let stNo : Nat := match s.crc.st with | .seek => 0 | .hdr => 1 | .ver => 2
    (busRead s 0x05C 4).toNat = s.ais.acclen.toNat + 8192 * s.ais.inprog.toNat ∧
    (busRead s 0x060 4).toNat = s.ais.msglen.toNat + 8192 * s.ais.msgvalid.toNat ∧
    (∀ b, (busRead s 0x070 4).getLsbD b =
      if b < 8 then (slotGet s.slots b).present
      else if b < 16 then (slotGet s.slots (b - 8)).reg else false) ∧
    (busRead s 0x080 4).toNat = stNo + 4 * s.crc.ready.toNat ∧
    (busRead s 0x084 4).toNat = s.crc.fill.toNat + 65536 * s.crc.pos.toNat ∧
    (busRead s 0x088 4).toNat = s.crc.mid.toNat + 65536 * s.crc.plen.toNat ∧
    (busRead s 0x08C 4).toNat = s.crc.rlen.toNat ∧
    (∀ r, r < 4 → busRead s (0x004 + 4 * r) 4 = s.args.get r) ∧
    (∀ r, r < 8 → busRead s (0x020 + 4 * r) 4 = s.res.get r) ∧ busRead s 0x000 4 = 0 ∧
    (∀ i, i < 512 → windowByte s (0x5000 + i) = bufGet s.f0.chars i) ∧
    (∀ i, i < 32 → (busRead s (0x5200 + 2 * i) 2).toNat = (bufGet s.f0.fstart i).toNat) ∧
    (∀ i, i < 4096 → windowByte s (0x6000 + i) = bufGet s.ais.msg i) ∧
    (∀ i, i < 1024 → windowByte s (0x7000 + i) = bufGet s.crc.res i) ∧
    (∀ k i, k < 8 → i < 4096 →
      windowByte s (0x10000 + 0x1000 * k + i) = bufGet (slotGet s.slots k).record i)

/-! ### U0 -/

/-- 40_nmea_framer.md R121. -/
def Obligations.NmeaConfigure : Prop :=
  ∀ (c : Byte) (ub : Half) (s : State),
    OpcodeIs (.nmeaCfg c ub) 0x00000000 ∧
    (c = 0x24 ∨ c = 0x21 → exec (.nmeaCfg c ub) s = .next { s with
      f0 := { s.f0 with start := c, st := .idle, valid := false, pos := 0, len := 0 }
      status := ⟨.ok, true, false⟩ }) ∧
    (¬ (c = 0x24 ∨ c = 0x21) →
      exec (.nmeaCfg c ub) s = .next { s with status := ⟨.badArg, false, false⟩ })

/-- 40_nmea_framer.md R120, R122, R123: a feed whose bytes are written completes, with RES0 the position and
STATUS.RES whether a sentence completed; it stops short of the buffer's end only at a sentence. A buffer
over 4096 bytes is BADARG, an empty one only clears the validity flag. Where byte `k` is the first
unwritten one, the feed does what the feed of the bytes before `k` does if that completes a sentence; if
not, it is a model fault at `k`, which records itself over an earlier one (the model's choice, log entry
3). -/
def Obligations.NmeaFeedsComplete : Prop :=
  ∀ (s : State) (ua : Byte) (ub len : Half),
    (len.toNat ≤ 4096 → Written s.mem 0 0 len.toNat → ∃ F r,
      exec (.nmeaFeedn ua len) s = .next { s with
        f0 := F, res := { s.res with r0 := F.pos.setWidth 32 }, status := ⟨.ok, r, false⟩ } ∧
      F.valid = r ∧ F.start = s.f0.start ∧ F.len.toNat = len.toNat ∧ F.pos.toNat ≤ F.len.toNat ∧
      (r = false → F.pos = F.len) ∧ (r = true → F.st = .idle ∧ 1 ≤ F.pos.toNat)) ∧
    (s.f0.pos.toNat ≤ s.f0.len.toNat → Written s.mem 0 s.f0.pos.toNat s.f0.len.toNat → ∃ F r,
      exec (.nmeaFeedc ua ub) s = .next { s with
        f0 := F, res := { s.res with r0 := F.pos.setWidth 32 }, status := ⟨.ok, r, false⟩ } ∧
      F.valid = r ∧ F.start = s.f0.start ∧ F.len = s.f0.len ∧ s.f0.pos.toNat ≤ F.pos.toNat ∧
      F.pos.toNat ≤ F.len.toNat ∧ (r = false → F.pos = F.len) ∧
      (r = true → F.st = .idle ∧ s.f0.pos.toNat < F.pos.toNat)) ∧
    (exec (.nmeaFeedn ua 0) s = .next { s with
      f0 := { s.f0 with valid := false, pos := 0, len := 0 }
      res := { s.res with r0 := 0 }, status := ⟨.ok, false, false⟩ }) ∧
    (4096 < len.toNat →
      exec (.nmeaFeedn ua len) s = .next { s with status := ⟨.badArg, false, false⟩ }) ∧
    (∀ k t, len.toNat ≤ 4096 → FirstUnwritten s.mem 0 0 len.toNat k →
      exec (.nmeaFeedn ua (BitVec.ofNat 16 k)) s = .next t →
      exec (.nmeaFeedn ua len) s =
        if t.status.res then .next { t with f0 := { t.f0 with len := len.setWidth 13 } }
        else .next { s with faultMark := some (.unwrittenInput (encode (.nmeaFeedn ua len)) k) }) ∧
    (∀ k t, FirstUnwritten s.mem 0 s.f0.pos.toNat s.f0.len.toNat k →
      exec (.nmeaFeedc ua ub) { s with f0 := { s.f0 with len := BitVec.ofNat 13 k } } = .next t →
      exec (.nmeaFeedc ua ub) s =
        if t.status.res then .next { t with f0 := { t.f0 with len := s.f0.len } }
        else .next { s with faultMark := some (.unwrittenInput (encode (.nmeaFeedc ua ub)) k) })

/-- 40_nmea_framer.md R132: a feed that meets a valid sentence at its start character, with F0 in any state,
completes exactly that sentence, its fields in order, and stops on the byte after it. -/
def Obligations.ValidSentenceCompletes : Prop :=
  ∀ (s : State) (ua : Byte) (ub len : Half) (fs : List (List Byte)),
    ValidFields s.f0.start fs →
    let n := (sentence s.f0.start fs).length
    (Holds s.mem 0 s.f0.pos.toNat (sentence s.f0.start fs) → s.f0.pos.toNat + n ≤ s.f0.len.toNat →
      ∃ F, exec (.nmeaFeedc ua ub) s = .next { s with
          f0 := F, res := { s.res with r0 := BitVec.ofNat 32 (s.f0.pos.toNat + n) }
          status := ⟨.ok, true, false⟩ } ∧
        F.valid = true ∧ F.pos.toNat = s.f0.pos.toNat + n ∧ HasFields F fs) ∧
    (Holds s.mem 0 0 (sentence s.f0.start fs) → n ≤ len.toNat → len.toNat ≤ 4096 →
      ∃ F, exec (.nmeaFeedn ua len) s = .next { s with
          f0 := F, res := { s.res with r0 := BitVec.ofNat 32 n }, status := ⟨.ok, true, false⟩ } ∧
        F.valid = true ∧ F.pos.toNat = n ∧ HasFields F fs)

/-- 40_nmea_framer.md R133: a sentence whose checksum digits do not match, F0 in any state before it, leaves
the framer in IDLE at the mismatching digit and completes nothing, and the next sentence is found from the
next start character on, whatever bytes stand before that. A start character in the place of a digit is
itself that next one (R110, R112). -/
def Obligations.BadChecksumResumes : Prop :=
  ∀ (s : State) (ua : Byte) (ub len : Half) (fs : List (List Byte)) (ds gap : List Byte),
    let c := s.f0.start
    let bad := [c] ++ body fs ++ [0x2A] ++ ds ++ gap
    let p := s.f0.pos.toNat
    ValidFields c fs →
    (MismatchedDigits c (body fs) ds → c ∉ gap →
      (Holds s.mem 0 p bad → p + bad.length = s.f0.len.toNat →
        ∃ F, exec (.nmeaFeedc ua ub) s = .next { s with
            f0 := F, res := { s.res with r0 := s.f0.len.setWidth 32 }, status := ⟨.ok, false, false⟩ } ∧
          F.valid = false ∧ F.st = .idle ∧ F.pos = s.f0.len) ∧
      (Holds s.mem 0 0 bad → bad.length = len.toNat → len.toNat ≤ 4096 →
        ∃ F, exec (.nmeaFeedn ua len) s = .next { s with
            f0 := F, res := { s.res with r0 := len.setWidth 32 }, status := ⟨.ok, false, false⟩ } ∧
          F.valid = false ∧ F.st = .idle ∧ F.pos = F.len)) ∧
    (∀ gs, ValidFields c gs →
      (MismatchedDigits c (body fs) ds ∧ c ∉ gap) ∨ ((ds = [] ∨ ds = [check1 (body fs)]) ∧ gap = []) →
      let n := (bad ++ sentence c gs).length
      (Holds s.mem 0 p (bad ++ sentence c gs) → p + n ≤ s.f0.len.toNat →
        ∃ F, exec (.nmeaFeedc ua ub) s = .next { s with
            f0 := F, res := { s.res with r0 := BitVec.ofNat 32 (p + n) }, status := ⟨.ok, true, false⟩ } ∧
          F.valid = true ∧ F.pos.toNat = p + n ∧ HasFields F gs) ∧
      (Holds s.mem 0 0 (bad ++ sentence c gs) → n ≤ len.toNat → len.toNat ≤ 4096 →
        ∃ F, exec (.nmeaFeedn ua len) s = .next { s with
            f0 := F, res := { s.res with r0 := BitVec.ofNat 32 n }, status := ⟨.ok, true, false⟩ } ∧
          F.valid = true ∧ F.pos.toNat = n ∧ HasFields F gs))

/-- 40_nmea_framer.md R120, R131; 10_state.md R31; 30_encoding.md R90, R91: the sentence a run completes is a
valid one of at most 32 fields and 512 characters, and its fields are the queryable ones. It stands in the
buffer, or the part `w` of it that the framer carried over from earlier buffers and the bytes from the
position on make it up. A run that completes none carries over in the same way. What a framer carries is
kept by every step (StepKeepsFieldTables). -/
def Obligations.CompletedSentenceIsValid : Prop :=
  ∀ (m : Memory) (u : Nat) (F F' : Framer) (w : List Byte),
    F.start = 0x24 ∨ F.start = 0x21 → F.TableRuns → Carried F w → F.pos.toNat ≤ F.len.toNat →
    (framerRun m u F = .ok (F', true) →
      ∃ fs, ValidFields F.start fs ∧ HasFields F' fs ∧ F'.cs = xorOf (body fs) ∧
        ((∃ a, F.pos.toNat ≤ a ∧ a + (sentence F.start fs).length = F'.pos.toNat ∧
            Holds m u a (sentence F.start fs)) ∨
          (∃ v, w ≠ [] ∧ w ++ v = sentence F.start fs ∧ F.pos.toNat + v.length = F'.pos.toNat ∧
            Holds m u F.pos.toNat v))) ∧
    (framerRun m u F = .ok (F', false) →
      ∃ w', Carried F' w' ∧
        ((∃ a, F.pos.toNat ≤ a ∧ a + w'.length = F.len.toNat ∧ Holds m u a w') ∨
          (∃ v, w' = w ++ v ∧ F.pos.toNat + v.length = F.len.toNat ∧ Holds m u F.pos.toNat v)))

/-- 40_nmea_framer.md R124, R125: NMEA.NFIELDS and NMEA.FIELD. A field's bytes are read in NM_CHARS from
0x05000 + RES0 on. -/
def Obligations.NmeaFieldQueries : Prop :=
  ∀ (i ua : Byte) (ub : Half) (s : State),
    OpcodeIs (.nmeaNfields ua ub) 0x03000000 ∧ OpcodeIs (.nmeaField i ub) 0x04000000 ∧
    (s.f0.valid = true → exec (.nmeaNfields ua ub) s = .next { s with
      res := { s.res with r0 := s.f0.nf.setWidth 32 }, status := ⟨.ok, true, false⟩ }) ∧
    (s.f0.valid = true → s.f0.Legal → 1 ≤ s.f0.nf.toNat ∧ s.f0.nf.toNat ≤ 32) ∧
    (s.f0.valid = false →
      exec (.nmeaNfields ua ub) s = .next { s with status := ⟨.noSent, false, false⟩ } ∧
      exec (.nmeaField i ub) s = .next { s with status := ⟨.noSent, false, false⟩ }) ∧
    (s.f0.valid = true → s.f0.nf.toNat ≤ i.toNat →
      exec (.nmeaField i ub) s = .next { s with status := ⟨.badArg, false, false⟩ }) ∧
    (s.f0.valid = true → i.toNat < s.f0.nf.toNat →
      let b := (bufGet s.f0.fstart i.toNat).toNat
      let e := if i.toNat + 1 < s.f0.nf.toNat then (bufGet s.f0.fstart (i.toNat + 1)).toNat
        else s.f0.nc.toNat
      ∃ l : Word, exec (.nmeaField i ub) s = .next { s with
          res := { s.res with r0 := BitVec.ofNat 32 b, r1 := l }, status := ⟨.ok, true, false⟩ } ∧
        l.toInt = (e : Int) - b ∧
        (∀ j, b + j < 512 → windowByte s (0x5000 + b + j) = bufGet s.f0.chars (b + j)))

/-- 40_nmea_framer.md R127: NMEA.FINT. -/
def Obligations.NmeaIntegerField : Prop :=
  ∀ (i : Byte) (ub : Half) (s : State),
    OpcodeIs (.nmeaFint i ub) 0x05000000 ∧
    (s.f0.valid = false →
      exec (.nmeaFint i ub) s = .next { s with status := ⟨.noSent, false, false⟩ }) ∧
    (s.f0.valid = true → s.f0.nf.toNat ≤ i.toNat →
      exec (.nmeaFint i ub) s = .next { s with status := ⟨.badArg, false, false⟩ }) ∧
    (s.f0.valid = true → i.toNat < s.f0.nf.toNat → parseInt (fieldBytes s.f0 i.toNat) = none →
      exec (.nmeaFint i ub) s = .next { s with status := ⟨.badNum, false, false⟩ }) ∧
    (∀ v : Int, s.f0.valid = true → i.toNat < s.f0.nf.toNat →
      parseInt (fieldBytes s.f0 i.toNat) = some v →
      exec (.nmeaFint i ub) s = .next { s with
        res := { s.res with
          r0 := (BitVec.ofInt 64 v).extractLsb' 0 32, r1 := (BitVec.ofInt 64 v).extractLsb' 32 32 }
        status := ⟨.ok, true, false⟩ })

/-- 40_nmea_framer.md R129: NMEA.FDEC. -/
def Obligations.NmeaDecimalField : Prop :=
  ∀ (i : Byte) (ub : Half) (s : State),
    OpcodeIs (.nmeaFdec i ub) 0x06000000 ∧
    (s.f0.valid = false →
      exec (.nmeaFdec i ub) s = .next { s with status := ⟨.noSent, false, false⟩ }) ∧
    (s.f0.valid = true → s.f0.nf.toNat ≤ i.toNat →
      exec (.nmeaFdec i ub) s = .next { s with status := ⟨.badArg, false, false⟩ }) ∧
    (s.f0.valid = true → i.toNat < s.f0.nf.toNat → parseDec (fieldBytes s.f0 i.toNat) = none →
      exec (.nmeaFdec i ub) s = .next { s with status := ⟨.badNum, false, false⟩ }) ∧
    (∀ (m : Int) (q : Nat), s.f0.valid = true → i.toNat < s.f0.nf.toNat →
      parseDec (fieldBytes s.f0 i.toNat) = some (m, q) →
      exec (.nmeaFdec i ub) s = .next { s with
        res := { s.res with
          r0 := (BitVec.ofInt 64 m).extractLsb' 0 32, r1 := (BitVec.ofInt 64 m).extractLsb' 32 32
          r2 := BitVec.ofNat 32 q }
        status := ⟨.ok, true, false⟩ })

/-- 40_nmea_framer.md R130 with the name packing of 30_encoding.md R81: NMEA.ISMSG. -/
def Obligations.NmeaIsMessage : Prop :=
  ∀ (n : Byte) (len : Half) (s : State),
    let name := (List.range len.toNat).map (argByte s.args)
    OpcodeIs (.nmeaIsmsg n len) 0x07000000 ∧
    (16 < len.toNat →
      exec (.nmeaIsmsg n len) s = .next { s with status := ⟨.badArg, false, false⟩ }) ∧
    (len.toNat ≤ 16 → s.f0.valid = false →
      exec (.nmeaIsmsg n len) s = .next { s with status := ⟨.noSent, false, false⟩ }) ∧
    (len.toNat ≤ 16 → s.f0.valid = true → s.f0.nf.toNat = n.toNat ∧ fieldBytes s.f0 0 = name →
      exec (.nmeaIsmsg n len) s = .next { s with
        res := { s.res with r0 := 1 }, status := ⟨.ok, true, false⟩ }) ∧
    (len.toNat ≤ 16 → s.f0.valid = true → ¬ (s.f0.nf.toNat = n.toNat ∧ fieldBytes s.f0 0 = name) →
      exec (.nmeaIsmsg n len) s = .next { s with
        res := { s.res with r0 := 0 }, status := ⟨.ok, false, false⟩ })

/-- 40_nmea_framer.md R126: exactly the strings of an optional sign and 1 to 18 decimal digits are read, and
as their decimal value, which fits an i64. -/
def Obligations.ParseIntSyntax : Prop :=
  ∀ (s : List Byte) (v : Int),
    (parseInt s = some v ↔ ∃ sg ds neg, s = sg ++ ds ∧ SignOf sg neg ∧ Digits ds ∧ 1 ≤ ds.length ∧
      ds.length ≤ 18 ∧ v = if neg then -(decimal ds : Int) else decimal ds) ∧
    (parseInt s = some v → -(10 ^ 18 - 1) ≤ v ∧ v ≤ 10 ^ 18 - 1)

/-- 40_nmea_framer.md R128: exactly the strings of an optional sign, digits and at most one point are read,
with 1 to 18 digits in all, as significand and number of digits after the point. -/
def Obligations.ParseDecSyntax : Prop :=
  ∀ (s : List Byte) (m : Int) (q : Nat),
    parseDec s = some (m, q) ↔ ∃ sg d1 d2 pt neg, s = sg ++ d1 ++ pt ++ d2 ∧ SignOf sg neg ∧
      (pt = [0x2E] ∨ (pt = [] ∧ d2 = [])) ∧ Digits (d1 ++ d2) ∧ 1 ≤ d1.length + d2.length ∧
      d1.length + d2.length ≤ 18 ∧ q = d2.length ∧
      m = if neg then -(decimal (d1 ++ d2) : Int) else decimal (d1 ++ d2)

/-! ### U1 -/

/-- 41_ais.md R150 to R152: an AIS feed whose bytes are written completes, with RES0 the position and
STATUS.RES whether a message was emitted; it stops short of the buffer's end only at a message. A
buffer over 4096 bytes is BADARG, an empty one changes no message and no fragment state. Where byte `k`
is the first unwritten one, the feed does what the feed of the bytes before `k` does if that emits a
message; if not, it is a model fault at `k`, which records itself over an earlier one (the model's
choice, log entry 3). -/
def Obligations.AisFeedsComplete : Prop :=
  ∀ (s : State) (ua : Byte) (ub len : Half),
    (len.toNat ≤ 4096 → Written s.mem 1 0 len.toNat → ∃ F A r,
      exec (.aisFeedn ua len) s = .next { s with
        f1 := F, ais := A, res := { s.res with r0 := F.pos.setWidth 32 }, status := ⟨.ok, r, false⟩ } ∧
      F.valid = r ∧ F.start = s.f1.start ∧ F.len.toNat = len.toNat ∧ F.pos.toNat ≤ F.len.toNat ∧
      (r = false → F.pos = F.len ∧ A.msg = s.ais.msg ∧ A.msglen = s.ais.msglen ∧
        A.msgvalid = s.ais.msgvalid) ∧ (r = true → A.msgvalid = true)) ∧
    (s.f1.pos.toNat ≤ s.f1.len.toNat → Written s.mem 1 s.f1.pos.toNat s.f1.len.toNat → ∃ F A r,
      exec (.aisFeedc ua ub) s = .next { s with
        f1 := F, ais := A, res := { s.res with r0 := F.pos.setWidth 32 }, status := ⟨.ok, r, false⟩ } ∧
      F.valid = r ∧ F.start = s.f1.start ∧ F.len = s.f1.len ∧ s.f1.pos.toNat ≤ F.pos.toNat ∧
      F.pos.toNat ≤ F.len.toNat ∧ (r = false → F.pos = F.len ∧ A.msg = s.ais.msg ∧
        A.msglen = s.ais.msglen ∧ A.msgvalid = s.ais.msgvalid) ∧ (r = true → A.msgvalid = true)) ∧
    (exec (.aisFeedn ua 0) s = .next { s with
      f1 := { s.f1 with valid := false, pos := 0, len := 0 }
      res := { s.res with r0 := 0 }, status := ⟨.ok, false, false⟩ }) ∧
    (4096 < len.toNat →
      exec (.aisFeedn ua len) s = .next { s with status := ⟨.badArg, false, false⟩ }) ∧
    (∀ k t, len.toNat ≤ 4096 → FirstUnwritten s.mem 1 0 len.toNat k →
      exec (.aisFeedn ua (BitVec.ofNat 16 k)) s = .next t →
      exec (.aisFeedn ua len) s =
        if t.status.res then .next { t with f1 := { t.f1 with len := len.setWidth 13 } }
        else .next { s with faultMark := some (.unwrittenInput (encode (.aisFeedn ua len)) k) }) ∧
    (∀ k t, FirstUnwritten s.mem 1 s.f1.pos.toNat s.f1.len.toNat k →
      exec (.aisFeedc ua ub) { s with f1 := { s.f1 with len := BitVec.ofNat 13 k } } = .next t →
      exec (.aisFeedc ua ub) s =
        if t.status.res then .next { t with f1 := { t.f1 with len := s.f1.len } }
        else .next { s with faultMark := some (.unwrittenInput (encode (.aisFeedc ua ub)) k) })

/-- 41_ais.md R141, R142, R144, R150 to R152 with 40_nmea_framer.md R132: AIS.FEEDN and AIS.FEEDC, F1 in any
state. A valid AIVDM sentence of 7 fields at the first byte fed, its total reading as 1 (written "1", "01" or
"+1"), or behind a sentence that is passed over, has its payload emitted as the message; the fragment
state stays, and the position is the byte after the sentence, where the next AIS.FEEDC goes on. A sentence
that is no AIVDM sentence of 7 fields changes no U1 state but F1. -/
def Obligations.AisSingleSentenceEmits : Prop :=
  ∀ (i : Instr) (s : State) (a e : Nat), s.f1.start = 0x21 → FeedsU1 i s a e →
    (∀ f1 f2 f3 f4 p f6 before : List Byte,
      let fs := [[0x41, 0x49, 0x56, 0x44, 0x4D], f1, f2, f3, f4, p, f6]
      let fed := before ++ sentence 0x21 fs
      ValidFields 0x21 fs → parseInt f1 = some 1 → before = [] ∨ PassedOver before →
      Holds s.mem 1 a fed → a + fed.length ≤ e →
      ∃ F A, exec i s = .next { s with
          f1 := F, ais := A, res := { s.res with r0 := BitVec.ofNat 32 (a + fed.length) }
          status := ⟨.ok, true, false⟩ } ∧
        F.start = 0x21 ∧ F.pos.toNat = a + fed.length ∧ F.len.toNat = e ∧ aisMessage A = p ∧
        A = { s.ais with msg := A.msg, msglen := A.msglen, msgvalid := true }) ∧
    (∀ fed : List Byte, PassedOver fed → Holds s.mem 1 a fed → a + fed.length = e →
      ∃ F, exec i s = .next { s with
          f1 := F, res := { s.res with r0 := BitVec.ofNat 32 e }, status := ⟨.ok, false, false⟩ } ∧
        F.pos.toNat = e ∧ F.len.toNat = e)

/-- 41_ais.md R163 through the whole feed, AIS.FEEDN or AIS.FEEDC: fragment 1 of 2 followed by fragment 2 of 2
emits the two payloads joined when their sequence ids are equal, and otherwise nothing, leaving no fragment
state in progress. The first clause has both in one buffer, with any bytes but a start character between and
after them; the other two have them in different feeds, with what the first one leaves between (a
single-fragment message keeps it, AisSingleSentenceEmits). -/
def Obligations.AisTwoFragmentBuffer : Prop :=
  ∀ (i : Instr) (s : State) (a e : Nat) (q q' c c' p p' x x' gap tail : List Byte),
    let aivdm : List Byte := [0x41, 0x49, 0x56, 0x44, 0x4D]
    let fs := [aivdm, [0x32], [0x31], q, c, p, x]
    let gs := [aivdm, [0x32], [0x32], q', c', p', x']
    let fed (bs : List Byte) : Prop := Holds s.mem 1 a (bs ++ tail) ∧ a + (bs ++ tail).length = e
    let joined (bs : List Byte) : Prop := ∃ F A, exec i s = .next { s with
        f1 := F, ais := A, res := { s.res with r0 := BitVec.ofNat 32 (a + bs.length) }
        status := ⟨.ok, true, false⟩ } ∧
      F.pos.toNat = a + bs.length ∧ aisMessage A = p ++ p' ∧ A.msgvalid = true ∧ A.inprog = false
    let silent (B : Ais → Prop) : Prop := ∃ F A, exec i s = .next { s with
        f1 := F, ais := A, res := { s.res with r0 := BitVec.ofNat 32 e }, status := ⟨.ok, false, false⟩ } ∧
      aisMessage A = aisMessage s.ais ∧ A.msgvalid = s.ais.msgvalid ∧ B A
    let two := sentence 0x21 fs ++ gap ++ sentence 0x21 gs
    s.f1.start = 0x21 → FeedsU1 i s a e → ValidFields 0x21 fs → ValidFields 0x21 gs →
    0x21 ∉ gap → 0x21 ∉ tail →
    (fed two → (q = q' → joined two) ∧ (q ≠ q' → silent (fun A => A.inprog = false))) ∧
    (fed (sentence 0x21 fs) → silent (fun A => FirstHeld A q p)) ∧
    (fed (sentence 0x21 gs) → FirstHeld s.ais q p →
      (q = q' → joined (sentence 0x21 gs)) ∧ (q ≠ q' → silent (fun A => A.inprog = false)))

/-- 41_ais.md R144: a sentence whose total is 1 is emitted at once and leaves the fragment state; R141, R142:
a sentence that is no AIVDM sentence of 7 fields, or whose counts are no integers, changes nothing. -/
def Obligations.SingleFragmentLeavesSequence : Prop :=
  ∀ (F : Framer) (A : Ais),
    (parseInt (fieldBytes F 1) = some 1 → (fieldBytes F 5).length ≤ 4096 →
      ∃ A', reassemble F A = (A', true) ∧ aisMessage A' = fieldBytes F 5 ∧
        A' = { A with msg := A'.msg, msglen := A'.msglen, msgvalid := true }) ∧
    (F.nf.toNat ≠ 7 ∨ fieldBytes F 0 ≠ [0x41, 0x49, 0x56, 0x44, 0x4D] → aisOffer F A = (A, false)) ∧
    (parseInt (fieldBytes F 1) = none → reassemble F A = (A, false)) ∧
    (∀ t, t ≠ 1 → parseInt (fieldBytes F 1) = some t → parseInt (fieldBytes F 2) = none →
      reassemble F A = (A, false))

/-- 41_ais.md R142, R143, R148: the first fragment starts a sequence whatever was in progress; a fragment in
sequence is appended, the last one emitting the whole and clearing the state. -/
def Obligations.FragmentsInSequenceAccumulate : Prop :=
  ∀ (F : Framer) (A : Ais) (t x : Int),
    let p := fieldBytes F 5
    let q := fieldBytes F 3
    parseInt (fieldBytes F 1) = some t → t ≠ 1 → parseInt (fieldBytes F 2) = some x →
    (x = 1 → p.length ≤ 512 → q.length ≤ 512 → ∃ A', reassemble F A = (A', false) ∧
      A'.inprog = true ∧ A'.expect.toInt = 2 ∧ bufRead A'.acc 0 A'.acclen.toNat = p ∧
      bufRead A'.seq 0 A'.seqlen.toNat = q ∧ aisMessage A' = aisMessage A ∧
      A'.msgvalid = A.msgvalid) ∧
    (x ≠ 1 → A.inprog = true → x = A.expect.toInt → q = bufRead A.seq 0 A.seqlen.toNat →
      A.acclen.toNat + p.length ≤ 4096 →
      (x < t → ∃ A', reassemble F A = (A', false) ∧ A'.inprog = true ∧ A'.expect = A.expect + 1 ∧
        bufRead A'.acc 0 A'.acclen.toNat = bufRead A.acc 0 A.acclen.toNat ++ p ∧
        bufRead A'.seq 0 A'.seqlen.toNat = q ∧ aisMessage A' = aisMessage A ∧
        A'.msgvalid = A.msgvalid) ∧
      (x = t → ∃ A', reassemble F A = (A', true) ∧
        aisMessage A' = bufRead A.acc 0 A.acclen.toNat ++ p ∧ A'.msgvalid = true ∧
        A'.inprog = false ∧ A'.acclen = 0))

/-- 41_ais.md R145, R146, R147: a fragment out of sequence, with an index over its total, or over the capacity
of the accumulator, clears the fragment state, is dropped, and emits nothing. -/
def Obligations.BrokenSequenceIsDropped : Prop :=
  ∀ (F : Framer) (A : Ais) (t x : Int),
    parseInt (fieldBytes F 1) = some t → t ≠ 1 → parseInt (fieldBytes F 2) = some x → x ≠ 1 →
    (A.inprog = false ∨ x ≠ A.expect.toInt ∨ fieldBytes F 3 ≠ bufRead A.seq 0 A.seqlen.toNat ∨
      x > t ∨ A.acclen.toNat + (fieldBytes F 5).length > 4096) →
    reassemble F A = ({ A with inprog := false, acclen := 0, expect := 0, seqlen := 0 }, false)

/-- 41_ais.md R153: AIS.MSGLEN. -/
def Obligations.AisMessageLength : Prop :=
  ∀ (ua : Byte) (ub : Half) (s : State),
    OpcodeIs (.aisMsglen ua ub) 0x13000000 ∧
    (s.ais.msgvalid = true → exec (.aisMsglen ua ub) s = .next { s with
      res := { s.res with
        r0 := s.ais.msglen.setWidth 32, r1 := 6 * s.ais.msglen.setWidth 32 }
      status := ⟨.ok, true, false⟩ }) ∧
    (s.ais.msgvalid = false →
      exec (.aisMsglen ua ub) s = .next { s with status := ⟨.noSent, false, false⟩ })

/-- 41_ais.md R155, R156 with 30_encoding.md R93, R94: AIS.BITS gives the bits most significant first, the
rest of the 64 filled with the first bit of a signed read. -/
def Obligations.AisBitsValue : Prop :=
  ∀ (sgn : Bool) (len : BitVec 7) (start : Half) (s : State),
    let b := start.toNat
    let n := len.toNat
    OpcodeIs (.aisBits sgn len start) 0x14000000 ∧
    (64 < n → exec (.aisBits sgn len start) s = .next { s with status := ⟨.badArg, false, false⟩ }) ∧
    (n ≤ 64 → s.ais.msgvalid = false →
      exec (.aisBits sgn len start) s = .next { s with status := ⟨.noSent, false, false⟩ }) ∧
    (n ≤ 64 → s.ais.msgvalid = true → 6 * s.ais.msglen.toNat < b + n →
      exec (.aisBits sgn len start) s = .next { s with
        res := { s.res with r0 := 0, r1 := 0 }, status := ⟨.ok, false, true⟩ }) ∧
    (n ≤ 64 → s.ais.msgvalid = true → b + n ≤ 6 * s.ais.msglen.toNat → ∃ v : DWord,
      exec (.aisBits sgn len start) s = .next { s with
        res := { s.res with r0 := v.extractLsb' 0 32, r1 := v.extractLsb' 32 32 }
        status := ⟨.ok, true, false⟩ } ∧
      ∀ j, j < 64 → v.getLsbD j =
        if j < n then messageBit s.ais (b + n - 1 - j)
        else (sgn && decide (1 ≤ n) && messageBit s.ais b))

/-- 41_ais.md R155, R162: a signed read is the two's-complement value of the field's bits. -/
def Obligations.SignedReadIsTwosComplement : Prop :=
  ∀ (A : Ais) (b n : Nat), b + n ≤ 6 * A.msglen.toNat →
    readBits A b n true = some (BitVec.ofNat n (rawBits A.msg b n)).toInt ∧
    readBits A b n false = some ((BitVec.ofNat n (rawBits A.msg b n)).toNat : Int)

/-- 41_ais.md R157, R158: AIS.TYPE and AIS.MMSI are the bit reads of 6 bits at 0 and 30 bits at 8. -/
def Obligations.AisTypeAndMmsi : Prop :=
  ∀ (ua : Byte) (ub : Half) (s : State),
    OpcodeIs (.aisType ua ub) 0x15000000 ∧ OpcodeIs (.aisMmsi ua ub) 0x16000000 ∧
    exec (.aisType ua ub) s = exec (.aisBits false 6 0) s ∧
    exec (.aisMmsi ua ub) s = exec (.aisBits false 30 8) s ∧
    (s.ais.msgvalid = true → 1 ≤ s.ais.msglen.toNat → exec (.aisType ua ub) s = .next { s with
      res := { s.res with r0 := BitVec.ofNat 32 (sixValue (bufGet s.ais.msg 0)), r1 := 0 }
      status := ⟨.ok, true, false⟩ }) ∧
    (s.ais.msgvalid = true → 7 ≤ s.ais.msglen.toNat → ∃ v : Word, exec (.aisMmsi ua ub) s = .next { s with
      res := { s.res with r0 := v, r1 := 0 }, status := ⟨.ok, true, false⟩ } ∧
      ∀ j, j < 32 → v.getLsbD j = (decide (j < 30) && messageBit s.ais (37 - j)))

/-- 41_ais.md R159, R160 with the table of 30_encoding.md R95: AIS.POS. -/
def Obligations.AisPositionReport : Prop :=
  ∀ (ua : Byte) (ub : Half) (s : State),
    let ty := readBits s.ais 0 6 false
    OpcodeIs (.aisPos ua ub) 0x17000000 ∧
    (s.ais.msgvalid = false →
      exec (.aisPos ua ub) s = .next { s with status := ⟨.noSent, false, false⟩ }) ∧
    (s.ais.msgvalid = true → ty = none → exec (.aisPos ua ub) s = .next { s with
      res := ⟨0, 0, 0, 0, 0, 0, 0xFFFFFFFF, 0⟩, status := ⟨.ok, false, true⟩ }) ∧
    (∀ y : Int, s.ais.msgvalid = true → ty = some y → y ∉ ([1, 2, 3, 18, 19] : List Int) →
      exec (.aisPos ua ub) s = .next { s with
        res := ⟨0, 0, 0, 0, 0, 0, BitVec.ofInt 32 y, 0⟩, status := ⟨.ok, false, false⟩ }) ∧
    (∀ y : Int, s.ais.msgvalid = true → ty = some y → y ∈ ([1, 2, 3, 18, 19] : List Int) →
      let offs := if y ∈ ([1, 2, 3] : List Int) then [50, 61, 89, 116, 128] else [46, 57, 85, 112, 124]
      let read (k : Nat) := readBits s.ais (offs.getD k 0) ([10, 28, 27, 12, 9].getD k 0)
        (decide (k = 1 ∨ k = 2))
      let sentinel (k : Nat) : Int := [1023, 0x6791AC0, 0x3412140, 3600, 511].getD k 0
      ∃ R : Results, exec (.aisPos ua ub) s = .next { s with res := R, status := ⟨.ok, true, false⟩ } ∧
        R.r6 = BitVec.ofInt 32 y ∧
        (∀ k, k < 32 → R.r0.getLsbD k =
          (decide (k < 5) && (read k).isSome && decide (read k ≠ some (sentinel k)))) ∧
        (∀ k, k < 32 → R.r7.getLsbD k = (decide (k < 5) && (read k).isNone)) ∧
        (∀ k, k < 5 → R.get (k + 1) = ((read k).map (BitVec.ofInt 32)).getD 0))

/-! ### U2 -/

/-- 42_sigcsum.md R184, R187: SIG.REG and SIG.CLR; the other slots are left. -/
def Obligations.SigRegisterAndClear : Prop :=
  ∀ (k : Byte) (size ub : Half) (s : State),
    OpcodeIs (.sigReg k size) 0x20000000 ∧ OpcodeIs (.sigClr k ub) 0x23000000 ∧
    (8 ≤ k.toNat ∨ 4095 < size.toNat →
      exec (.sigReg k size) s = .next { s with status := ⟨.badArg, false, false⟩ }) ∧
    (k.toNat < 8 → size.toNat ≤ 4095 → ∃ v,
      exec (.sigReg k size) s = .next { s with slots := v, status := ⟨.ok, true, false⟩ } ∧
      slotGet v k.toNat = ⟨true, BitVec.ofNat 8 s.args.a0.toNat, BitVec.ofNat 8 (s.args.a0.toNat / 256),
        BitVec.ofNat 12 size.toNat, false, []⟩ ∧
      ∀ j, j ≠ k.toNat → slotGet v j = slotGet s.slots j) ∧
    (8 ≤ k.toNat →
      exec (.sigClr k ub) s = .next { s with status := ⟨.badArg, false, false⟩ }) ∧
    (k.toNat < 8 → ∃ v, exec (.sigClr k ub) s = .next { s with
        slots := v
        res := { s.res with r0 := if (slotGet s.slots k.toNat).present then 1 else 0 }
        status := ⟨.ok, true, false⟩ } ∧
      slotGet v k.toNat = { slotGet s.slots k.toNat with present := false } ∧
      ∀ j, j ≠ k.toNat → slotGet v j = slotGet s.slots j)

/-- 42_sigcsum.md R181, R183, R185: SIG.SCAN accepts the valid frame at the least offset from its start index
on, and finds nothing where there is none. A frame lies wholly inside the buffer (R181); that the example of
R185, whose length of 10 shuts its own frame out, is read as a miscount is the model's choice (log entry
19). -/
def Obligations.SigScanFindsFirst : Prop :=
  ∀ (k : Byte) (len : Half) (s : State),
    let S := slotGet s.slots k.toNat
    let start := s.args.a0.toNat
    let L := len.toNat
    OpcodeIs (.sigScan k len) 0x21000000 ∧
    (8 ≤ k.toNat ∨ 4096 < L ∨ S.reg = false →
      exec (.sigScan k len) s = .next { s with status := ⟨.badArg, false, false⟩ }) ∧
    (k.toNat < 8 → L ≤ 4096 → S.reg = true →
      (s.Final → ¬ Written s.mem 2 start L → ∃ i, start ≤ i ∧ i < L ∧ inByte s.mem 2 i = none ∧
        exec (.sigScan k len) s = .next { s with
          faultMark := some (.unwrittenInput (encode (.sigScan k len)) i) }) ∧
      (Written s.mem 2 start L → (∀ i p, start ≤ i → ¬ FrameAt s.mem S L i p) →
        exec (.sigScan k len) s = .next { s with
          res := { s.res with r0 := 0xFFFFFFFF, r1 := 0xFFFFFFFF }, status := ⟨.ok, false, false⟩ }) ∧
      (∀ i p, Written s.mem 2 start L → start ≤ i → FrameAt s.mem S L i p →
        (∀ j p', start ≤ j → j < i → ¬ FrameAt s.mem S L j p') →
        ∃ v, exec (.sigScan k len) s = .next { s with
            slots := v
            res := { s.res with r0 := BitVec.ofNat 32 (i + S.size.toNat + 6), r1 := BitVec.ofNat 32 i }
            status := ⟨.ok, true, false⟩ } ∧
          SlotsAccepted s.slots v k.toNat p))

/-- 42_sigcsum.md R181, R183, R186: SIG.LATEST accepts the valid frame at the greatest offset. -/
def Obligations.SigLatestFindsLast : Prop :=
  ∀ (k : Byte) (len : Half) (s : State),
    let S := slotGet s.slots k.toNat
    let L := len.toNat
    OpcodeIs (.sigLatest k len) 0x22000000 ∧
    (8 ≤ k.toNat ∨ 4096 < L ∨ S.reg = false →
      exec (.sigLatest k len) s = .next { s with status := ⟨.badArg, false, false⟩ }) ∧
    (k.toNat < 8 → L ≤ 4096 → S.reg = true →
      (s.Final → ¬ Written s.mem 2 0 L → ∃ i, i < L ∧ inByte s.mem 2 i = none ∧
        exec (.sigLatest k len) s = .next { s with
          faultMark := some (.unwrittenInput (encode (.sigLatest k len)) i) }) ∧
      (Written s.mem 2 0 L → (∀ i p, ¬ FrameAt s.mem S L i p) →
        exec (.sigLatest k len) s = .next { s with
          res := { s.res with r0 := 0xFFFFFFFF, r1 := 0xFFFFFFFF }, status := ⟨.ok, false, false⟩ }) ∧
      (∀ i p, Written s.mem 2 0 L → FrameAt s.mem S L i p →
        (∀ j p', i < j → ¬ FrameAt s.mem S L j p') →
        ∃ v, exec (.sigLatest k len) s = .next { s with
            slots := v
            res := { s.res with r0 := BitVec.ofNat 32 (i + S.size.toNat + 6), r1 := BitVec.ofNat 32 i }
            status := ⟨.ok, true, false⟩ } ∧
          SlotsAccepted s.slots v k.toNat p))

/-- 42_sigcsum.md R180, R190: the checksum has its closed form; changing one payload byte changes it, and makes
a valid frame invalid at its offset. -/
def Obligations.RotXorClosedFormDetects : Prop :=
  (∀ (S : Slot) (p : List Byte), rotXor S p = rotXorClosed (signature S ++ p)) ∧
  (∀ (S : Slot) (p p' : List Byte) (b b' : Byte), b ≠ b' →
    rotXor S (p ++ b :: p') ≠ rotXor S (p ++ b' :: p')) ∧
  (∀ (S : Slot) (buf : List Byte) (j : Nat) (b : Byte), frameAtHead S buf = true → 5 ≤ j →
    j < 5 + S.size.toNat → buf[j]? ≠ some b → frameAtHead S (buf.set j b) = false)

/-- 42_sigcsum.md R188: a command on slot k writes no other slot and nothing but RES, STATUS and the fault
mark, and no other slot changes what it does. -/
def Obligations.SigSlotsAreIndependent : Prop :=
  ∀ (k : Byte) (i : Instr) (s s' t : State),
    ((∃ size, i = .sigReg k size) ∨ (∃ len, i = .sigScan k len) ∨ (∃ len, i = .sigLatest k len) ∨
      (∃ ub, i = .sigClr k ub)) →
    exec i s = .next t →
    t = { s with slots := t.slots, res := t.res, status := t.status, faultMark := t.faultMark } ∧
    (∀ j, j ≠ k.toNat → slotGet t.slots j = slotGet s.slots j) ∧
    (s' = { s with slots := s'.slots } → slotGet s'.slots k.toNat = slotGet s.slots k.toNat →
      ∃ t', exec i s' = .next t' ∧ t' = { t with slots := t'.slots } ∧
        slotGet t'.slots k.toNat = slotGet t.slots k.toNat)

/-! ### U3 -/

/-- 43_crc32_framer.md R210: the byte engine is the bit-serial reflected CRC with polynomial 0xEDB88320,
start value 0 and no final XOR. -/
def Obligations.CrcIsBitSerial : Prop := ∀ s : List Byte, crc32 s = (bitsOf s).foldl lfsr 0

/-- 43_crc32_framer.md R219: CRC.CRC32. -/
def Obligations.CrcEngineCommand : Prop :=
  ∀ (ua : Byte) (len : Half) (s : State),
    OpcodeIs (.crcCrc32 ua len) 0x33000000 ∧
    (4096 < len.toNat →
      exec (.crcCrc32 ua len) s = .next { s with status := ⟨.badArg, false, false⟩ }) ∧
    (len.toNat ≤ 4096 → s.Final → ¬ Written s.mem 3 0 len.toNat → ∃ k, k < len.toNat ∧
      inByte s.mem 3 k = none ∧ exec (.crcCrc32 ua len) s = .next { s with
        faultMark := some (.unwrittenInput (encode (.crcCrc32 ua len)) k) }) ∧
    (∀ bs, len.toNat ≤ 4096 → bs.length = len.toNat → Holds s.mem 3 0 bs →
      exec (.crcCrc32 ua len) s = .next { s with
        res := { s.res with r0 := (bitsOf bs).foldl lfsr 0 }, status := ⟨.ok, true, false⟩ })

/-- 43_crc32_framer.md R217: CRC.FEED on written input completes with the counts of accepted frames and of
discards, STATUS.RES the ready flag; an accepted frame leaves the flag set, and none leaves the mailbox
as it was. Which unwritten byte a model fault records, and that it records itself over an earlier one,
are the model's choices (log entries 4 and 3). -/
def Obligations.CrcFeedCompletes : Prop :=
  ∀ (ua : Byte) (len : Half) (s : State),
    (4096 < len.toNat →
      exec (.crcFeed ua len) s = .next { s with status := ⟨.badArg, false, false⟩ }) ∧
    (∀ k, len.toNat ≤ 4096 → FirstUnwritten s.mem 3 0 len.toNat k →
      exec (.crcFeed ua len) s = .next { s with
        faultMark := some (.unwrittenInput (encode (.crcFeed ua len)) k) }) ∧
    (∀ bs, len.toNat ≤ 4096 → bs.length = len.toNat → Holds s.mem 3 0 bs → ∃ c dec dis,
      crcFeed bs s.crc = (c, dec, dis) ∧
      exec (.crcFeed ua len) s = .next { s with
        crc := c
        res := { s.res with r0 := BitVec.ofNat 32 dec, r1 := BitVec.ofNat 32 dis }
        status := ⟨.ok, c.ready, false⟩ } ∧
      (1 ≤ dec → c.ready = true) ∧ (dec = 0 → SameResult s.crc c))

/-- 43_crc32_framer.md R211, R216: `Run` and `Feed` are the loops the rules write, with no bound on their
turns, on every U3 state whose buffer is not over-full. It justifies the bounds of the model's loops (log
entry 11, DEDUCED). -/
def Obligations.CrcLoopsAreUnbounded : Prop :=
  (∀ c : Crc, crcRun c = match crcStep c with
    | none => (c, 0)
    | some (c', k) => ((crcRun c').1, k + (crcRun c').2)) ∧
  (∀ (bs : List Byte) (c : Crc), c.fill.toNat ≤ 1024 →
    let room := 1024 - c.fill.toNat
    let r := crcRun (crcAppend c (bs.take room))
    let full := decide (r.1.fill.toNat = 1024)
    let c' : Crc := if full then { r.1 with fill := 0, pos := 0, st := .seek } else r.1
    crcFeed bs c =
      if bs.length ≤ room then (c', r.2, full.toNat)
      else ((crcFeed (bs.drop room) c').1, r.2 + (crcFeed (bs.drop room) c').2.1,
        full.toNat + (crcFeed (bs.drop room) c').2.2))

/-- 43_crc32_framer.md R226: a valid AGRICB frame fed alone is accepted whole; with one payload byte changed it
is rejected; the preamble with fewer than 24 bytes in all waits. R212 to R215, R224: a valid frame behind
other bytes that fit the buffer with it is found when it is the first valid one, whatever those bytes are:
bytes that are no preamble, headers that are rejected, candidates whose CRC is rejected, also where they
overlap each other or the frame. -/
def Obligations.AgricbFrameBehaviour : Prop :=
  ∀ c : Crc, CrcEmpty c →
    (∀ f, AgricbFrame f → ∃ c', crcFeed f c = (c', 1, 0) ∧ c'.ready = true ∧ c'.rlen.toNat = 256 ∧
      bufRead c'.res 0 256 = f ∧ CrcEmpty c') ∧
    (∀ before f, AgricbFrame f → before.length + 256 ≤ 1024 →
      (∀ i, i < before.length → ¬ AgricbFrame (((before ++ f).drop i).take 256)) →
      ∃ c', crcFeed (before ++ f) c = (c', 1, 0) ∧ c'.ready = true ∧ c'.rlen.toNat = 256 ∧
        bufRead c'.res 0 256 = f ∧ CrcEmpty c') ∧
    (∀ f j b, AgricbFrame f → 24 ≤ j → j < 252 → f[j]? ≠ some b →
      ∃ c', crcFeed (f.set j b) c = (c', 0, 0) ∧ SameResult c c') ∧
    (∀ bs : List Byte, bs.take 3 = [0xAA, 0x44, 0xB5] → bs.length < 24 →
      ∃ c', crcFeed bs c = (c', 0, 0) ∧ c'.st = .hdr ∧ c'.pos = 0 ∧ c'.fill.toNat = bs.length ∧
        SameResult c c')

/-- 43_crc32_framer.md R212, R216: a full buffer is discarded whole, one discard and no error: 1024 bytes fed to
an empty U3 with no AA 44 B5 among them leave mailbox, record and latched header as they were; and in
whatever state U3 waits, bytes that fill the buffer with no frame accepted leave U3 empty, mailbox and
record as they were, the header as `Run` last latched it. -/
def Obligations.OverflowDiscardsTheBuffer : Prop :=
  (∀ (c : Crc) (bs : List Byte), CrcEmpty c → bs.length = 1024 →
    (∀ i, (bs.drop i).take 3 ≠ [0xAA, 0x44, 0xB5]) →
    ∃ c', crcFeed bs c = (c', 0, 1) ∧ CrcEmpty c' ∧ SameResult c c' ∧ c'.mid = c.mid ∧ c'.plen = c.plen) ∧
  (∀ (c d : Crc) (bs : List Byte), c.Legal → c.AtRest → c.fill.toNat + bs.length = 1024 →
    crcRun (crcAppend c bs) = (d, 0) →
    ∃ c', crcFeed bs c = (c', 0, 1) ∧ CrcEmpty c' ∧ SameResult c c' ∧ c'.mid = d.mid ∧ c'.plen = d.plen)

/-- 43_crc32_framer.md R225: CRC.FEED of nothing changes no U3 state when U3 is at rest, which every command
leaves it at, with its buffer in canonical form. -/
def Obligations.EmptyCrcFeedChangesNothing : Prop :=
  ∀ (ua : Byte) (s : State), s.crc.Legal → s.crc.AtRest →
    exec (.crcFeed ua 0) s = .next { s with
      res := { s.res with r0 := 0, r1 := 0 }, status := ⟨.ok, s.crc.ready, false⟩ }

/-- 43_crc32_framer.md R211, R216, R217: how the bytes are cut into feeds does not matter: two feeds accept and
discard what one feed of both does, and leave U3 holding the same bytes in the same state (the bytes of the buffer above them, which no rule
reads, may differ). -/
def Obligations.CrcFeedsJoin : Prop :=
  ∀ (a b : List Byte) (c : Crc), c.Legal → c.AtRest →
    let one := crcFeed (a ++ b) c
    let fst := crcFeed a c
    let snd := crcFeed b fst.1
    SameStream one.1 snd.1 ∧ one.2.1 = fst.2.1 + snd.2.1 ∧ one.2.2 = fst.2.2 + snd.2.2

/-- 43_crc32_framer.md R218: CRC.TAKE. -/
def Obligations.CrcTakeReadsAndClears : Prop :=
  ∀ (ua : Byte) (ub : Half) (s : State),
    OpcodeIs (.crcTake ua ub) 0x32000000 ∧
    exec (.crcTake ua ub) s = .next { s with
      crc := { s.crc with ready := false }
      res := { s.res with r0 := if s.crc.ready then 1 else 0 }
      status := ⟨.ok, s.crc.ready, false⟩ }

/-- 43_crc32_framer.md R220 to R223: CRC.FIELD gives the little-endian bits of its field of the accepted frame,
CRC.NORM the free norm of its fields' bits. Offsets, widths and norms are free values: this holds for
every one of them. The model's choices are that the 18 entries 30_encoding.md R100 names are in the layout
(log entry 7; the first clause) and that the norms take raw words zero-extended to 64 bits (log entry
8). -/
def Obligations.CrcFieldAndNorm : Prop :=
  ∀ (j : Byte) (ub : Half) (s : State),
    let raw (f : FieldSpec) : DWord := BitVec.ofNat 64 (littleEndian s.crc.res (24 + f.offset) f.width)
    let named (f : AgricbField) : DWord := raw (Config.agricbNamed f)
    let norm : DWord :=
      if j = 0 then Config.norm2 (named .posStd0) (named .posStd1)
      else if j = 1 then Config.norm3 (named .posStd0) (named .posStd1) (named .posStd2)
      else if j = 2 then Config.norm2 (named .velStdN) (named .velStdE)
      else Config.norm3 (named .velStdN) (named .velStdE) (named .velStdU)
    (j.toNat < 18 → layoutEntry j.toNat ≠ none) ∧
    (layoutEntry j.toNat = none →
      exec (.crcField j ub) s = .next { s with status := ⟨.badArg, false, false⟩ }) ∧
    (∀ f, layoutEntry j.toNat = some f → ¬ AgricbHeld s.crc →
      exec (.crcField j ub) s = .next { s with status := ⟨.noSent, false, false⟩ }) ∧
    (∀ f, layoutEntry j.toNat = some f → AgricbHeld s.crc →
      exec (.crcField j ub) s = .next { s with
        res := { s.res with r0 := (raw f).extractLsb' 0 32, r1 := (raw f).extractLsb' 32 32 }
        status := ⟨.ok, true, false⟩ } ∧
      (f.width ≤ 4 → (raw f).extractLsb' 32 32 = 0)) ∧
    (3 < j.toNat → exec (.crcNorm j ub) s = .next { s with status := ⟨.badArg, false, false⟩ }) ∧
    (j.toNat ≤ 3 → ¬ AgricbHeld s.crc →
      exec (.crcNorm j ub) s = .next { s with status := ⟨.noSent, false, false⟩ }) ∧
    (j.toNat ≤ 3 → AgricbHeld s.crc → exec (.crcNorm j ub) s = .next { s with
      res := { s.res with r0 := norm.extractLsb' 0 32, r1 := norm.extractLsb' 32 32 }
      status := ⟨.ok, true, false⟩ })

/-! ### The block and the whole machine -/

/-- 44_block.md R240, 70_reset_and_hazards.md R271: BLK.RESET gives the power-on state but for the input
windows with their marks and STATUS, which is 0x00000100; the fault mark stays (10_state.md R53). -/
def Obligations.BlkResetRestoresPowerOn : Prop :=
  ∀ (ua : Byte) (ub : Half) (s : State),
    OpcodeIs (.blkReset ua ub) 0xF0000000 ∧
    ∃ t, exec (.blkReset ua ub) s = .next t ∧
      t = { State.reset with
        status := ⟨.ok, true, false⟩, mem := s.mem, faultMark := s.faultMark
        port := s.port, rdata := s.rdata } ∧
      busRead t 0x014 4 = 0x00000100 ∧ busRead t 0x040 4 = 0x00002400 ∧
      busRead t 0x050 4 = 0x00002100 ∧ busRead t 0x070 4 = 0 ∧ busRead t 0x080 4 = 0

/-- The power-on state has legal values, its input windows in canonical form, U3 at rest, field tables
that run forward, and no sentence carried (10_state.md R30, R36, R40, R45; 43_crc32_framer.md R225). -/
def Obligations.ResetIsLegal : Prop :=
  State.reset.Legal ∧ State.reset.crc.AtRest ∧ State.reset.f0.TableRuns ∧ State.reset.f1.TableRuns ∧
    Carried State.reset.f0 [] ∧ Carried State.reset.f1 []

/-- 10_state.md R21, R30, R36, R40, R45: every step keeps every state element at a legal value and the input
windows in canonical form. -/
def Obligations.StepKeepsLegal : Prop := ∀ s t : State, s.Legal → step s = .next t → t.Legal

/-- 43_crc32_framer.md R225: every step leaves U3 at a point where `Run` returns at once. -/
def Obligations.StepKeepsCrcAtRest : Prop :=
  ∀ s t : State, s.Legal → s.crc.AtRest → step s = .next t → t.crc.AtRest

/-- 10_state.md R31, 40_nmea_framer.md R112 to R118: every step keeps the field tables of both framers running
forward inside the stored characters, so that every field is a slice of them, and what a framer holds of a
sentence not yet ended is the beginning of a valid sentence: its fields, its characters and its checksum
are those of the bytes read since the start character. -/
def Obligations.StepKeepsFieldTables : Prop :=
  ∀ s t : State, s.Legal → s.f0.TableRuns → s.f1.TableRuns → step s = .next t →
    (t.f0.TableRuns ∧ t.f1.TableRuns) ∧
    ((∃ w, Carried s.f0 w) → ∃ w, Carried t.f0 w) ∧ ((∃ w, Carried s.f1 w) → ∃ w, Carried t.f1 w)

/-- 60_exceptions.md R251, R261; 00_scope.md R9: a command ends in fail, with nothing but STATUS changed, in a
model fault, with nothing but the mark changed, or in finish. That a model fault records itself over an
earlier one is the model's choice (log entry 3). -/
def Obligations.CommandEndsInOneOfThreeWays : Prop :=
  ∀ (i : Instr) (s : State),
    (∃ code, code ≠ Err.ok ∧ exec i s = .next { s with status := ⟨code, false, false⟩ }) ∨
    (∃ k, exec i s = .next { s with faultMark := some (.unwrittenInput (encode i) k) }) ∨
    (∃ t, exec i s = .next t ∧ t.status.err = .ok ∧ t.faultMark = s.faultMark ∧
      (t.status.res = true → t.status.nodata = false))

/-- 44_block.md R241: a command touches only the state of its own unit, STATUS and RES; BLK.RESET is the one
exception. No command touches an input window, and only BLK.RESET writes ARG (10_state.md R23, R50). -/
def Obligations.CommandsTouchTheirUnitOnly : Prop :=
  ∀ (i : Instr) (s t : State), exec i s = .next t →
    t.mem = s.mem ∧ t.port = s.port ∧ t.rdata = s.rdata ∧
    (∀ u j, inByte t.mem u j = inByte s.mem u j) ∧
    (unit i ≠ 15 → t.args = s.args) ∧
    (unit i ≠ 15 → unit i ≠ 0 → t.f0 = s.f0 ∧
      ∀ a, 0x5000 ≤ a → a < 0x5240 → windowByte t a = windowByte s a) ∧
    (unit i ≠ 15 → unit i ≠ 1 → t.f1 = s.f1 ∧ t.ais = s.ais ∧
      ∀ a, 0x6000 ≤ a → a < 0x7000 → windowByte t a = windowByte s a) ∧
    (unit i ≠ 15 → unit i ≠ 2 → t.slots = s.slots ∧
      ∀ a, 0x10000 ≤ a → a < 0x18000 → windowByte t a = windowByte s a) ∧
    (unit i ≠ 15 → unit i ≠ 3 → t.crc = s.crc ∧
      ∀ a, 0x7000 ≤ a → a < 0x7400 → windowByte t a = windowByte s a)

/-- 44_block.md R242: commands to different units commute, but for STATUS, RES and what a model fault
records. -/
def Obligations.UnitsCommute : Prop :=
  ∀ (i j : Instr) (s : State), unit i ≠ unit j → unit i ≠ 15 → unit j ≠ 15 →
    ∃ t t', andThen i j s = .next t ∧ andThen j i s = .next t' ∧
      t' = { t with status := t'.status, res := t'.res, faultMark := t'.faultMark }

/-- 10_state.md R53, 60_exceptions.md R261: nothing clears the fault mark. -/
def Obligations.FaultMarkIsNeverCleared : Prop :=
  ∀ s t : State, step s = .next t → s.faultMark ≠ none → t.faultMark ≠ none
end

