-- ==== Sys2Proof/Laws/Cells.lean ====
section
/-!
SUPPORT. Buffers and input windows: what a write does to every read, that every write keeps the canonical
form, that equal contents of canonical buffers are equal data, and what a string read from an input
window is.
-/

namespace Sys2Proof.Machine

variable {α : Type} {w : Nat}

/-! ### Cells -/

theorem cellsFind_append (l r : List (Nat × α)) (i : Nat) :
    cellsFind (l ++ r) i = (cellsFind l i).or (cellsFind r i) := by
  induction l with
  | nil => simp [cellsFind]
  | cons c t ih => obtain ⟨j, v⟩ := c; by_cases h : j = i <;> simp [cellsFind, h, ih]

/-- Keeping entries by their index alone keeps the find at an index that is kept. -/
theorem cellsFind_filter_key (l : List (Nat × α)) (p : Nat → Bool) (i : Nat) :
    cellsFind (l.filter (fun c => p c.1)) i = if p i then cellsFind l i else none := by
  induction l with
  | nil => simp [cellsFind]
  | cons c t ih =>
    obtain ⟨j, v⟩ := c
    by_cases h : j = i
    · subst h
      by_cases hp : p j = true <;> simp [cellsFind, hp, ih]
    · by_cases hp : p j = true <;> simp [cellsFind, hp, ih, h]

theorem cellsFind_cellsOf (vs : List α) (i j : Nat) :
    cellsFind (cellsOf i vs) j = if i ≤ j then vs[j - i]? else none := by
  induction vs generalizing i with
  | nil => simp [cellsOf, cellsFind]
  | cons v t ih =>
    rw [cellsOf, cellsFind, ih]
    rcases Nat.lt_trichotomy i j with h | h | h
    · rw [if_neg (by omega), if_pos (by omega), if_pos (by omega),
        show j - i = (j - (i + 1)) + 1 from by omega, List.getElem?_cons_succ]
    · subst h; simp
    · rw [if_neg (by omega), if_neg (by omega), if_neg (by omega)]

theorem cellsFind_splice (l mid : List (Nat × α)) (i n j : Nat) :
    cellsFind (cellsSplice l i n mid) j =
      if j < i then (cellsFind l j).or (cellsFind mid j)
      else (cellsFind mid j).or (if i + n ≤ j then cellsFind l j else none) := by
  have hl := cellsFind_filter_key l (fun k => decide (k < i)) j
  have hr := cellsFind_filter_key l (fun k => decide (i + n ≤ k)) j
  rw [cellsSplice, cellsFind_append, cellsFind_append, hl, hr]
  by_cases h : j < i
  · simp [h, show ¬ i + n ≤ j by omega]
  · simp [h]

theorem mem_cellsOf {vs : List α} {i : Nat} {c : Nat × α} (h : c ∈ cellsOf i vs) :
    i ≤ c.1 ∧ c.1 < i + vs.length := by
  induction vs generalizing i with
  | nil => simp [cellsOf] at h
  | cons v t ih =>
    simp only [cellsOf, List.mem_cons, List.length_cons] at h ⊢
    rcases h with rfl | h
    · simp
    · have := ih h; omega

theorem cellsOf_rise (vs : List α) (i : Nat) : CellsRise (cellsOf i vs) := by
  induction vs generalizing i with
  | nil => simp [cellsOf]
  | cons v t ih =>
    refine List.pairwise_cons.2 ⟨fun c hc => ?_, ih (i + 1)⟩
    have := mem_cellsOf hc
    simp only
    omega

/-- A splice of rising cells that lie in its own range keeps the indices rising. -/
theorem cellsSplice_rise {l mid : List (Nat × α)} {i n : Nat} (hl : CellsRise l) (hm : CellsRise mid)
    (hr : ∀ c ∈ mid, i ≤ c.1 ∧ c.1 < i + n) : CellsRise (cellsSplice l i n mid) := by
  refine List.pairwise_append.2 ⟨List.pairwise_append.2 ⟨hl.filter _, hm, ?_⟩, hl.filter _, ?_⟩
  · intro a ha b hb
    have h1 := (List.mem_filter.1 ha).2
    have h2 := hr b hb
    simp only [decide_eq_true_eq] at h1
    omega
  · intro a ha b hb
    have h2 := (List.mem_filter.1 hb).2
    simp only [decide_eq_true_eq] at h2
    rcases List.mem_append.1 ha with h | h
    · have h1 := (List.mem_filter.1 h).2
      simp only [decide_eq_true_eq] at h1
      omega
    · have := hr a h
      omega

theorem mem_cellsSplice {l mid : List (Nat × α)} {i n : Nat} {c : Nat × α}
    (h : c ∈ cellsSplice l i n mid) : c ∈ l ∨ c ∈ mid := by
  simp only [cellsSplice, List.mem_append, List.mem_filter] at h
  tauto

/-! ### Buffers -/

theorem bufGet_nil (i : Nat) : bufGet ([] : Buf w) i = 0 := rfl

/-- The listed cells of a string hold its entries, an unlisted one being 0. -/
theorem cellsFind_nonzero (vs : List (BitVec w)) (i j : Nat) :
    (cellsFind ((cellsOf i vs).filter (fun c => c.2 ≠ 0)) j).getD 0 =
      if i ≤ j then vs.getD (j - i) 0 else 0 := by
  induction vs generalizing i with
  | nil => simp [cellsOf, cellsFind]
  | cons v t ih =>
    have ht := ih (i + 1)
    rw [cellsOf, List.filter_cons]
    rcases Nat.lt_trichotomy i j with h | h | h
    · rw [if_pos (show i + 1 ≤ j by omega)] at ht
      have hj : j - i = (j - (i + 1)) + 1 := by omega
      rw [if_pos (show i ≤ j by omega), hj, List.getD_cons_succ, ← ht]
      split
      · rw [cellsFind, if_neg (by omega)]
      · rfl
    · subst h
      rw [if_neg (show ¬ i + 1 ≤ i by omega)] at ht
      by_cases hv : v = 0
      · simpa [hv] using ht
      · rw [if_pos (by simpa using hv)]
        simp [cellsFind]
    · rw [if_neg (show ¬ i + 1 ≤ j by omega)] at ht
      rw [if_neg (show ¬ i ≤ j by omega)]
      split
      · rw [cellsFind, if_neg (by omega)]
        exact ht
      · exact ht

/-- A write to a buffer gives the written entries inside its range and leaves every other one. -/
theorem bufGet_bufWrite (b : Buf w) (i : Nat) (vs : List (BitVec w)) (j : Nat) :
    bufGet (bufWrite b i vs) j =
      if i ≤ j ∧ j < i + vs.length then vs.getD (j - i) 0 else bufGet b j := by
  have hnone : ∀ k, k < i ∨ i + vs.length ≤ k →
      cellsFind ((cellsOf i vs).filter (fun c => c.2 ≠ 0)) k = none := by
    intro k hk
    have : ∀ l : List (Nat × BitVec w), (∀ c ∈ l, c.1 ≠ k) → cellsFind l k = none := by
      intro l
      induction l with
      | nil => simp [cellsFind]
      | cons c t ih =>
        intro h
        obtain ⟨a, v⟩ := c
        have h1 : ¬ a = k := h (a, v) (by simp)
        rw [cellsFind, if_neg h1]
        exact ih (fun c hc => h c (by simp [hc]))
    refine this _ (fun c hc => ?_)
    have := mem_cellsOf (List.mem_of_mem_filter hc)
    omega
  rw [bufGet, bufWrite, cellsFind_splice]
  by_cases h1 : j < i
  · rw [if_pos h1, hnone j (.inl h1), Option.or_none, if_neg (fun h => by omega), bufGet]
  · by_cases h2 : i + vs.length ≤ j
    · rw [if_neg h1, if_pos h2, hnone j (.inr h2), Option.none_or, if_neg (fun h => by omega), bufGet]
    · have hin : i ≤ j ∧ j < i + vs.length := ⟨by omega, by omega⟩
      rw [if_neg h1, if_neg h2, Option.or_none, cellsFind_nonzero, if_pos hin.1, if_pos hin]

/-- A write keeps a buffer's canonical form when it stays inside the buffer. -/
theorem bufWrite_wf {cap : Nat} {b : Buf w} {i : Nat} {vs : List (BitVec w)} (hb : Buf.wf cap b)
    (hi : i + vs.length ≤ cap) : Buf.wf cap (bufWrite b i vs) := by
  have hin : ∀ c ∈ (cellsOf i vs).filter (fun c => c.2 ≠ 0), i ≤ c.1 ∧ c.1 < i + vs.length :=
    fun c hc => mem_cellsOf (List.mem_of_mem_filter hc)
  refine ⟨cellsSplice_rise hb.1 ((cellsOf_rise vs i).filter _) hin, fun c hc => ?_⟩
  rcases mem_cellsSplice hc with h | h
  · exact hb.2 c h
  · have h1 := hin c h
    have h2 := (List.mem_filter.1 h).2
    exact ⟨by omega, by simpa using h2⟩

theorem nil_wf (cap : Nat) : Buf.wf cap ([] : Buf w) := ⟨List.Pairwise.nil, by simp⟩

/-- A larger capacity allows what a smaller one does. -/
theorem wf_mono {cap cap' : Nat} {b : Buf w} (h : Buf.wf cap b) (hc : cap ≤ cap') : Buf.wf cap' b :=
  ⟨h.1, fun c hcb => ⟨Nat.lt_of_lt_of_le (h.2 c hcb).1 hc, (h.2 c hcb).2⟩⟩

@[simp] theorem bufRead_length (b : Buf w) (i n : Nat) : (bufRead b i n).length = n := by
  simp [bufRead]

theorem bufRead_getElem? (b : Buf w) (i n j : Nat) :
    (bufRead b i n)[j]? = if j < n then some (bufGet b (i + j)) else none := by
  by_cases h : j < n
  · simp [bufRead, h]
  · simp [bufRead, h]

/-- Two reads agree when the entries read agree. -/
theorem bufRead_congr {b b' : Buf w} {i i' n : Nat} (h : ∀ j < n, bufGet b (i + j) = bufGet b' (i' + j)) :
    bufRead b i n = bufRead b' i' n := by
  refine List.ext_getElem? (fun j => ?_)
  rw [bufRead_getElem?, bufRead_getElem?]
  by_cases hj : j < n
  · simp [hj, h j hj]
  · simp [hj]

/-- What was written is what is read back. -/
theorem bufRead_bufWrite_self (b : Buf w) (i : Nat) (vs : List (BitVec w)) :
    bufRead (bufWrite b i vs) i vs.length = vs := by
  refine List.ext_getElem? (fun j => ?_)
  rw [bufRead_getElem?]
  by_cases hj : j < vs.length
  · simp [hj, bufGet_bufWrite]
  · simp [hj]

/-- A read split in two. -/
theorem bufRead_add (b : Buf w) (i n k : Nat) :
    bufRead b i (n + k) = bufRead b i n ++ bufRead b (i + n) k := by
  simp only [bufRead]
  rw [← List.map_append, List.range'_append_1]

/-- Equal contents of canonical buffers are equal data. -/
theorem buf_ext {cap cap' : Nat} {b b' : Buf w} (hb : Buf.wf cap b) (hb' : Buf.wf cap' b')
    (h : ∀ i, bufGet b i = bufGet b' i) : b = b' := by
  have hfind : ∀ {n : Nat} {l : Buf w}, Buf.wf n l → ∀ c ∈ l, bufGet l c.1 = c.2 := by
    intro n l
    induction l with
    | nil => simp
    | cons d t ih =>
      intro hl c hc
      obtain ⟨a, v⟩ := d
      have hlp := List.pairwise_cons.1 hl.1
      have ht : Buf.wf n t := ⟨hlp.2, fun e he => hl.2 e (by simp [he])⟩
      rcases List.mem_cons.1 hc with rfl | hct
      · simp [bufGet, cellsFind]
      · have hlt := hlp.1 c hct
        have := ih ht c hct
        simp only [bufGet, cellsFind] at this ⊢
        rw [if_neg (by simp only at hlt; omega)]
        exact this
  have hnot : ∀ {l : Buf w} {k : Nat}, (∀ c ∈ l, c.1 ≠ k) → bufGet l k = 0 := by
    intro l k
    induction l with
    | nil => simp [bufGet, cellsFind]
    | cons d t ih =>
      intro hk
      obtain ⟨a, v⟩ := d
      have h1 : ¬ a = k := hk (a, v) (by simp)
      have := ih (fun c hc => hk c (by simp [hc]))
      simpa [bufGet, cellsFind, h1] using this
  have hsub : ∀ {n n' : Nat} {l l' : Buf w}, Buf.wf n l → Buf.wf n' l' → (∀ i, bufGet l i = bufGet l' i) →
      ∀ c ∈ l, c ∈ l' := by
    intro n n' l l' hl hl' hg c hc
    have h1 := hfind hl c hc
    by_contra hn
    have h2 : bufGet l' c.1 = c.2 := by rw [← hg, h1]
    by_cases hex : ∃ d ∈ l', d.1 = c.1
    · obtain ⟨d, hd, hdc⟩ := hex
      have h3 := hfind hl' d hd
      rw [hdc, h2] at h3
      exact hn (by rw [show c = d from Prod.ext hdc.symm h3]; exact hd)
    · have h3 : bufGet l' c.1 = 0 := hnot (fun d hd hdc => hex ⟨d, hd, hdc⟩)
      exact (hl.2 c hc).2 (by rw [← h2, h3])
  have hp : b.Perm b' := by
    refine (List.perm_ext_iff_of_nodup ?_ ?_).2
      (fun c => ⟨hsub hb hb' h c, hsub hb' hb (fun i => (h i).symm) c⟩)
    · exact hb.1.imp (fun hlt heq => by rw [heq] at hlt; omega)
    · exact hb'.1.imp (fun hlt heq => by rw [heq] at hlt; omega)
  exact hp.eq_of_pairwise (fun a c _ _ h1 h2 => by omega) hb.1 hb'.1

/-! ### Input windows -/

/-- A host write gives its bytes at their addresses and leaves every other address. -/
theorem memGet_memWrite (m : Memory) (a : Nat) (bs : List Byte) (x : Nat) :
    memGet (memWrite m a bs) x = if a ≤ x ∧ x < a + bs.length then bs[x - a]? else memGet m x := by
  rw [memGet, memWrite, cellsFind_splice, cellsFind_cellsOf]
  by_cases h1 : x < a
  · simp [h1, show ¬ a ≤ x by omega, memGet]
  · by_cases h2 : a + bs.length ≤ x
    · have h3 : bs[x - a]? = none := List.getElem?_eq_none (by omega)
      simp [h1, h2, h3, show ¬ x < a + bs.length by omega, memGet]
    · simp [h1, h2, show a ≤ x by omega, show x < a + bs.length by omega]

/-- A host write inside the input windows keeps their canonical form. -/
theorem memWrite_wf {m : Memory} {a : Nat} {bs : List Byte} (hm : Memory.wf m) (h1 : 0x01000 ≤ a)
    (h2 : a + bs.length ≤ 0x05000) : Memory.wf (memWrite m a bs) := by
  refine ⟨cellsSplice_rise hm.1 (cellsOf_rise bs a) (fun c hc => mem_cellsOf hc), fun c hc => ?_⟩
  rcases mem_cellsSplice hc with h | h
  · exact hm.2 c h
  · have := mem_cellsOf h
    omega

theorem reset_mem_wf : Memory.wf State.reset.mem := by decide

/-- A string read from an input window: either every byte of the range is written and these are they, or
the index recorded is that of the first byte that is not. -/
theorem inBytes_spec (m : Memory) (u i n : Nat) :
    match inBytes m u i n with
    | .ok bs => bs.length = n ∧ ∀ j < n, inByte m u (i + j) = bs[j]?
    | .error k => i ≤ k ∧ k < i + n ∧ inByte m u k = none ∧ ∀ j, i ≤ j → j < k → inByte m u j ≠ none := by
  induction n generalizing i with
  | zero => simp [inBytes]
  | succ n ih =>
    have hi := ih (i + 1)
    rcases hb : inByte m u i with _ | b
    · simp only [inBytes, hb]
      exact ⟨by omega, by omega, trivial, by omega⟩
    · rcases hr : inBytes m u (i + 1) n with k | bs
      · rw [hr] at hi
        simp only [inBytes, hb, hr]
        obtain ⟨h1, h2, h3, h4⟩ := hi
        refine ⟨by omega, by omega, h3, fun j hj1 hj2 => ?_⟩
        rcases Nat.eq_or_lt_of_le hj1 with rfl | h
        · simp [hb]
        · exact h4 j h hj2
      · rw [hr] at hi
        simp only [inBytes, hb, hr]
        refine ⟨by simp [hi.1], fun j hj => ?_⟩
        cases j with
        | zero => simp [hb]
        | succ j =>
          rw [List.getElem?_cons_succ, ← hi.2 j (by omega)]
          congr 1
          omega

/-- A range whose bytes are all written is read whole. -/
theorem inBytes_of_written {m : Memory} {u i n : Nat} (h : ∀ j, i ≤ j → j < i + n → inByte m u j ≠ none) :
    ∃ bs, inBytes m u i n = .ok bs ∧ bs.length = n ∧ ∀ j < n, inByte m u (i + j) = bs[j]? := by
  have hs := inBytes_spec m u i n
  rcases hr : inBytes m u i n with k | bs
  · rw [hr] at hs
    exact absurd hs.2.2.1 (h k hs.1 hs.2.1)
  · rw [hr] at hs
    exact ⟨bs, rfl, hs⟩

/-! ### Slots -/

theorem slotGet_slotSet (v : Vector Slot 8) (k j : Nat) (S : Slot) :
    slotGet (slotSet v k S) j = if j = k ∧ k < 8 then S else slotGet v j := by
  by_cases hk : k < 8
  · by_cases h : j = k
    · subst h; simp [slotGet, slotSet, hk]
    · simp [slotGet, slotSet, hk, h, Ne.symm h]
  · have : slotSet v k S = v := by
      ext i hi
      have : k ≠ i := by omega
      simp [slotSet, this]
    simp [this, hk]

end Sys2Proof.Machine
end

