-- ==== Sys2Proof/Laws/Framer.lean ====
section
/-!
SUPPORT. What the byte step and the feed loop of the framer can do (40_nmea_framer.md R110 to R120).
-/

namespace Sys2Proof.Machine

/-- Everything a byte step can do, case by case (R110 to R118). -/
theorem framerStep_cases (F : Framer) (b : Byte) :
    (printable b = false ∧ framerStep F b = ({ F with st := .idle }, false)) ∨
    (printable b = true ∧ b = F.start ∧ framerStep F b = (framerOpen F, false)) ∨
    (printable b = true ∧ b ≠ F.start ∧ F.st = .idle ∧ framerStep F b = (F, false)) ∨
    (printable b = true ∧ b ≠ F.start ∧ F.st = .body ∧ b = 0x2C ∧ framerStep F b = (framerComma F, false)) ∨
    (printable b = true ∧ b ≠ F.start ∧ F.st = .body ∧ b = 0x2A ∧
      framerStep F b = ({ F with st := .ck1 }, false)) ∨
    (printable b = true ∧ b ≠ F.start ∧ F.st = .body ∧ b ≠ 0x2C ∧ b ≠ 0x2A ∧
      framerStep F b = (framerStore F b, false)) ∨
    (printable b = true ∧ b ≠ F.start ∧ F.st = .ck1 ∧
      framerStep F b = ({ F with st := if b = hexHi F.cs then .ck2 else .idle }, false)) ∨
    (printable b = true ∧ b ≠ F.start ∧ F.st = .ck2 ∧
      framerStep F b = ({ F with st := .idle }, decide (b = hexLo F.cs))) := by
  unfold framerStep
  by_cases hp : printable b = true
  · rw [if_neg (not_not.2 hp)]
    by_cases hs : b = F.start
    · rw [if_pos hs]
      exact .inr (.inl ⟨hp, hs, rfl⟩)
    · rw [if_neg hs]
      rcases hst : F.st with _ | _ | _ | _
      · exact .inr (.inr (.inl ⟨hp, hs, rfl, rfl⟩))
      · simp only
        by_cases h1 : b = 0x2C
        · rw [if_pos h1]
          exact .inr (.inr (.inr (.inl ⟨hp, hs, trivial, h1, rfl⟩)))
        · rw [if_neg h1]
          by_cases h2 : b = 0x2A
          · rw [if_pos h2]
            exact .inr (.inr (.inr (.inr (.inl ⟨hp, hs, trivial, h2, rfl⟩))))
          · rw [if_neg h2]
            exact .inr (.inr (.inr (.inr (.inr (.inl ⟨hp, hs, trivial, h1, h2, rfl⟩)))))
      · exact .inr (.inr (.inr (.inr (.inr (.inr (.inl ⟨hp, hs, rfl, rfl⟩))))))
      · exact .inr (.inr (.inr (.inr (.inr (.inr (.inr ⟨hp, hs, rfl, rfl⟩))))))
  · rw [if_pos hp]
    exact .inl ⟨by simpa using hp, rfl⟩

/-- A byte step leaves the start character, the position, the buffer length and the validity flag. -/
theorem framerStep_keeps (F : Framer) (b : Byte) :
    (framerStep F b).1.start = F.start ∧ (framerStep F b).1.pos = F.pos ∧
      (framerStep F b).1.len = F.len ∧ (framerStep F b).1.valid = F.valid := by
  rcases framerStep_cases F b with h | h | h | h | h | h | h | h
  · simp [h.2]
  · simp [h.2.2, framerOpen]
  · simp [h.2.2.2]
  · rw [h.2.2.2.2]; unfold framerComma; split <;> simp
  · simp [h.2.2.2.2]
  · rw [h.2.2.2.2.2]; unfold framerStore; split <;> simp
  · simp [h.2.2.2]
  · simp [h.2.2.2]

/-- COMPLETE is answered only by a matching second digit, and leaves the framer in IDLE (R118). -/
theorem framerStep_complete {F : Framer} {b : Byte} (h : (framerStep F b).2 = true) :
    F.st = .ck2 ∧ b = hexLo F.cs ∧ (framerStep F b).1 = { F with st := .idle } := by
  rcases framerStep_cases F b with h' | h' | h' | h' | h' | h' | h' | h'
  · simp [h'.2] at h
  · simp [h'.2.2] at h
  · simp [h'.2.2.2] at h
  · simp [h'.2.2.2.2] at h
  · simp [h'.2.2.2.2] at h
  · simp [h'.2.2.2.2.2] at h
  · simp [h'.2.2.2] at h
  · simp only [h'.2.2.2, decide_eq_true_eq] at h
    exact ⟨h'.2.2.1, h, by simp [h'.2.2.2]⟩

/-- Everything the loop over at most `n` bytes can do (R120): stop at an unwritten byte, run through all
`n`, or complete a sentence earlier; the bytes passed are all written. -/
theorem framerScan_spec (m : Memory) (u n : Nat) (F : Framer) (hn : F.pos.toNat + n < 8192) :
    match framerScan m u n F with
    | .error k => F.pos.toNat ≤ k ∧ k < F.pos.toNat + n ∧ inByte m u k = none ∧
        ∀ j, F.pos.toNat ≤ j → j < k → inByte m u j ≠ none
    | .ok (F', r) => F'.start = F.start ∧ F'.len = F.len ∧ F'.valid = (r || F.valid) ∧
        F.pos.toNat ≤ F'.pos.toNat ∧ F'.pos.toNat ≤ F.pos.toNat + n ∧
        (r = false → F'.pos.toNat = F.pos.toNat + n) ∧
        (r = true → F.pos.toNat < F'.pos.toNat ∧ F'.st = .idle) ∧
        ∀ j, F.pos.toNat ≤ j → j < F'.pos.toNat → inByte m u j ≠ none := by
  induction n generalizing F with
  | zero => simp only [framerScan]; simp; omega
  | succ n ih =>
    rw [framerScan]
    rcases hb : inByte m u F.pos.toNat with _ | b
    · simp only
      exact ⟨Nat.le_refl _, by omega, hb, by omega⟩
    · simp only
      have hpos : (F.pos + 1).toNat = F.pos.toNat + 1 := by
        rw [BitVec.toNat_add]; simp; omega
      have hk := framerStep_keeps { F with pos := F.pos + 1 } b
      have hc := @framerStep_complete { F with pos := F.pos + 1 } b
      rcases hs : framerStep { F with pos := F.pos + 1 } b with ⟨F', r⟩
      rw [hs] at hk hc
      obtain ⟨h1, h2, h3, h4⟩ := hk
      simp only at h1 h2 h3 h4
      have hp' : F'.pos.toNat = F.pos.toNat + 1 := by rw [h2, hpos]
      rcases r with _ | _
      · simp only
        have hi := ih F' (by omega)
        rcases hr : framerScan m u n F' with k | ⟨G, r⟩
        · rw [hr] at hi
          simp only at hi ⊢
          obtain ⟨i1, i2, i3, i4⟩ := hi
          refine ⟨by omega, by omega, i3, fun j hj1 hj2 => ?_⟩
          rcases Nat.eq_or_lt_of_le hj1 with rfl | hlt
          · simp [hb]
          · exact i4 j (by omega) hj2
        · rw [hr] at hi
          simp only at hi ⊢
          obtain ⟨i1, i2, i3, i4, i5, i6, i7, i8⟩ := hi
          refine ⟨by rw [i1, h1], by rw [i2, h3], by rw [i3, h4], by omega, by omega,
            fun h => by have := i6 h; omega, fun h => ⟨by omega, (i7 h).2⟩, fun j hj1 hj2 => ?_⟩
          rcases Nat.eq_or_lt_of_le hj1 with rfl | hlt
          · simp [hb]
          · exact i8 j (by omega) hj2
      · simp only
        refine ⟨h1, h3, rfl, by omega, by omega, by simp, fun _ => ⟨by omega, ?_⟩, fun j hj1 hj2 => ?_⟩
        · rw [show F' = _ from (hc rfl).2.2]
        · have : j = F.pos.toNat := by omega
          subst this
          simp [hb]

/-- Everything `FramerRun` can do (R120), from a position inside its buffer. -/
theorem framerRun_spec (m : Memory) (u : Nat) (F : Framer) (hp : F.pos.toNat ≤ F.len.toNat) :
    match framerRun m u F with
    | .error k => F.pos.toNat ≤ k ∧ k < F.len.toNat ∧ inByte m u k = none ∧
        ∀ j, F.pos.toNat ≤ j → j < k → inByte m u j ≠ none
    | .ok (F', r) => F'.start = F.start ∧ F'.len = F.len ∧ F'.valid = r ∧
        F.pos.toNat ≤ F'.pos.toNat ∧ F'.pos.toNat ≤ F.len.toNat ∧
        (r = false → F'.pos = F.len) ∧ (r = true → F.pos.toNat < F'.pos.toNat ∧ F'.st = .idle) ∧
        ∀ j, F.pos.toNat ≤ j → j < F'.pos.toNat → inByte m u j ≠ none := by
  have hlen := F.len.isLt
  have h := framerScan_spec m u (F.len.toNat - F.pos.toNat) { F with valid := false }
    (by simp only; omega)
  rw [framerRun]
  rcases hr : framerScan m u (F.len.toNat - F.pos.toNat) { F with valid := false } with k | ⟨G, r⟩
  · rw [hr] at h
    simp only at h ⊢
    exact ⟨h.1, by omega, h.2.2⟩
  · rw [hr] at h
    simp only at h ⊢
    obtain ⟨h1, h2, h3, h4, h5, h6, h7, h8⟩ := h
    exact ⟨h1, h2, by simpa using h3, h4, by omega,
      fun hf => BitVec.eq_of_toNat_eq (by have := h6 hf; omega), h7, h8⟩

/-- A run whose bytes are all written ends without a model fault. -/
theorem framerRun_of_written {m : Memory} {u : Nat} {F : Framer} (hp : F.pos.toNat ≤ F.len.toNat)
    (hw : ∀ j, F.pos.toNat ≤ j → j < F.len.toNat → inByte m u j ≠ none) :
    ∃ F' r, framerRun m u F = .ok (F', r) := by
  have h := framerRun_spec m u F hp
  rcases hr : framerRun m u F with k | ⟨F', r⟩
  · rw [hr] at h
    exact absurd h.2.2.1 (hw k h.1 h.2.1)
  · exact ⟨F', r, rfl⟩

end Sys2Proof.Machine
end

