-- ==== Sys2Proof/Laws/Ais.lean ====
section
/-!
SUPPORT. The AIS feed loop without its bound (41_ais.md R150), what it can do, and what reassembly leaves.
-/

namespace Sys2Proof.Machine

/-- A larger bound changes nothing once the bound covers the bytes left. -/
theorem aisLoop_bound (m : Memory) (n k : Nat) (F : Framer) (A : Ais) (hp : F.pos.toNat ≤ F.len.toNat)
    (hn : F.len.toNat - F.pos.toNat < n) : aisLoop m (n + k) F A = aisLoop m n F A := by
  induction n generalizing F A with
  | zero => omega
  | succ n ih =>
    rw [Nat.succ_add, aisLoop, aisLoop]
    have hr := framerRun_spec m 1 F hp
    rcases hf : framerRun m 1 F with e | ⟨F', r⟩
    · rfl
    · rw [hf] at hr
      simp only at hr
      obtain ⟨-, h2, -, -, h5, -, h7, -⟩ := hr
      rcases r with _ | _
      · rfl
      · have hlt := (h7 rfl).1
        simp only
        rcases ho : aisOffer F' A with ⟨A', e⟩
        rcases e with _ | _
        · simp only
          exact ih F' A' (by rw [h2]; omega) (by rw [h2]; omega)
        · rfl

/-- `AisRun` as R150 writes it, with no bound: run the framer, and go on unless the buffer ended or a
message was emitted. -/
theorem aisRun_eq (m : Memory) (F : Framer) (A : Ais) (hp : F.pos.toNat ≤ F.len.toNat) :
    aisRun m F A =
      match framerRun m 1 F with
      | .error i => .error i
      | .ok (F', false) => .ok (F', A, false)
      | .ok (F', true) =>
        match aisOffer F' A with
        | (A', true) => .ok (F', A', true)
        | (A', false) => aisRun m F' A' := by
  rw [aisRun, aisLoop]
  have hr := framerRun_spec m 1 F hp
  rcases hf : framerRun m 1 F with e | ⟨F', r⟩
  · rfl
  · rw [hf] at hr
    simp only at hr
    obtain ⟨-, h2, -, -, h5, -, h7, -⟩ := hr
    rcases r with _ | _
    · rfl
    · have hlt := (h7 rfl).1
      simp only
      rcases ho : aisOffer F' A with ⟨A', e⟩
      rcases e with _ | _
      · simp only
        have hb := aisLoop_bound m (F'.len.toNat - F'.pos.toNat + 1)
          (F.len.toNat - F.pos.toNat - (F'.len.toNat - F'.pos.toNat + 1)) F' A' (by rw [h2]; omega)
          (by omega)
        rw [aisRun, ← hb]
        congr 1
        rw [h2]
        omega
      · rfl

/-- Everything the AIS loop can do to U1's framer: stop at an unwritten byte of the buffer, or end inside
the buffer, at its end when no message was emitted. -/
theorem aisLoop_spec (m : Memory) (n : Nat) (F : Framer) (A : Ais) (hp : F.pos.toNat ≤ F.len.toNat)
    (hn : F.len.toNat - F.pos.toNat < n) :
    match aisLoop m n F A with
    | .error k => F.pos.toNat ≤ k ∧ k < F.len.toNat ∧ inByte m 1 k = none
    | .ok (F', _, r) => F'.start = F.start ∧ F'.len = F.len ∧ F'.valid = r ∧
        F.pos.toNat ≤ F'.pos.toNat ∧ F'.pos.toNat ≤ F.len.toNat ∧ (r = false → F'.pos = F.len) := by
  induction n generalizing F A with
  | zero => omega
  | succ n ih =>
    rw [aisLoop]
    have hr := framerRun_spec m 1 F hp
    rcases hf : framerRun m 1 F with e | ⟨F', r⟩
    · rw [hf] at hr
      exact ⟨hr.1, hr.2.1, hr.2.2.1⟩
    · rw [hf] at hr
      simp only at hr
      obtain ⟨h1, h2, h3, h4, h5, h6, h7, -⟩ := hr
      rcases r with _ | _
      · exact ⟨h1, h2, h3, h4, h5, h6⟩
      · have hlt := (h7 rfl).1
        simp only
        rcases ho : aisOffer F' A with ⟨A', e⟩
        rcases e with _ | _
        · simp only
          have hi := ih F' A' (by rw [h2]; omega) (by rw [h2]; omega)
          rcases hl : aisLoop m n F' A' with k | ⟨G, B, r⟩
          · rw [hl] at hi
            simp only at hi ⊢
            rw [h2] at hi
            exact ⟨by omega, hi.2⟩
          · rw [hl] at hi
            simp only at hi ⊢
            rw [h2] at hi
            obtain ⟨i1, i2, i3, i4, i5, i6⟩ := hi
            exact ⟨by rw [i1, h1], i2, i3, by omega, i5, i6⟩
        · exact ⟨h1, h2, h3, h4, h5, by simp⟩

/-- A drain whose bytes are all written ends without a model fault. -/
theorem aisRun_of_written {m : Memory} {F : Framer} (A : Ais) (hp : F.pos.toNat ≤ F.len.toNat)
    (hw : ∀ j, F.pos.toNat ≤ j → j < F.len.toNat → inByte m 1 j ≠ none) :
    ∃ F' A' r, aisRun m F A = .ok (F', A', r) := by
  have h := aisLoop_spec m (F.len.toNat - F.pos.toNat + 1) F A hp (by omega)
  rw [aisRun]
  rcases hr : aisLoop m (F.len.toNat - F.pos.toNat + 1) F A with k | ⟨F', A', r⟩
  · rw [hr] at h
    exact absurd h.2.2 (hw k h.1 h.2.1)
  · exact ⟨F', A', r, rfl⟩

/-- What each way out of a fragment of index other than 1 leaves (R142, R145 to R148). -/
theorem aisNext_cases (A : Ais) (t x : Int) (p q : List Byte) :
    aisNext A t x p q = (aisClear A, false) ∨
    (x < t ∧ aisNext A t x p q = ({ aisAppend A p with expect := A.expect + 1 }, false)) ∨
    (x = t ∧ aisNext A t x p q =
      (aisClear (aisEmit (aisAppend A p)
        (bufRead (aisAppend A p).acc 0 (aisAppend A p).acclen.toNat)), true)) := by
  unfold aisNext
  split
  · exact .inl rfl
  · split
    · exact .inl rfl
    · split
      · exact .inl rfl
      · simp only
        split
        · rename_i h; exact .inr (.inl ⟨h, rfl⟩)
        · exact .inr (.inr ⟨by omega, rfl⟩)

/-- What reassembly of one sentence can do (R142). -/
theorem reassemble_cases (F : Framer) (A : Ais) :
    reassemble F A = (A, false) ∨
    reassemble F A = (aisEmit A (fieldBytes F 5), true) ∨
    reassemble F A = (aisFirst A (fieldBytes F 5) (fieldBytes F 3), false) ∨
    ∃ t x, x ≠ 1 ∧ reassemble F A = aisNext A t x (fieldBytes F 5) (fieldBytes F 3) := by
  unfold reassemble
  split
  · exact .inl rfl
  · split
    · exact .inr (.inl rfl)
    · split
      · exact .inl rfl
      · split
        · exact .inr (.inr (.inl rfl))
        · rename_i t _ _ _ x _ hx
          exact .inr (.inr (.inr ⟨t, x, hx, rfl⟩))

/-- A bit read has data exactly when its range ends inside the message (R155). -/
theorem readBits_isSome (A : Ais) (b n : Nat) (sg : Bool) :
    (readBits A b n sg).isSome = decide (b + n ≤ 6 * A.msglen.toNat) := by
  unfold readBits
  by_cases h : b + n > 6 * A.msglen.toNat
  · simp [h]
  · simp only [h, if_false]
    split <;> simp <;> omega

/-- An unsigned read with data is the raw number (R155). -/
theorem readBits_unsigned (A : Ais) (b n : Nat) (h : b + n ≤ 6 * A.msglen.toNat) :
    readBits A b n false = some (rawBits A.msg b n : Int) := by
  simp [readBits, Nat.not_lt.2 h]

/-- The raw number of `n` bits has `n` bits. -/
theorem rawBits_lt (m : Buf 8) (b n : Nat) : rawBits m b n < 2 ^ n := by
  unfold rawBits
  induction n with
  | zero => simp
  | succ n ih =>
    rw [List.range_succ, List.foldl_append, List.foldl_cons, List.foldl_nil, Nat.pow_succ]
    have := Bool.toNat_le (bitAt m (b + n))
    omega

end Sys2Proof.Machine
end

