-- ==== Sys2Proof/Laws/Bus.lean ====
section
/-!
SUPPORT. The width and alignment rule, little-endian values, and what a store can do (20_memory.md R62 to
R65).
-/

namespace Sys2Proof.Machine

/-- The accesses R63 allows in the register block. -/
theorem accessOk_reg {a size : Nat} (h : a < 0x01000) : accessOk a size = true ↔ size = 4 ∧ a % 4 = 0 := by
  simp [accessOk, h]

/-- The accesses R63 allows outside the register block. -/
theorem accessOk_window {a size : Nat} (h : ¬ a < 0x01000) :
    accessOk a size = true ↔ (size = 1 ∨ size = 2 ∨ size = 4) ∧ a % size = 0 := by
  simp [accessOk, h]

@[simp] theorem valueBytes_length (v : Word) (n : Nat) : (valueBytes v n).length = n := by
  simp [valueBytes]

/-- A string of `n` bytes is a number below `256 ^ n`. -/
theorem leNat_lt (bs : List Byte) : leNat bs < 256 ^ bs.length := by
  induction bs with
  | nil => simp [leNat]
  | cons b t ih =>
    have := b.isLt
    rw [leNat, List.length_cons, Nat.pow_succ]
    omega

/-- Byte 0 first: the value of a string is its first byte and 256 times the rest (00_scope.md R8). -/
theorem leNat_cons (b : Byte) (bs : List Byte) : leNat (b :: bs) = b.toNat + 256 * leNat bs := rfl

/-- Everything a store can do (R62, R65): a store to the input windows, to one ARG register, or nothing. -/
theorem busStore_cases (s : State) (a size : Nat) (v : Word) :
    (0x01000 ≤ a ∧ a < 0x05000 ∧
      busStore s a size v = { s with mem := memWrite s.mem a (valueBytes v size) }) ∨
    (a = 0x004 ∧ busStore s a size v = { s with args := { s.args with a0 := v } }) ∨
    (a = 0x008 ∧ busStore s a size v = { s with args := { s.args with a1 := v } }) ∨
    (a = 0x00C ∧ busStore s a size v = { s with args := { s.args with a2 := v } }) ∨
    (a = 0x010 ∧ busStore s a size v = { s with args := { s.args with a3 := v } }) ∨
    busStore s a size v = s := by
  unfold busStore
  by_cases h : 0x01000 ≤ a ∧ a < 0x05000
  · rw [if_pos h]
    exact .inl ⟨h.1, h.2, rfl⟩
  · rw [if_neg h]
    split <;> simp

/-- An allowed store inside the input windows stays inside them: none is split over a region's end. -/
theorem store_inside {a size : Nat} (hok : accessOk a size = true) (h1 : 0x01000 ≤ a) (h2 : a < 0x05000) :
    a + size ≤ 0x05000 := by
  obtain ⟨h | h | h, h3⟩ := (accessOk_window (Nat.not_lt.2 h1)).1 hok <;> subst h <;> omega

/-- An allowed store keeps the canonical form of the input windows. -/
theorem busStore_mem_wf {s : State} {a size : Nat} (v : Word) (hm : Memory.wf s.mem)
    (hok : accessOk a size = true) : Memory.wf (busStore s a size v).mem := by
  rcases busStore_cases s a size v with ⟨h1, h2, h⟩ | ⟨-, h⟩ | ⟨-, h⟩ | ⟨-, h⟩ | ⟨-, h⟩ | h <;> rw [h]
  · exact memWrite_wf hm h1 (by simpa using store_inside hok h1 h2)
  all_goals exact hm

end Sys2Proof.Machine
end

