-- ==== Sys2Proof/Laws/Crc.lean ====
section
/-!
SUPPORT. What a turn of U3's `Run` can do, that `Run` ends where it waits (43_crc32_framer.md R211), and
that the CRC's byte update loses nothing of its accumulator.
-/

namespace Sys2Proof.Machine

/-- Everything a turn of `Run` can do (R212 to R215). -/
theorem crcStep_cases (c : Crc) :
    crcStep c = none ∨
    (c.st = .seek ∧ 3 ≤ crcAvail c ∧ bufRead c.acc c.pos.toNat 3 = Config.crcPreamble ∧
      crcStep c = some ({ c with st := .hdr }, 0)) ∨
    (c.st = .seek ∧ 3 ≤ crcAvail c ∧ bufRead c.acc c.pos.toNat 3 ≠ Config.crcPreamble ∧
      crcStep c = some (crcAdvance c 1, 0)) ∨
    (c.st = .hdr ∧ 24 ≤ crcAvail c ∧ ((crcLatch c).mid, (crcLatch c).plen) ∈ Config.crcWhitelist ∧
      crcStep c = some ({ crcLatch c with st := .ver }, 0)) ∨
    (c.st = .hdr ∧ 24 ≤ crcAvail c ∧ ((crcLatch c).mid, (crcLatch c).plen) ∉ Config.crcWhitelist ∧
      crcStep c = some (crcReject (crcLatch c), 0)) ∨
    (c.st = .ver ∧ crcFrameLen c ≤ crcAvail c ∧
      frameCrcOk (bufRead c.acc c.pos.toNat (crcFrameLen c)) = true ∧
      crcStep c = some (crcDeliver c (bufRead c.acc c.pos.toNat (crcFrameLen c)), 1)) ∨
    (c.st = .ver ∧ crcFrameLen c ≤ crcAvail c ∧
      frameCrcOk (bufRead c.acc c.pos.toNat (crcFrameLen c)) = false ∧
      crcStep c = some (crcReject c, 0)) := by
  unfold crcStep
  rcases hst : c.st with _ | _ | _
  · by_cases h : crcAvail c < 3
    · simp [h]
    · by_cases hp : bufRead c.acc c.pos.toNat 3 = Config.crcPreamble
      · simp [h, hp]; omega
      · simp [h, hp]; omega
  · by_cases h : crcAvail c < Config.crcHdrLen
    · simp [h]
    · have h' : 24 ≤ crcAvail c := Nat.not_lt.1 h
      by_cases hw : ((crcLatch c).mid, (crcLatch c).plen) ∈ Config.crcWhitelist
      · simp [h, hw, h']
      · simp [h, hw, h']
  · by_cases h : crcAvail c < crcFrameLen c
    · simp [h]
    · have h' : crcFrameLen c ≤ crcAvail c := Nat.not_lt.1 h
      rcases hf : frameCrcOk (bufRead c.acc c.pos.toNat (crcFrameLen c)) with _ | _
      · simp [h, hf, h']
      · simp [h, hf, h']

/-- The turns a state may still take: three for each byte from the search position on, and its state. -/
def crcMeasure (c : Crc) : Nat :=
  3 * crcAvail c + (match c.st with | .seek => 2 | .hdr => 1 | .ver => 0)

/-- A turn uses up the measure. -/
theorem crcStep_measure {c c' : Crc} {k : Nat} (h : crcStep c = some (c', k)) :
    crcMeasure c' < crcMeasure c := by
  have hf := c.fill.isLt
  have hpos := c.pos.isLt
  have hadv : ∀ n, n ≤ crcAvail c → (c.pos + BitVec.ofNat 11 n).toNat = c.pos.toNat + n := by
    intro n hn
    have : n < 2048 := by unfold crcAvail at hn; omega
    rw [BitVec.toNat_add, BitVec.toNat_ofNat]
    unfold crcAvail at hn
    omega
  rcases crcStep_cases c with e | ⟨hs, ha, -, e⟩ | ⟨hs, ha, -, e⟩ | ⟨hs, ha, -, e⟩ | ⟨hs, ha, -, e⟩ |
    ⟨hs, ha, -, e⟩ | ⟨hs, ha, -, e⟩ <;> rw [h] at e
  · simp at e
  · obtain ⟨rfl, rfl⟩ := Prod.mk.inj (Option.some.inj e)
    simp only [crcMeasure, crcAvail, hs] at ha ⊢
    omega
  · obtain ⟨rfl, rfl⟩ := Prod.mk.inj (Option.some.inj e)
    have := hadv 1 (by omega)
    simp only [crcMeasure, crcAvail, hs, crcAdvance, this] at ha ⊢
    omega
  · obtain ⟨rfl, rfl⟩ := Prod.mk.inj (Option.some.inj e)
    simp only [crcMeasure, crcAvail, hs, crcLatch] at ha ⊢
    omega
  · obtain ⟨rfl, rfl⟩ := Prod.mk.inj (Option.some.inj e)
    have := hadv 3 (by omega)
    simp only [crcMeasure, crcAvail, hs, crcReject, crcAdvance, crcLatch, Config.crcFailStep, this] at ha ⊢
    omega
  · obtain ⟨rfl, rfl⟩ := Prod.mk.inj (Option.some.inj e)
    have h28 : 28 ≤ crcFrameLen c := by
      simp only [crcFrameLen, Config.crcHdrLen, Config.crcTrailer]; omega
    simp only [crcMeasure, crcAvail, hs, crcDeliver, bufRead_length, BitVec.toNat_ofNat] at ha ⊢
    simp only [BitVec.ofNat_eq_ofNat, BitVec.toNat_ofNat]
    omega
  · obtain ⟨rfl, rfl⟩ := Prod.mk.inj (Option.some.inj e)
    have h28 : 28 ≤ crcFrameLen c := by
      simp only [crcFrameLen, Config.crcHdrLen, Config.crcTrailer]; omega
    have := hadv 3 (by omega)
    simp only [crcMeasure, crcAvail, hs, crcReject, crcAdvance, Config.crcFailStep, this] at ha ⊢
    omega

theorem crcTurns_waits (n : Nat) (c : Crc) (d : Nat) (h : crcMeasure c < n) :
    crcStep (crcTurns n c d).1 = none := by
  induction n generalizing c d with
  | zero => omega
  | succ n ih =>
    rw [crcTurns]
    rcases hs : crcStep c with _ | ⟨c', k⟩
    · simpa using hs
    · simp only
      exact ih c' (d + k) (by have := crcStep_measure hs; omega)

/-- `Run` ends where it waits (R211). -/
theorem crcRun_waits (c : Crc) : crcStep (crcRun c).1 = none := by
  refine crcTurns_waits _ c 0 ?_
  unfold crcMeasure
  cases c.st <;> simp only <;> omega

/-- Where it waits, `Run` changes nothing and accepts nothing. -/
theorem crcRun_of_waits {c : Crc} (h : crcStep c = none) : crcRun c = (c, 0) := by
  rw [crcRun, crcTurns, h]

/-- What every turn keeps, `Run` keeps. -/
theorem crcTurns_keeps {P : Crc → Prop} (hP : ∀ c c' k, P c → crcStep c = some (c', k) → P c')
    (n : Nat) (c : Crc) (d : Nat) (h : P c) : P (crcTurns n c d).1 := by
  induction n generalizing c d with
  | zero => exact h
  | succ n ih =>
    rw [crcTurns]
    rcases hs : crcStep c with _ | ⟨c', k⟩
    · exact h
    · exact ih c' (d + k) (hP c c' k h hs)

/-- What a shift of the CRC keeps: the top bit of the result is the bit shifted out, so the accumulator
can be recovered from it. -/
theorem crcShift_injective {x y : Word} (h : crcShift x = crcShift y) : x = y := by
  have hm : ∀ z : Word, (crcShift z).getLsbD 31 = z.getLsbD 0 := by
    intro z
    unfold crcShift
    split
    · rename_i hz
      rw [hz, BitVec.getLsbD_xor, BitVec.getLsbD_ushiftRight, BitVec.getLsbD_of_ge _ _ (by omega)]
      decide
    · rename_i hz
      rw [BitVec.getLsbD_ushiftRight, BitVec.getLsbD_of_ge _ _ (by omega)]
      simpa using hz
  have h0 : x.getLsbD 0 = y.getLsbD 0 := by rw [← hm x, ← hm y, h]
  have hs : x >>> 1 = y >>> 1 := by
    unfold crcShift at h
    rw [h0] at h
    split at h
    · exact BitVec.xor_left_inj _ |>.1 h
    · exact h
  refine BitVec.eq_of_getLsbD_eq (fun i hi => ?_)
  cases i with
  | zero => exact h0
  | succ i =>
    have := congrArg (fun v => v.getLsbD i) hs
    simpa [BitVec.getLsbD_ushiftRight, Nat.add_comm] using this

end Sys2Proof.Machine
end

