-- ==== Sys2Proof/Laws/Exec.lean ====
section
/-!
SUPPORT. The arms of `exec`, and what the command cycle and a step do with a command word
(44_block.md R241).
-/

namespace Sys2Proof.Machine

variable (s : State)

@[simp] theorem exec_nmeaCfg {c} {ub} : exec (.nmeaCfg c ub) s = execNmeaCfg c s := rfl
@[simp] theorem exec_nmeaFeedn {ua} {len} : exec (.nmeaFeedn ua len) s = execNmeaFeedn ua len s := rfl
@[simp] theorem exec_nmeaFeedc {ua} {ub} : exec (.nmeaFeedc ua ub) s = execNmeaFeedc ua ub s := rfl
@[simp] theorem exec_nmeaNfields {ua} {ub} : exec (.nmeaNfields ua ub) s = execNmeaNfields s := rfl
@[simp] theorem exec_nmeaField {i} {ub} : exec (.nmeaField i ub) s = execNmeaField i s := rfl
@[simp] theorem exec_nmeaFint {i} {ub} : exec (.nmeaFint i ub) s = execNmeaFint i s := rfl
@[simp] theorem exec_nmeaFdec {i} {ub} : exec (.nmeaFdec i ub) s = execNmeaFdec i s := rfl
@[simp] theorem exec_nmeaIsmsg {n} {len} : exec (.nmeaIsmsg n len) s = execNmeaIsmsg n len s := rfl
@[simp] theorem exec_aisFeedn {ua} {len} : exec (.aisFeedn ua len) s = execAisFeedn ua len s := rfl
@[simp] theorem exec_aisFeedc {ua} {ub} : exec (.aisFeedc ua ub) s = execAisFeedc ua ub s := rfl
@[simp] theorem exec_aisMsglen {ua} {ub} : exec (.aisMsglen ua ub) s = execAisMsglen s := rfl
@[simp] theorem exec_aisBits {sgn} {len} {start} : exec (.aisBits sgn len start) s = execAisBits sgn len start s := rfl
@[simp] theorem exec_aisType {ua} {ub} : exec (.aisType ua ub) s = execAisType s := rfl
@[simp] theorem exec_aisMmsi {ua} {ub} : exec (.aisMmsi ua ub) s = execAisMmsi s := rfl
@[simp] theorem exec_aisPos {ua} {ub} : exec (.aisPos ua ub) s = execAisPos s := rfl
@[simp] theorem exec_sigReg {k} {size} : exec (.sigReg k size) s = execSigReg k size s := rfl
@[simp] theorem exec_sigScan {k} {len} : exec (.sigScan k len) s = execSigScan k len s := rfl
@[simp] theorem exec_sigLatest {k} {len} : exec (.sigLatest k len) s = execSigLatest k len s := rfl
@[simp] theorem exec_sigClr {k} {ub} : exec (.sigClr k ub) s = execSigClr k s := rfl
@[simp] theorem exec_crcFeed {ua} {len} : exec (.crcFeed ua len) s = execCrcFeed ua len s := rfl
@[simp] theorem exec_crcTake {ua} {ub} : exec (.crcTake ua ub) s = execCrcTake s := rfl
@[simp] theorem exec_crcCrc32 {ua} {len} : exec (.crcCrc32 ua len) s = execCrcCrc32 ua len s := rfl
@[simp] theorem exec_crcField {j} {ub} : exec (.crcField j ub) s = execCrcField j s := rfl
@[simp] theorem exec_crcNorm {j} {ub} : exec (.crcNorm j ub) s = execCrcNorm j s := rfl
@[simp] theorem exec_blkReset {ua} {ub} : exec (.blkReset ua ub) s = execBlkReset s := rfl

/-- A word that is no command ends in fail(ILLEGAL) (30_encoding.md R84). -/
theorem cycle_of_reject {w : Word} {r : Reject} (h : decode w = .error r) :
    cycle w s = .next (s.fail .illegal) := by
  simp [cycle, h]

/-- A word that is a command runs it (44_block.md R241). -/
theorem cycle_of_decode {w : Word} {i : Instr} (h : decode w = .ok i) : cycle w s = exec i s := by
  simp [cycle, h]

/-- A 32-bit write to CMD is the command cycle (10_state.md R24). -/
theorem hostAccess_cmd (w : Word) : hostAccess (.write 0 4 w) s = cycle w s := by
  simp [hostAccess, accessOk]

/-- A step with an access to come is that access. -/
theorem step_cons {x : HostAccess} {rest : List HostAccess} (h : s.port = x :: rest) :
    step s = hostAccess x { s with port := rest } := by
  simp [step, h]

/-- Everything a step can do (20_memory.md R63 to R66, R70; 70_reset_and_hazards.md R272): wait, mark a bad
access, read, issue a command, or store. -/
theorem step_cases :
    (s.port = [] ∧ step s = .next s) ∨
    ∃ x rest, s.port = x :: rest ∧
      ((∃ a, step s = .next (({ s with port := rest }).modelFault (.badAccess a))) ∨
       (∃ (a : BitVec 20) (size : Nat), x = .read a size ∧ accessOk a.toNat size = true ∧
          step s = .next { s with
            port := rest
            rdata := busRead { s with port := rest } a.toNat size }) ∨
       (∃ w, step s = cycle w { s with port := rest }) ∨
       (∃ (a : BitVec 20) (size : Nat) (v : Word), accessOk a.toNat size = true ∧
          step s = .next (busStore { s with port := rest } a.toNat size v))) := by
  unfold step
  rcases hp : s.port with _ | ⟨x, rest⟩
  · exact .inl ⟨rfl, rfl⟩
  · refine .inr ⟨x, rest, rfl, ?_⟩
    cases x with
    | read a size =>
      by_cases h : accessOk a.toNat size = true
      · exact .inr (.inl ⟨a, size, rfl, h, by simp [hostAccess, h]⟩)
      · exact .inl ⟨a, by simp [hostAccess, h]⟩
    | write a size v =>
      by_cases h : accessOk a.toNat size = true
      · by_cases h0 : a.toNat = 0
        · exact .inr (.inr (.inl ⟨v, by
            show (if ¬ accessOk a.toNat size then _ else if a.toNat = 0 then _ else _) = _
            rw [if_neg (not_not.2 h), if_pos h0]⟩))
        · exact .inr (.inr (.inr ⟨a, size, v, h, by
            show (if ¬ accessOk a.toNat size then _ else if a.toNat = 0 then _ else _) = _
            rw [if_neg (not_not.2 h), if_neg h0]⟩))
      · exact .inl ⟨a, by simp [hostAccess, h]⟩

end Sys2Proof.Machine
end

