-- ==== Sys2Proof/Laws/PerInstr.lean ====
section
/-!
SUPPORT. A statement about each command as syntax: its encoded word, under the mask 0xFF000000, is the match
value of its row in the opcode map (30_encoding.md R83, spec/opcode_table.json).
-/

namespace Sys2Proof.Laws.OpcodeByte

/-- The match value of the command's row in spec/opcode_table.json. -/
def tableMatch : Instr → Word
  | .nmeaCfg _ _ => 0x00000000
  | .nmeaFeedn _ _ => 0x01000000
  | .nmeaFeedc _ _ => 0x02000000
  | .nmeaNfields _ _ => 0x03000000
  | .nmeaField _ _ => 0x04000000
  | .nmeaFint _ _ => 0x05000000
  | .nmeaFdec _ _ => 0x06000000
  | .nmeaIsmsg _ _ => 0x07000000
  | .aisFeedn _ _ => 0x11000000
  | .aisFeedc _ _ => 0x12000000
  | .aisMsglen _ _ => 0x13000000
  | .aisBits _ _ _ => 0x14000000
  | .aisType _ _ => 0x15000000
  | .aisMmsi _ _ => 0x16000000
  | .aisPos _ _ => 0x17000000
  | .sigReg _ _ => 0x20000000
  | .sigScan _ _ => 0x21000000
  | .sigLatest _ _ => 0x22000000
  | .sigClr _ _ => 0x23000000
  | .crcFeed _ _ => 0x31000000
  | .crcTake _ _ => 0x32000000
  | .crcCrc32 _ _ => 0x33000000
  | .crcField _ _ => 0x34000000
  | .crcNorm _ _ => 0x35000000
  | .blkReset _ _ => 0xF0000000

/-- The encoded word lies in its row of the opcode table. -/
def Statement (i : Instr) : Prop := encode i &&& 0xFF000000 = tableMatch i

/-- Under the mask, a word is its top byte with zeros below. -/
theorem mask_append (sel a : Byte) (b : Half) :
    ((sel ++ a : BitVec 16) ++ b : Word) &&& 0xFF000000 = (sel ++ (0 : BitVec 24) : Word) := by
  have hm : (0xFF000000 : Word) = ((0xFF : Byte) ++ (0 : BitVec 24) : Word) := by decide
  have he : ((sel ++ a : BitVec 16) ++ b : Word) = (sel ++ (a ++ b : BitVec 24) : Word) := by
    rw [BitVec.append_assoc]
    rfl
  have h0 : (a ++ b : BitVec 24) &&& (0 : BitVec 24) = 0 := BitVec.and_zero
  have h1 : sel &&& 0xFF = sel := BitVec.and_allOnes
  rw [hm, he, BitVec.and_append, h0, h1]

theorem nmeaCfg (c : Byte) (ub : Half) : Statement (.nmeaCfg c ub) :=
  (mask_append 0x00 c ub).trans rfl
theorem nmeaFeedn (ua : Byte) (len : Half) : Statement (.nmeaFeedn ua len) :=
  (mask_append 0x01 ua len).trans rfl
theorem nmeaFeedc (ua : Byte) (ub : Half) : Statement (.nmeaFeedc ua ub) :=
  (mask_append 0x02 ua ub).trans rfl
theorem nmeaNfields (ua : Byte) (ub : Half) : Statement (.nmeaNfields ua ub) :=
  (mask_append 0x03 ua ub).trans rfl
theorem nmeaField (i : Byte) (ub : Half) : Statement (.nmeaField i ub) :=
  (mask_append 0x04 i ub).trans rfl
theorem nmeaFint (i : Byte) (ub : Half) : Statement (.nmeaFint i ub) :=
  (mask_append 0x05 i ub).trans rfl
theorem nmeaFdec (i : Byte) (ub : Half) : Statement (.nmeaFdec i ub) :=
  (mask_append 0x06 i ub).trans rfl
theorem nmeaIsmsg (n : Byte) (len : Half) : Statement (.nmeaIsmsg n len) :=
  (mask_append 0x07 n len).trans rfl
theorem aisFeedn (ua : Byte) (len : Half) : Statement (.aisFeedn ua len) :=
  (mask_append 0x11 ua len).trans rfl
theorem aisFeedc (ua : Byte) (ub : Half) : Statement (.aisFeedc ua ub) :=
  (mask_append 0x12 ua ub).trans rfl
theorem aisMsglen (ua : Byte) (ub : Half) : Statement (.aisMsglen ua ub) :=
  (mask_append 0x13 ua ub).trans rfl
theorem aisBits (sgn : Bool) (len : BitVec 7) (start : Half) : Statement (.aisBits sgn len start) :=
  (mask_append 0x14 (BitVec.cons sgn len) start).trans rfl
theorem aisType (ua : Byte) (ub : Half) : Statement (.aisType ua ub) :=
  (mask_append 0x15 ua ub).trans rfl
theorem aisMmsi (ua : Byte) (ub : Half) : Statement (.aisMmsi ua ub) :=
  (mask_append 0x16 ua ub).trans rfl
theorem aisPos (ua : Byte) (ub : Half) : Statement (.aisPos ua ub) :=
  (mask_append 0x17 ua ub).trans rfl
theorem sigReg (k : Byte) (size : Half) : Statement (.sigReg k size) :=
  (mask_append 0x20 k size).trans rfl
theorem sigScan (k : Byte) (len : Half) : Statement (.sigScan k len) :=
  (mask_append 0x21 k len).trans rfl
theorem sigLatest (k : Byte) (len : Half) : Statement (.sigLatest k len) :=
  (mask_append 0x22 k len).trans rfl
theorem sigClr (k : Byte) (ub : Half) : Statement (.sigClr k ub) :=
  (mask_append 0x23 k ub).trans rfl
theorem crcFeed (ua : Byte) (len : Half) : Statement (.crcFeed ua len) :=
  (mask_append 0x31 ua len).trans rfl
theorem crcTake (ua : Byte) (ub : Half) : Statement (.crcTake ua ub) :=
  (mask_append 0x32 ua ub).trans rfl
theorem crcCrc32 (ua : Byte) (len : Half) : Statement (.crcCrc32 ua len) :=
  (mask_append 0x33 ua len).trans rfl
theorem crcField (j : Byte) (ub : Half) : Statement (.crcField j ub) :=
  (mask_append 0x34 j ub).trans rfl
theorem crcNorm (j : Byte) (ub : Half) : Statement (.crcNorm j ub) :=
  (mask_append 0x35 j ub).trans rfl
theorem blkReset (ua : Byte) (ub : Half) : Statement (.blkReset ua ub) :=
  (mask_append 0xF0 ua ub).trans rfl

end Sys2Proof.Laws.OpcodeByte
end

