-- ==== Sys2Proof/Laws/Sig.lean ====
section
/-!
SUPPORT. The two scans of U2: the least and the greatest offset of a valid frame (42_sigcsum.md R185, R186).
-/

namespace Sys2Proof.Machine

/-- No frame begins in the empty string: a frame has 6 bytes at least. -/
theorem frameAtHead_nil (S : Slot) : frameAtHead S [] = false := by
  simp [frameAtHead, frameLen]

/-- The forward scan finds the least offset, or none where there is none (R185). -/
theorem firstFrame_spec (S : Slot) (base : Nat) (buf : List Byte) :
    match firstFrame S base buf with
    | some i => base ≤ i ∧ frameAtHead S (buf.drop (i - base)) = true ∧
        ∀ j, base ≤ j → j < i → frameAtHead S (buf.drop (j - base)) = false
    | none => ∀ j, frameAtHead S (buf.drop j) = false := by
  induction buf generalizing base with
  | nil => simp [firstFrame, frameAtHead_nil]
  | cons b t ih =>
    rw [firstFrame]
    by_cases h : frameAtHead S (b :: t) = true
    · rw [if_pos h]
      exact ⟨Nat.le_refl _, by simpa using h, by omega⟩
    · rw [if_neg h]
      have hf : frameAtHead S (b :: t) = false := by simpa using h
      have hi := ih (base + 1)
      rcases hr : firstFrame S (base + 1) t with _ | i
      · rw [hr] at hi
        intro j
        cases j with
        | zero => simpa using hf
        | succ j => simpa using hi j
      · rw [hr] at hi
        obtain ⟨h1, h2, h3⟩ := hi
        refine ⟨by omega, ?_, fun j hj1 hj2 => ?_⟩
        · rw [show i - base = (i - (base + 1)) + 1 from by omega, List.drop_succ_cons]
          exact h2
        · rcases Nat.eq_or_lt_of_le hj1 with rfl | hlt
          · simpa using hf
          · rw [show j - base = (j - (base + 1)) + 1 from by omega, List.drop_succ_cons]
            exact h3 j (by omega) hj2

/-- The scan for the last frame finds the greatest offset, or none where there is none (R186). -/
theorem lastFrame_spec (S : Slot) (base : Nat) (buf : List Byte) :
    match lastFrame S base buf with
    | some i => base ≤ i ∧ frameAtHead S (buf.drop (i - base)) = true ∧
        ∀ j, i < j → frameAtHead S (buf.drop (j - base)) = false
    | none => ∀ j, frameAtHead S (buf.drop j) = false := by
  induction buf generalizing base with
  | nil => simp [lastFrame, frameAtHead_nil]
  | cons b t ih =>
    rw [lastFrame]
    have hi := ih (base + 1)
    rcases hr : lastFrame S (base + 1) t with _ | i
    · rw [hr] at hi
      simp only at hi ⊢
      by_cases h : frameAtHead S (b :: t) = true
      · rw [if_pos h]
        refine ⟨Nat.le_refl _, by simpa using h, fun j hj => ?_⟩
        rw [show j - base = (j - base - 1) + 1 from by omega, List.drop_succ_cons]
        exact hi _
      · rw [if_neg h]
        have hf : frameAtHead S (b :: t) = false := by simpa using h
        intro j
        cases j with
        | zero => simpa using hf
        | succ j => simpa using hi j
    · rw [hr] at hi
      simp only at hi ⊢
      obtain ⟨h1, h2, h3⟩ := hi
      refine ⟨by omega, ?_, fun j hj => ?_⟩
      · rw [show i - base = (i - (base + 1)) + 1 from by omega, List.drop_succ_cons]
        exact h2
      · rw [show j - base = (j - (base + 1)) + 1 from by omega, List.drop_succ_cons]
        exact h3 j hj

/-- What the frame test says (R181). -/
theorem frameAtHead_iff (S : Slot) (buf : List Byte) :
    frameAtHead S buf = true ↔ frameLen S ≤ buf.length ∧ buf.take 5 = sigOf S ∧
      buf[5 + S.size.toNat]? = some (rotXor S ((buf.drop 5).take S.size.toNat)) := by
  simp [frameAtHead, and_assoc]

/-- How a scan ends (R185, R186). -/
theorem scanResult_cases (k base : Nat) (buf : List Byte) (found : Option Nat) (s : State) :
    (found = none ∧ scanResult k base buf found s =
      (s.setRes01 0xFFFFFFFF 0xFFFFFFFF).finish false false) ∨
    ∃ i, found = some i ∧ ∃ p, scanResult k base buf found s =
      (({ s with slots := slotSet s.slots k (sigAccept (slotGet s.slots k) p) }).setRes01
        (BitVec.ofNat 32 (i + frameLen (slotGet s.slots k))) (BitVec.ofNat 32 i)).finish true false := by
  cases found with
  | none => exact .inl ⟨rfl, rfl⟩
  | some i => exact .inr ⟨i, rfl, _, rfl⟩

end Sys2Proof.Machine
end

