-- ==== Sys2Proof/Laws/State.lean ====
section
/-!
SUPPORT. What each named update of State does to each field, so that no proof unfolds a record update.
-/

namespace Sys2Proof.Machine

variable (s : State)

@[simp] theorem State.setRes0_args (v : Word) : (s.setRes0 v).args = s.args := rfl
@[simp] theorem State.setRes0_status (v : Word) : (s.setRes0 v).status = s.status := rfl
@[simp] theorem State.setRes0_res (v : Word) : (s.setRes0 v).res = { s.res with r0 := v } := rfl
@[simp] theorem State.setRes0_f0 (v : Word) : (s.setRes0 v).f0 = s.f0 := rfl
@[simp] theorem State.setRes0_f1 (v : Word) : (s.setRes0 v).f1 = s.f1 := rfl
@[simp] theorem State.setRes0_ais (v : Word) : (s.setRes0 v).ais = s.ais := rfl
@[simp] theorem State.setRes0_slots (v : Word) : (s.setRes0 v).slots = s.slots := rfl
@[simp] theorem State.setRes0_crc (v : Word) : (s.setRes0 v).crc = s.crc := rfl
@[simp] theorem State.setRes0_mem (v : Word) : (s.setRes0 v).mem = s.mem := rfl
@[simp] theorem State.setRes0_faultMark (v : Word) : (s.setRes0 v).faultMark = s.faultMark := rfl
@[simp] theorem State.setRes0_port (v : Word) : (s.setRes0 v).port = s.port := rfl
@[simp] theorem State.setRes0_rdata (v : Word) : (s.setRes0 v).rdata = s.rdata := rfl

@[simp] theorem State.setRes01_args (v w : Word) : (s.setRes01 v w).args = s.args := rfl
@[simp] theorem State.setRes01_status (v w : Word) : (s.setRes01 v w).status = s.status := rfl
@[simp] theorem State.setRes01_res (v w : Word) : (s.setRes01 v w).res = { s.res with r0 := v, r1 := w } := rfl
@[simp] theorem State.setRes01_f0 (v w : Word) : (s.setRes01 v w).f0 = s.f0 := rfl
@[simp] theorem State.setRes01_f1 (v w : Word) : (s.setRes01 v w).f1 = s.f1 := rfl
@[simp] theorem State.setRes01_ais (v w : Word) : (s.setRes01 v w).ais = s.ais := rfl
@[simp] theorem State.setRes01_slots (v w : Word) : (s.setRes01 v w).slots = s.slots := rfl
@[simp] theorem State.setRes01_crc (v w : Word) : (s.setRes01 v w).crc = s.crc := rfl
@[simp] theorem State.setRes01_mem (v w : Word) : (s.setRes01 v w).mem = s.mem := rfl
@[simp] theorem State.setRes01_faultMark (v w : Word) : (s.setRes01 v w).faultMark = s.faultMark := rfl
@[simp] theorem State.setRes01_port (v w : Word) : (s.setRes01 v w).port = s.port := rfl
@[simp] theorem State.setRes01_rdata (v w : Word) : (s.setRes01 v w).rdata = s.rdata := rfl

@[simp] theorem State.setResPair_args (v : DWord) : (s.setResPair v).args = s.args := rfl
@[simp] theorem State.setResPair_status (v : DWord) : (s.setResPair v).status = s.status := rfl
@[simp] theorem State.setResPair_res (v : DWord) : (s.setResPair v).res = { s.res with r0 := v.extractLsb' 0 32, r1 := v.extractLsb' 32 32 } := rfl
@[simp] theorem State.setResPair_f0 (v : DWord) : (s.setResPair v).f0 = s.f0 := rfl
@[simp] theorem State.setResPair_f1 (v : DWord) : (s.setResPair v).f1 = s.f1 := rfl
@[simp] theorem State.setResPair_ais (v : DWord) : (s.setResPair v).ais = s.ais := rfl
@[simp] theorem State.setResPair_slots (v : DWord) : (s.setResPair v).slots = s.slots := rfl
@[simp] theorem State.setResPair_crc (v : DWord) : (s.setResPair v).crc = s.crc := rfl
@[simp] theorem State.setResPair_mem (v : DWord) : (s.setResPair v).mem = s.mem := rfl
@[simp] theorem State.setResPair_faultMark (v : DWord) : (s.setResPair v).faultMark = s.faultMark := rfl
@[simp] theorem State.setResPair_port (v : DWord) : (s.setResPair v).port = s.port := rfl
@[simp] theorem State.setResPair_rdata (v : DWord) : (s.setResPair v).rdata = s.rdata := rfl

@[simp] theorem State.setRes2_args (v : Word) : (s.setRes2 v).args = s.args := rfl
@[simp] theorem State.setRes2_status (v : Word) : (s.setRes2 v).status = s.status := rfl
@[simp] theorem State.setRes2_res (v : Word) : (s.setRes2 v).res = { s.res with r2 := v } := rfl
@[simp] theorem State.setRes2_f0 (v : Word) : (s.setRes2 v).f0 = s.f0 := rfl
@[simp] theorem State.setRes2_f1 (v : Word) : (s.setRes2 v).f1 = s.f1 := rfl
@[simp] theorem State.setRes2_ais (v : Word) : (s.setRes2 v).ais = s.ais := rfl
@[simp] theorem State.setRes2_slots (v : Word) : (s.setRes2 v).slots = s.slots := rfl
@[simp] theorem State.setRes2_crc (v : Word) : (s.setRes2 v).crc = s.crc := rfl
@[simp] theorem State.setRes2_mem (v : Word) : (s.setRes2 v).mem = s.mem := rfl
@[simp] theorem State.setRes2_faultMark (v : Word) : (s.setRes2 v).faultMark = s.faultMark := rfl
@[simp] theorem State.setRes2_port (v : Word) : (s.setRes2 v).port = s.port := rfl
@[simp] theorem State.setRes2_rdata (v : Word) : (s.setRes2 v).rdata = s.rdata := rfl

@[simp] theorem State.finish_args (r n : Bool) : (s.finish r n).args = s.args := rfl
@[simp] theorem State.finish_status (r n : Bool) : (s.finish r n).status = { err := .ok, res := r, nodata := n } := rfl
@[simp] theorem State.finish_res (r n : Bool) : (s.finish r n).res = s.res := rfl
@[simp] theorem State.finish_f0 (r n : Bool) : (s.finish r n).f0 = s.f0 := rfl
@[simp] theorem State.finish_f1 (r n : Bool) : (s.finish r n).f1 = s.f1 := rfl
@[simp] theorem State.finish_ais (r n : Bool) : (s.finish r n).ais = s.ais := rfl
@[simp] theorem State.finish_slots (r n : Bool) : (s.finish r n).slots = s.slots := rfl
@[simp] theorem State.finish_crc (r n : Bool) : (s.finish r n).crc = s.crc := rfl
@[simp] theorem State.finish_mem (r n : Bool) : (s.finish r n).mem = s.mem := rfl
@[simp] theorem State.finish_faultMark (r n : Bool) : (s.finish r n).faultMark = s.faultMark := rfl
@[simp] theorem State.finish_port (r n : Bool) : (s.finish r n).port = s.port := rfl
@[simp] theorem State.finish_rdata (r n : Bool) : (s.finish r n).rdata = s.rdata := rfl

@[simp] theorem State.fail_args (e : Err) : (s.fail e).args = s.args := rfl
@[simp] theorem State.fail_status (e : Err) : (s.fail e).status = { err := e, res := false, nodata := false } := rfl
@[simp] theorem State.fail_res (e : Err) : (s.fail e).res = s.res := rfl
@[simp] theorem State.fail_f0 (e : Err) : (s.fail e).f0 = s.f0 := rfl
@[simp] theorem State.fail_f1 (e : Err) : (s.fail e).f1 = s.f1 := rfl
@[simp] theorem State.fail_ais (e : Err) : (s.fail e).ais = s.ais := rfl
@[simp] theorem State.fail_slots (e : Err) : (s.fail e).slots = s.slots := rfl
@[simp] theorem State.fail_crc (e : Err) : (s.fail e).crc = s.crc := rfl
@[simp] theorem State.fail_mem (e : Err) : (s.fail e).mem = s.mem := rfl
@[simp] theorem State.fail_faultMark (e : Err) : (s.fail e).faultMark = s.faultMark := rfl
@[simp] theorem State.fail_port (e : Err) : (s.fail e).port = s.port := rfl
@[simp] theorem State.fail_rdata (e : Err) : (s.fail e).rdata = s.rdata := rfl

@[simp] theorem State.modelFault_args (f : ModelFault) : (s.modelFault f).args = s.args := rfl
@[simp] theorem State.modelFault_status (f : ModelFault) : (s.modelFault f).status = s.status := rfl
@[simp] theorem State.modelFault_res (f : ModelFault) : (s.modelFault f).res = s.res := rfl
@[simp] theorem State.modelFault_f0 (f : ModelFault) : (s.modelFault f).f0 = s.f0 := rfl
@[simp] theorem State.modelFault_f1 (f : ModelFault) : (s.modelFault f).f1 = s.f1 := rfl
@[simp] theorem State.modelFault_ais (f : ModelFault) : (s.modelFault f).ais = s.ais := rfl
@[simp] theorem State.modelFault_slots (f : ModelFault) : (s.modelFault f).slots = s.slots := rfl
@[simp] theorem State.modelFault_crc (f : ModelFault) : (s.modelFault f).crc = s.crc := rfl
@[simp] theorem State.modelFault_mem (f : ModelFault) : (s.modelFault f).mem = s.mem := rfl
@[simp] theorem State.modelFault_faultMark (f : ModelFault) : (s.modelFault f).faultMark = some f := rfl
@[simp] theorem State.modelFault_port (f : ModelFault) : (s.modelFault f).port = s.port := rfl
@[simp] theorem State.modelFault_rdata (f : ModelFault) : (s.modelFault f).rdata = s.rdata := rfl

end Sys2Proof.Machine
end

