-- ==== Sys2Proof/Tests/Slice0.lean ====
section
/-!
SUPPORT. Small tests of the model against the spec's own words and vectors (30_encoding.md R83, R85;
95_test_vectors.md section 2), and for each obligation with hypotheses a witness that meets them.
-/

namespace Sys2Proof.Tests

open Sys2Proof.Machine Sys2Proof.Claims

/-! ### Small states -/

/-- `s` with the bytes `bs` written from index 0 of window `IN_u` on. -/
def loaded (u : Nat) (bs : List Byte) (s : State) : State :=
  { s with mem := memWrite s.mem (inAddr u 0) bs }

/-- The state after a command. -/
def after (i : Instr) (s : State) : State :=
  match exec i s with
  | .next t => t
  | _ => s

/-- What a command reports: STATUS.ERR, STATUS.RES, STATUS.NODATA, RES0 and RES1. -/
def report (i : Instr) (s : State) : Err × Bool × Bool × Word × Word :=
  let t := after i s
  (t.status.err, t.status.res, t.status.nodata, t.res.r0, t.res.r1)

/-- The framer with start `c` that holds the fields `fs` of a completed sentence. -/
def holding (c : Byte) (fs : List (List Byte)) : Framer :=
  { Framer.reset c with
    nf := BitVec.ofNat 6 fs.length
    nc := BitVec.ofNat 10 fs.flatten.length
    chars := bufWrite [] 0 fs.flatten
    fstart := bufWrite [] 0 ((List.range fs.length).map (fun j => BitVec.ofNat 10 (fs.take j).flatten.length))
    valid := true }

/-- Power-on with U0 holding the fields `fs`. -/
def queryable (fs : List (List Byte)) : State := { State.reset with f0 := holding 0x24 fs }

/-- Power-on with the AIS message `p`. -/
def withMessage (p : List Byte) : State :=
  { State.reset with
    ais := { Ais.reset with msg := bufWrite [] 0 p, msglen := BitVec.ofNat 13 p.length, msgvalid := true } }

/-- Slot 0 registered as ("PG", 3). -/
def pg : Slot := { Slot.reset with reg := true, n0 := 0x50, n1 := 0x47, size := 3 }

/-- Power-on with slot 0 registered as ("PG", 3). -/
def withPg : State := { State.reset with slots := slotSet State.reset.slots 0 pg }

/-- `$AB,C*6C` (40_nmea_framer.md R122). -/
def abc : List Byte := [0x24, 0x41, 0x42, 0x2C, 0x43, 0x2A, 0x36, 0x43]

/-- The fields of `abc`. -/
def abcFields : List (List Byte) := [[0x41, 0x42], [0x43]]

/-- `PGOK` (95_test_vectors.md 0.1). -/
def pgOk : List Byte := [0x50, 0x47, 0x30, 0x30, 0x33, 0x01, 0x02, 0x03, 0x1D]

/-- `PGBAD` (95_test_vectors.md 0.1). -/
def pgBad : List Byte := [0x50, 0x47, 0x30, 0x30, 0x33, 0x01, 0x09, 0x03, 0x1D]

/-- `P1` (95_test_vectors.md 0.1). -/
def p1 : List Byte :=
  [0x31, 0x31, 0x6D, 0x67, 0x3D, 0x35, 0x40, 0x50, 0x31, 0x73, 0x3C, 0x74, 0x53, 0x46, 0x30, 0x45,
    0x4D, 0x42, 0x60, 0x39, 0x3A, 0x47, 0x44, 0x30, 0x30, 0x30, 0x30, 0x30]

/-- The bytes of `AIVDM`. -/
def aivdmName : List Byte := [0x41, 0x49, 0x56, 0x44, 0x4D]

/-- `AIVDM,1,1,,A,w,0`. -/
def oneFragment : List (List Byte) := [aivdmName, [0x31], [0x31], [], [0x41], [0x77], [0x30]]

/-- `AIVDM,<t>,<x>,<q>,A,w,0`. -/
def fragment (t x q : Byte) : List (List Byte) := [aivdmName, [t], [x], [q], [0x41], [0x77], [0x30]]

/-- `FRAME` (95_test_vectors.md 0.1). -/
def frame : List Byte :=
  [0xAA, 0x44, 0xB5, 0x0C, 0x2C, 0xE4, 0x00] ++ List.replicate 17 0 ++
    (List.range 228).map (BitVec.ofNat 8) ++ [0x5E, 0x59, 0x4D, 0xC6]

/-! ### Form and decoding -/

/-- A set ignored bit is refused, in each operand R81 ignores. -/
theorem test_wellFormed_refuses :
    [Instr.nmeaCfg 0x24 1, .nmeaFeedn 1 0, .nmeaFeedc 1 0, .nmeaFeedc 0 1, .nmeaNfields 1 0, .nmeaNfields 0 1,
      .nmeaField 0 1, .nmeaFint 0 1, .nmeaFdec 0 1, .aisFeedn 1 0, .aisFeedc 1 0, .aisFeedc 0 1,
      .aisMsglen 1 0, .aisMsglen 0 1, .aisType 1 0, .aisType 0 1, .aisMmsi 1 0, .aisMmsi 0 1, .aisPos 1 0,
      .aisPos 0 1, .sigClr 0 1, .crcFeed 1 0, .crcTake 1 0, .crcTake 0 1, .crcCrc32 1 0, .crcField 0 1,
      .crcNorm 0 1, .blkReset 1 0, .blkReset 0 1].any WellFormed = false := by decide

theorem test_wellFormed_accepts :
    [Instr.nmeaCfg 0x24 0, .nmeaFeedn 0 9, .nmeaIsmsg 7 5, .aisBits true 28 61, .sigReg 0 3, .sigScan 0 9,
      .sigLatest 0 9, .sigClr 7 0, .crcFeed 0 156, .blkReset 0 0].all WellFormed = true := by decide

/-- U0's words, from R85. -/
theorem test_decode_nmea :
    decode 0x00210000 = .ok (.nmeaCfg 0x21 0) ∧ decode 0x01000037 = .ok (.nmeaFeedn 0 55) ∧
    decode 0x02000000 = .ok (.nmeaFeedc 0 0) ∧ decode 0x03000000 = .ok (.nmeaNfields 0 0) ∧
    decode 0x04030000 = .ok (.nmeaField 3 0) ∧ decode 0x05050000 = .ok (.nmeaFint 5 0) ∧
    decode 0x06010000 = .ok (.nmeaFdec 1 0) ∧ decode 0x07070005 = .ok (.nmeaIsmsg 7 5) := by decide

/-- U1's words, from R85. -/
theorem test_decode_ais :
    decode 0x11000048 = .ok (.aisFeedn 0 72) ∧ decode 0x12000000 = .ok (.aisFeedc 0 0) ∧
    decode 0x13000000 = .ok (.aisMsglen 0 0) ∧ decode 0x149C003D = .ok (.aisBits true 28 61) ∧
    decode 0x15000000 = .ok (.aisType 0 0) ∧ decode 0x16000000 = .ok (.aisMmsi 0 0) ∧
    decode 0x17000000 = .ok (.aisPos 0 0) := by decide

/-- U2's words, from R85. -/
theorem test_decode_sig :
    decode 0x20010003 = .ok (.sigReg 1 3) ∧ decode 0x2101001C = .ok (.sigScan 1 28) ∧
    decode 0x2200001C = .ok (.sigLatest 0 28) ∧ decode 0x23080000 = .ok (.sigClr 8 0) := by decide

/-- The words of U3 and of the block, from R85. -/
theorem test_decode_crc_blk :
    decode 0x31000064 = .ok (.crcFeed 0 100) ∧ decode 0x32000000 = .ok (.crcTake 0 0) ∧
    decode 0x33000009 = .ok (.crcCrc32 0 9) ∧ decode 0x340A0000 = .ok (.crcField 10 0) ∧
    decode 0x35040000 = .ok (.crcNorm 4 0) ∧ decode 0xF0000000 = .ok (.blkReset 0 0) := by decide

/-- The first and last illegal OP of each unit (R84). -/
theorem test_decode_illegal :
    [(0x08000000 : Word), 0x0F000000, 0x10000000, 0x18000000, 0x1F000000, 0x24000000, 0x2F000000, 0x30000000,
      0x36000000, 0x3F000000, 0x40000000, 0xEF000000, 0xF1000000, 0xFF000000].all
      (fun w => match decode w with | .ok _ => false | .error _ => true) = true := by decide

/-- The constraints on the parameters (00_scope.md R6); the one on the layout holds by its type. -/
theorem test_parameters_meet_constraints :
    (∀ x ∈ Config.crcWhitelist, Config.crcHdrLen + x.2.toNat + Config.crcTrailer ≤ Config.crcAccCap) ∧
    Config.crcAccCap ≤ 2047 ∧ Config.crcIdOff + 2 ≤ Config.crcHdrLen ∧
    Config.crcLenOff + 2 ≤ Config.crcHdrLen ∧ Config.nmeaMaxChars ≤ Config.aisCap ∧
    Config.inCap ≤ 4096 := by
  simp [Config.crcWhitelist, Config.crcHdrLen, Config.crcTrailer, Config.crcAccCap, Config.crcIdOff,
    Config.crcLenOff, Config.nmeaMaxChars, Config.aisCap, Config.inCap]

/-! ### One step of each command -/

/-- The example of R121. -/
theorem test_nmeaCfg : busRead (after (.nmeaCfg 0x21 0) .reset) 0x040 4 = 0x2100 := by decide

/-- The example of R122. -/
theorem test_nmeaFeedn :
    report (.nmeaFeedn 0 8) (loaded 0 abc .reset) = (.ok, true, false, 8, 0) ∧
    (after (.nmeaFeedn 0 8) (loaded 0 abc .reset)).f0.nf = 2 := by decide

/-- A lowercase checksum digit does not match (R91): `$z*7a`. -/
theorem test_nmeaFeedn_lowercase_digit :
    report (.nmeaFeedn 0 5) (loaded 0 [0x24, 0x7A, 0x2A, 0x37, 0x61] .reset) = (.ok, false, false, 5, 0) := by
  decide

/-- A sentence cut by the end of a buffer goes on in the next one (R120): the rest of `abc`. -/
theorem test_nmeaFeedc :
    report (.nmeaFeedc 0 0) { loaded 0 abc .reset with
      f0 := { holding 0x24 [[0x41, 0x42]] with st := .body, cs := 0x03, valid := false, pos := 3, len := 8 } } =
      (.ok, true, false, 8, 0) := by decide

/-- The examples of R124 and R125. -/
theorem test_nmeaNfields : report (.nmeaNfields 0 0) (queryable abcFields) = (.ok, true, false, 2, 0) := by decide

theorem test_nmeaField : report (.nmeaField 1 0) (queryable abcFields) = (.ok, true, false, 2, 1) := by decide

/-- The corner case of R127: -999999999999999999. -/
theorem test_nmeaFint :
    report (.nmeaFint 0 0) (queryable [0x2D :: List.replicate 18 0x39]) =
      (.ok, true, false, 0x589C0001, 0xF21F494C) := by decide

/-- The example of R129: 4916.45. -/
theorem test_nmeaFdec :
    report (.nmeaFdec 0 0) (queryable [[0x34, 0x39, 0x31, 0x36, 0x2E, 0x34, 0x35]]) =
      (.ok, true, false, 0x0007807D, 0) ∧
    (after (.nmeaFdec 0 0) (queryable [[0x34, 0x39, 0x31, 0x36, 0x2E, 0x34, 0x35]])).res.r2 = 2 := by decide

/-- The name packing of R81: "GPGLL" in ARG0 and ARG1. -/
theorem test_nmeaIsmsg :
    report (.nmeaIsmsg 1 5) { queryable [[0x47, 0x50, 0x47, 0x4C, 0x4C]] with
      args := ⟨0x4C475047, 0x4C, 0, 0⟩ } = (.ok, true, false, 1, 0) := by decide

/-- `!AIVDM,1,1,,A,w,0*51` is emitted. -/
theorem test_aisFeedn :
    report (.aisFeedn 0 20) (loaded 1 (sentence 0x21 oneFragment) .reset) = (.ok, true, false, 20, 0) ∧
    aisMessage (after (.aisFeedn 0 20) (loaded 1 (sentence 0x21 oneFragment) .reset)).ais = [0x77] := by
  decide

/-- With the position at the end of the buffer AIS.FEEDC returns 0 at once (R152). -/
theorem test_aisFeedc : report (.aisFeedc 0 0) (withMessage p1) = (.ok, false, false, 0, 0) := by decide

/-- The example of R153. -/
theorem test_aisMsglen : report (.aisMsglen 0 0) (withMessage p1) = (.ok, true, false, 28, 168) := by decide

/-- The example of R156: the payload "w" read signed. -/
theorem test_aisBits_signed :
    report (.aisBits true 6 0) (withMessage [0x77]) = (.ok, true, false, 0xFFFFFFFF, 0xFFFFFFFF) := by decide

/-- The example of R156: one bit past the end. -/
theorem test_aisBits_nodata :
    report (.aisBits false 6 1) (withMessage [0x77]) = (.ok, false, true, 0, 0) := by decide

/-- The example of R157: a payload starting with 1. -/
theorem test_aisType : report (.aisType 0 0) (withMessage p1) = (.ok, true, false, 1, 0) := by decide

/-- The example of R158: MMSI 123456789. -/
theorem test_aisMmsi : report (.aisMmsi 0 0) (withMessage p1) = (.ok, true, false, 123456789, 0) := by decide

/-- EX4: the longitude sentinel is absent, its raw value still reported. -/
theorem test_aisPos :
    (after (.aisPos 0 0) (withMessage p1)).res =
      ⟨0x1D, 123, 0x06791AC0, 22500000, 2345, 234, 1, 0⟩ := by decide

/-- The example of R184. -/
theorem test_sigReg :
    sigOf (slotGet (after (.sigReg 0 3) { State.reset with args := ⟨0xFFFF4750, 0, 0, 0⟩ }).slots 0) =
      [0x50, 0x47, 0x30, 0x30, 0x33] := by decide

/-- TG10, EX5: the frame is found at offset 2 of `xx` and `PGOK`, 11 bytes (the 10 of R185's example is a
miscount, log entry 19). -/
theorem test_sigScan :
    report (.sigScan 0 11) (loaded 2 ([0x78, 0x78] ++ pgOk) withPg) = (.ok, true, false, 11, 2) := by decide

/-- EX5: the altered frame is skipped. -/
theorem test_sigScan_skips_altered :
    report (.sigScan 0 18) (loaded 2 (pgBad ++ pgOk) withPg) = (.ok, true, false, 18, 9) := by decide

/-- The example of R186. -/
theorem test_sigLatest :
    report (.sigLatest 0 18) (loaded 2 (pgOk ++ pgOk) withPg) = (.ok, true, false, 18, 9) := by decide

/-- A slot already clear (R187). -/
theorem test_sigClr : report (.sigClr 0 0) withPg = (.ok, true, false, 0, 0) := by decide

/-- TC22: the first 13 bytes of `FRAME` wait in HDR. -/
theorem test_crcFeed_waits :
    (let t := after (.crcFeed 0 13) (loaded 3 (frame.take 13) .reset)
     t.crc.st = .hdr ∧ t.crc.fill = 13 ∧ t.crc.pos = 0 ∧ t.crc.rlen = 0) := by decide

/-- TC27: an unlisted header moves the search on by 3, then to the last 2 bytes. -/
theorem test_crcFeed_rejects :
    (let t := after (.crcFeed 0 24)
        (loaded 3 ([0xAA, 0x44, 0xB5, 0x01, 0x00, 0xE4, 0x00] ++ List.replicate 17 0) .reset)
     t.crc.st = .seek ∧ t.crc.pos = 22 ∧ t.crc.mid = 1 ∧ t.crc.plen = 0xE4) := by decide

/-- TC34: TAKE at power-on. -/
theorem test_crcTake : report (.crcTake 0 0) .reset = (.ok, false, false, 0, 0) := by decide

/-- The example of R219, EX10. -/
theorem test_crcCrc32 :
    report (.crcCrc32 0 9) (loaded 3 [0x31, 0x32, 0x33, 0x34, 0x35, 0x36, 0x37, 0x38, 0x39] .reset) =
      (.ok, true, false, 0x2DFD2D88, 0) := by decide +kernel

/-- EX10: with start value and final XOR 0xFFFFFFFF. -/
theorem test_crc32_standard :
    crc32With 0xFFFFFFFF 0xFFFFFFFF [0x31, 0x32, 0x33, 0x34, 0x35, 0x36, 0x37, 0x38, 0x39] = 0xCBF43926 := by
  decide +kernel

/-- NOSENT before the first accepted frame (R221). -/
theorem test_crcField : report (.crcField 10 0) .reset = (.noSent, false, false, 0, 0) := by decide

/-- TC41 and TC42. -/
theorem test_crcNorm :
    report (.crcNorm 0 0) .reset = (.noSent, false, false, 0, 0) ∧
    report (.crcNorm 4 0) .reset = (.badArg, false, false, 0, 0) := by decide

/-- TB5: the start character is $ again. -/
theorem test_blkReset :
    busRead (after (.blkReset 0 0) (after (.nmeaCfg 0x21 0) .reset)) 0x040 4 = 0x2400 := by decide

/-- TB6: the fault mark is set, and BLK.RESET leaves it. -/
theorem test_unwritten_input :
    (after (.blkReset 0 0) (after (.nmeaFeedn 0 1) .reset)).faultMark =
      some (.unwrittenInput 0x01000001 0) := by decide

/-- A step runs the word placed as the host's next access. -/
theorem test_withFetchWord :
    step (State.reset.withFetchWord 32 0x03000000) = .next (State.reset.fail .noSent) := rfl

/-- 20_memory.md R64: the bytes 31 32 33 34 read as a 16-bit value at offset 2. -/
theorem test_bus_little_endian :
    busRead { State.reset with mem := memWrite [] 0x1000 (valueBytes 0x34333231 4) } 0x1002 2 = 0x3433 := by
  decide
/-! ### Witnesses: what an obligation assumes can be met -/

/-- Bytes written from the start of a range on are read there. -/
theorem holds_loaded (u : Nat) (bs : List Byte) (s : State) : Holds (loaded u bs s).mem u 0 bs := by
  intro j hj
  have h : inAddr u (0 + j) - inAddr u 0 = j := by simp only [inAddr]; omega
  rw [inByte, loaded, memGet_memWrite, if_pos (by simp only [inAddr]; omega), h]

/-- Bytes written from the start of a range on are written there. -/
theorem written_loaded (u : Nat) (bs : List Byte) (s : State) (n : Nat) (hn : n ≤ bs.length) :
    Written (loaded u bs s).mem u 0 n := by
  intro j _ hj
  have h := holds_loaded u bs s j (by omega)
  rw [Nat.zero_add] at h
  rw [h, List.getElem?_eq_getElem (by omega)]
  simp

/-- Nothing is written in an empty memory. -/
theorem unwritten_empty (u i : Nat) : inByte State.reset.mem u i = none := rfl

theorem firstUnwritten_empty (u n : Nat) (hn : 0 < n) : FirstUnwritten State.reset.mem u 0 n 0 :=
  ⟨Nat.le_refl 0, hn, rfl, fun j _ h => absurd h (Nat.not_lt_zero j)⟩

/-- EncodeOfDecode, IllegalPairsFail: a word that decodes, and the edges of the illegal pairs. -/
theorem witness_words :
    decode 0x35040000 = .ok (.crcNorm 4 0) ∧
    IllegalPair ((0x08000000 : Word).toNat / 2 ^ 28) ((0x08000000 : Word).toNat / 2 ^ 24 % 16) ∧
    IllegalPair ((0xF1000000 : Word).toNat / 2 ^ 28) ((0xF1000000 : Word).toNat / 2 ^ 24 % 16) ∧
    ¬ IllegalPair ((0x07000000 : Word).toNat / 2 ^ 28) ((0x07000000 : Word).toNat / 2 ^ 24 % 16) ∧
    ¬ IllegalPair ((0xF0FFFFFF : Word).toNat / 2 ^ 28) ((0xF0FFFFFF : Word).toNat / 2 ^ 24 % 16) := by
  unfold IllegalPair
  decide

/-- IgnoredBitsChangeNothing: arguments that differ in bits the rule does not name only. -/
theorem witness_sameNamedArgs :
    SameNamedArgs (.nmeaIsmsg 1 5) ⟨0x4C475047, 0x4C, 0, 0⟩ ⟨0x4C475047, 0xFFFFFF4C, 1, 2⟩ ∧
    SameNamedArgs (.sigReg 0 3) ⟨0x4750, 0, 0, 0⟩ ⟨0xFFFF4750, 1, 2, 3⟩ ∧
    SameNamedArgs (.sigScan 0 9) ⟨2, 0, 0, 0⟩ ⟨2, 1, 2, 3⟩ ∧
    SameNamedArgs (.nmeaFint 0 0) ⟨0, 0, 0, 0⟩ ⟨5, 1, 2, 3⟩ ∧
    exec (.nmeaFint 0 0) .reset = .next (State.reset.fail .noSent) := by
  unfold SameNamedArgs
  exact ⟨by decide, by decide, rfl, trivial, rfl⟩

/-- StepRunsDecodedCommand: a command waiting, and nothing waiting. -/
theorem witness_port :
    (State.reset.withFetchWord 32 0x03000000).port = .write 0 4 0x03000000 :: [] ∧
    decode 0x03000000 = .ok (.nmeaNfields 0 0) ∧ State.reset.port = [] := by decide

/-- BadAccessIsAModelFault: `accessOk` is the obligation's condition; accesses on both sides of it, at the edges of
the register block and of the address space. -/
theorem witness_accesses :
    let allowed (a : BitVec 20) (size : Nat) : Prop := (a.toNat < 0x1000 ∧ size = 4 ∧ a.toNat % 4 = 0) ∨
      (0x1000 ≤ a.toNat ∧ (size = 1 ∨ size = 2 ∨ size = 4) ∧ a.toNat % size = 0)
    ¬ allowed 0xFFC 2 ∧ ¬ allowed 0x016 4 ∧ ¬ allowed 0x1001 2 ∧ ¬ allowed 0x1000 8 ∧ ¬ allowed 0x1000 0 ∧
    allowed 0xFFC 4 ∧ allowed 0 4 ∧ allowed 0x1000 1 ∧ allowed 0xFFFFC 4 ∧ allowed 0xFFFFF 1 := by
  simp

/-- WindowReadsAreLittleEndian: a written byte at each end of the input windows. -/
theorem witness_writtenBytes :
    (∃ b, memGet (loaded 0 abc .reset).mem 0x1000 = some b ∧ inByte (loaded 0 abc .reset).mem 0 0 = some b) ∧
    (0x1000 ≤ 0x4FFF ∧ 0x4FFF < 0x5000 ∧ 0x4FFF = 0x1000 * (3 + 1) + 4095 ∧
      inByte (memWrite [] 0x4FFF [0x5A]) 3 4095 = some 0x5A) := ⟨⟨0x24, rfl, rfl⟩, by decide⟩

/-- HostWritesStore: the first and the last write of the input windows, and an address outside each. -/
theorem witness_windowWrites :
    (0x1000 ≤ (0x1000 : BitVec 20).toNat ∧ (0x1000 : BitVec 20).toNat < 0x5000 ∧
      (0x1000 : BitVec 20).toNat % 1 = 0) ∧
    (0x1000 ≤ (0x4FFC : BitVec 20).toNat ∧ (0x4FFC : BitVec 20).toNat < 0x5000 ∧
      (0x4FFC : BitVec 20).toNat % 4 = 0) ∧
    0xFFF < (0x1000 : BitVec 20).toNat ∧ (0x4FFC : BitVec 20).toNat + 4 ≤ 0x5000 := by decide

/-- ReservedReadsZeroAndReadOnlyIgnores, WindowReadsAreLittleEndian: an address of each kind at its edge. -/
theorem witness_reservedAddresses :
    (∀ a ∈ [(0x014 : BitVec 20), 0x018, 0x07C, 0x090, 0xFFC],
      a.toNat < 0x1000 ∧ a.toNat % 4 = 0 ∧ 0x014 ≤ a.toNat) ∧
    (∀ a ∈ [(0x5000 : BitVec 20), 0x5240, 0x5FFC, 0x7400, 0xFFFC, 0x18000, 0xFFFFC],
      0x1000 ≤ a.toNat ∧ 0x5000 ≤ a.toNat ∧ a.toNat % 4 = 0) ∧
    (0x5240 ≤ (0x5240 : BitVec 20).toNat ∧ (0x5FFC : BitVec 20).toNat < 0x6000) ∧
    (0x7400 ≤ (0x7400 : BitVec 20).toNat ∧ (0xFFFC : BitVec 20).toNat < 0x10000) ∧
    0x18000 ≤ (0x18000 : BitVec 20).toNat := by simp

/-- StatusAndFramerViews, PowerOnState, UnitViewsAndWindows: the bounds on addresses and indices at their ends. -/
theorem witness_viewIndices :
    (0x058 : BitVec 20) ∈ ([0x014, 0x040, 0x044, 0x048, 0x050, 0x054, 0x058] : List (BitVec 20)) ∧
    (0xFFF < 0x1000 ∧ 0xFFF ≠ 0x040 ∧ 0xFFF ≠ 0x050) ∧ 3 < 4 ∧ 7 < 8 ∧ 511 < 512 ∧ 31 < 32 ∧ 4095 < 4096 ∧
    1023 < 1024 := by decide

/-- NmeaConfigure: both start characters and another one. -/
theorem witness_startCharacters :
    ((0x24 : Byte) = 0x24 ∨ (0x24 : Byte) = 0x21) ∧ ((0x21 : Byte) = 0x24 ∨ (0x21 : Byte) = 0x21) ∧
    ¬ ((0x23 : Byte) = 0x24 ∨ (0x23 : Byte) = 0x21) := by decide

/-- NmeaFeedsComplete, AisFeedsComplete, CrcFeedCompletes, CrcEngineCommand: a full written window, an
unwritten byte, and a length over the capacity. -/
theorem witness_feedBuffers :
    (4096 : Half).toNat ≤ 4096 ∧ 4096 < (4097 : Half).toNat ∧ 1 ≤ (1 : Half).toNat ∧
    (∀ u, Written (loaded u (List.replicate 4096 0) .reset).mem u 0 (4096 : Half).toNat) ∧
    (∀ u, inByte State.reset.mem u 0 = none ∧ FirstUnwritten State.reset.mem u 0 (4096 : Half).toNat 0) ∧
    (∀ u, Holds (loaded u (List.replicate 4096 0) .reset).mem u 0 (List.replicate 4096 0)) ∧
    (List.replicate 4096 (0 : Byte)).length = (4096 : Half).toNat ∧
    (∀ u, ¬ Written State.reset.mem u 0 (4096 : Half).toNat) ∧ State.reset.Final :=
  ⟨by decide, by decide, by decide,
    fun u => written_loaded u _ _ _ (by rw [List.length_replicate]; decide),
    fun u => ⟨rfl, firstUnwritten_empty u _ (by decide)⟩, fun u => holds_loaded u _ _,
    by rw [List.length_replicate]; decide, fun u h => h 0 (Nat.le_refl 0) (by decide) rfl, rfl⟩

/-- The FEEDC clauses: a position inside a written buffer, and at its end. -/
theorem witness_feedcBuffers :
    (let s : State := { loaded 0 abc .reset with f0 := { Framer.reset 0x24 with pos := 3, len := 8 } }
     s.f0.pos.toNat ≤ s.f0.len.toNat ∧ Written s.mem 0 s.f0.pos.toNat s.f0.len.toNat) ∧
    (let s : State := { loaded 1 abc .reset with f1 := { Framer.reset 0x21 with pos := 8, len := 8 } }
     s.f1.pos.toNat ≤ s.f1.len.toNat ∧ Written s.mem 1 s.f1.pos.toNat s.f1.len.toNat) :=
  ⟨⟨by decide, fun j _ h => written_loaded 0 abc .reset 8 (by decide) j (Nat.zero_le j) h⟩,
    ⟨by decide, fun j h h' => absurd (Nat.lt_of_le_of_lt h h') (Nat.lt_irrefl _)⟩⟩

/-- The bytes after a loaded string are the first unwritten ones. -/
theorem firstUnwritten_loaded (u : Nat) (bs : List Byte) (lo hi : Nat) (hlo : lo ≤ bs.length)
    (hhi : bs.length < hi) : FirstUnwritten (loaded u bs State.reset).mem u lo hi bs.length := by
  refine ⟨hlo, hhi, ?_, fun j _ hj => written_loaded u bs _ bs.length (Nat.le_refl _) j (Nat.zero_le j) hj⟩
  rw [inByte, loaded, memGet_memWrite, if_neg (by simp only [inAddr]; omega)]
  rfl

/-- NmeaFeedsComplete, AisFeedsComplete: a first unwritten byte after written ones, with and without a sentence
or message completed before it, for both feeds. -/
theorem witness_unwrittenLater :
    (∀ n : Nat, abc.length < n → FirstUnwritten (loaded 0 abc State.reset).mem 0 0 n 8) ∧
    ((after (.nmeaFeedn 0 8) (loaded 0 abc .reset)).status.res = true ∧
      exec (.nmeaFeedn 0 8) (loaded 0 abc .reset) = .next (after (.nmeaFeedn 0 8) (loaded 0 abc .reset))) ∧
    ((after (.aisFeedn 0 8) (loaded 1 abc .reset)).status.res = false ∧
      exec (.aisFeedn 0 8) (loaded 1 abc .reset) = .next (after (.aisFeedn 0 8) (loaded 1 abc .reset))) ∧
    (∀ n : Nat, abc.length < n → FirstUnwritten (loaded 1 abc State.reset).mem 1 3 n 8) ∧
    (let s := { loaded 1 abc .reset with f1 := { Framer.reset 0x21 with pos := 3, len := 8 } }
     (after (.aisFeedc 0 0) s).status.res = false ∧ exec (.aisFeedc 0 0) s = .next (after (.aisFeedc 0 0) s)) ∧
    (let m := sentence 0x21 oneFragment
     FirstUnwritten (loaded 1 m State.reset).mem 1 0 21 m.length ∧
       (after (.aisFeedn 0 20) (loaded 1 m .reset)).status.res = true) :=
  ⟨fun n h => firstUnwritten_loaded 0 abc 0 n (Nat.zero_le _) h, ⟨by decide, rfl⟩, ⟨by decide, rfl⟩,
    fun n h => firstUnwritten_loaded 1 abc 3 n (by decide) h, ⟨by decide, rfl⟩,
    ⟨firstUnwritten_loaded 1 _ 0 21 (Nat.zero_le _) (by decide), by decide⟩⟩

/-- The valid sentence of two fields, the one of 32 empty fields and the one of 512 characters. -/
theorem witness_validFields :
    ValidFields 0x24 abcFields ∧ ValidFields 0x21 (List.replicate 32 []) ∧
    ValidFields 0x24 [List.replicate 512 0x7E] := by
  refine ⟨⟨by decide, by decide, by decide, by decide, ?_⟩, ⟨by decide, by decide, by decide, by decide, ?_⟩,
    ⟨by decide, by decide, by decide, by decide +kernel, ?_⟩⟩
  · unfold FieldChar; decide
  · simp
  · intro f hf b hb
    rw [List.mem_singleton.1 hf] at hb
    rw [List.eq_of_mem_replicate hb]
    unfold FieldChar; decide

/-- ValidSentenceCompletes: `abc` stands in the window, and fits. -/
theorem witness_validSentence :
    (let s : State := { loaded 0 abc .reset with f0 := { Framer.reset 0x24 with st := .ck1, len := 8 } }
     ValidFields s.f0.start abcFields ∧ Holds s.mem 0 s.f0.pos.toNat (sentence s.f0.start abcFields) ∧
     s.f0.pos.toNat + (sentence s.f0.start abcFields).length ≤ s.f0.len.toNat ∧
     (sentence s.f0.start abcFields).length ≤ (8 : Half).toNat) :=
  ⟨witness_validFields.1, holds_loaded 0 abc .reset, by decide, by decide⟩

/-- A field of one character is a valid sentence. -/
theorem oneField_valid (x : Byte) (h : FieldChar 0x24 x) : ValidFields 0x24 [[x]] :=
  ⟨.inl rfl, Nat.le_refl 1, by simp, by simp, by simpa using h⟩

/-- BadChecksumResumes: `$A*42` (the right digits are 41) with its last digit wrong, `$A*Z` with its first one
wrong, a gap of CR LF, and a start character in the place of each digit. -/
theorem witness_badChecksum :
    ValidFields 0x24 [[0x41]] ∧ ValidFields 0x24 [[0x42]] ∧
    MismatchedDigits 0x24 (body [[0x41]]) [0x34, 0x32] ∧ MismatchedDigits 0x24 (body [[0x41]]) [0x5A] ∧
    (0x24 : Byte) ∉ ([0x0D, 0x0A] : List Byte) ∧ (0x24 : Byte) ∉ ([] : List Byte) ∧
    ([0x34] : List Byte) = [check1 (body [[0x41]])] ∧
    (∀ ds gap : List Byte, ds.length + gap.length ≤ 8 →
      let bad := [(0x24 : Byte)] ++ body [[0x41]] ++ [0x2A] ++ ds ++ gap
      let s := { loaded 0 (bad ++ sentence 0x24 [[0x42]]) .reset with
        f0 := { Framer.reset 0x24 with st := .ck2, len := 16 } }
      Holds s.mem 0 s.f0.pos.toNat (bad ++ sentence 0x24 [[0x42]]) ∧
      s.f0.pos.toNat + (bad ++ sentence 0x24 [[0x42]]).length ≤ s.f0.len.toNat) ∧
    (let bad := [(0x24 : Byte)] ++ body [[0x41]] ++ [0x2A] ++ [0x34, 0x32] ++ [0x0D, 0x0A]
     Holds (loaded 0 bad .reset).mem 0 0 bad ∧ bad.length = (7 : Half).toNat ∧ (7 : Half).toNat ≤ 4096) := by
  refine ⟨oneField_valid _ (by unfold FieldChar; decide), oneField_valid _ (by unfold FieldChar; decide),
    .inr ⟨0x32, by decide, by decide, by decide⟩, .inl ⟨0x5A, rfl, by decide, by decide⟩, by decide, by decide,
    by decide, fun ds gap h => ⟨holds_loaded 0 _ _, ?_⟩, holds_loaded 0 _ _, by decide, by decide⟩
  have h1 : (body [[(0x41 : Byte)]]).length = 1 := by decide
  have h2 : (sentence 0x24 [[(0x42 : Byte)]]).length = 5 := by decide
  show 0 + _ ≤ 16
  simp only [List.length_append, List.length_cons, List.length_nil, h1, h2]
  omega

/-- The framer that has read `$AB,C*` with the first digit, its buffer of 2 bytes before it. -/
def carrying : Framer :=
  { holding 0x24 abcFields with st := .ck2, cs := xorOf (body abcFields), valid := false, len := 2 }

/-- What `carrying` carries is a beginning of `abc`. -/
theorem carrying_carried : Carried carrying (abc.take 7) :=
  .inr ⟨abcFields, witness_validFields.1, ⟨by decide, by decide⟩, by decide, by decide,
    .inr (.inr ⟨rfl, by decide⟩)⟩

theorem carrying_runs : carrying.TableRuns := by
  refine ⟨.inl (by decide), fun i h => ?_, fun i h => ?_⟩
  · have h : i + 1 < 2 := h
    obtain rfl : i = 0 := by omega
    decide
  · have h : i + 1 = 2 := h
    obtain rfl : i = 1 := by omega
    decide

/-- CompletedSentenceIsValid: a run that completes `abc` from IDLE, one that completes it from what was carried
over, and one that completes nothing. -/
theorem witness_completedRun :
    (let F : Framer := { Framer.reset 0x24 with len := 8 }
     F.start = 0x24 ∧ F.TableRuns ∧ Carried F [] ∧ F.pos.toNat ≤ F.len.toNat ∧
     ∃ F', framerRun (loaded 0 abc .reset).mem 0 F = .ok (F', true)) ∧
    (carrying.start = 0x24 ∧ carrying.TableRuns ∧ Carried carrying (abc.take 7) ∧
     carrying.pos.toNat ≤ carrying.len.toNat ∧
     (∃ F', framerRun (loaded 0 [0x43, 0x41] .reset).mem 0 carrying = .ok (F', true)) ∧
     ∃ F', framerRun (loaded 0 [0x24, 0x41] .reset).mem 0 carrying = .ok (F', false)) :=
  ⟨⟨rfl, ⟨.inr rfl, fun i h => absurd h (Nat.not_lt_zero _), fun i h => absurd h (Nat.succ_ne_zero _)⟩,
    .inl ⟨rfl, rfl⟩, by decide, _, rfl⟩,
    ⟨rfl, carrying_runs, carrying_carried, by decide, ⟨_, rfl⟩, ⟨_, rfl⟩⟩⟩

/-- The field queries: an index below the count, at it, and no sentence; fields that are and are not numbers. -/
theorem witness_fields :
    (let s := queryable [[0x2D, 0x37], [0x31, 0x2E, 0x35], [0x78]]
     s.f0.valid = true ∧ (2 : Byte).toNat < s.f0.nf.toNat ∧ s.f0.nf.toNat ≤ (3 : Byte).toNat ∧
     parseInt (fieldBytes s.f0 0) = some (-7) ∧ parseInt (fieldBytes s.f0 1) = none ∧
     parseDec (fieldBytes s.f0 1) = some (15, 1) ∧ parseDec (fieldBytes s.f0 2) = none) ∧
    State.reset.f0.valid = false := by decide

/-- NmeaFieldQueries: a legal framer that is queryable. -/
theorem witness_legalFramer : (queryable [[]]).f0.valid = true ∧ (queryable [[]]).f0.Legal := by
  refine ⟨rfl, ⟨by decide, by decide, by decide, by decide, by decide, by decide, fun i => ?_, fun _ => by decide⟩⟩
  exact Nat.zero_le 512

/-- NmeaIsMessage: a match, a mismatch, a name of 16 bytes and one of 17. -/
theorem witness_names :
    (let s := { queryable [[0x41, 0x42], [0x43]] with args := ⟨0x4241, 0, 0, 0⟩ }
     s.f0.valid = true ∧
     (s.f0.nf.toNat = (2 : Byte).toNat ∧ fieldBytes s.f0 0 = (List.range 2).map (argByte s.args)) ∧
     ¬ (s.f0.nf.toNat = (1 : Byte).toNat ∧ fieldBytes s.f0 0 = (List.range 2).map (argByte s.args)) ∧
     (2 : Half).toNat ≤ 16 ∧ (16 : Half).toNat ≤ 16 ∧ 16 < (17 : Half).toNat) := by decide

/-- ParseIntSyntax: a string of 18 digits with its sign is read. -/
theorem witness_parseInt :
    parseInt (0x2D :: List.replicate 18 0x39) = some (-999999999999999999) := by decide

/-- The fields of an AIVDM sentence are valid ones. -/
theorem aivdm_valid (t x q : Byte) (ht : FieldChar 0x21 t) (hx : FieldChar 0x21 x) (hq : FieldChar 0x21 q) :
    ValidFields 0x21 (fragment t x q) := by
  refine ⟨.inr rfl, by simp [fragment], by simp [fragment], by simp [fragment, aivdmName], ?_⟩
  have h : ∀ b ∈ aivdmName ++ [0x41, 0x77, 0x30], FieldChar 0x21 b := by unfold FieldChar; decide
  intro f hf b hb
  simp only [fragment, List.mem_cons, List.not_mem_nil, or_false] at hf
  rcases hf with rfl | rfl | rfl | rfl | rfl | rfl | rfl
  · exact h b (List.mem_append_left _ hb)
  · rw [List.mem_singleton.1 hb]; exact ht
  · rw [List.mem_singleton.1 hb]; exact hx
  · rw [List.mem_singleton.1 hb]; exact hq
  all_goals exact h b (by rw [List.mem_singleton.1 hb]; decide)

/-- The AIS state after fragment 1 of a sequence of id 7 and payload "1". -/
def inSequence : Ais := aisFirst Ais.reset [0x31] [0x37]

/-- `s` with a string of IN1 loaded and F1 part of the way through it, in a sentence cut off. -/
def partWay (pos : BitVec 13) (bs : List Byte) (s : State) : State :=
  { loaded 1 bs s with
    f1 := { Framer.reset 0x21 with st := .ck1, pos := pos, len := BitVec.ofNat 13 bs.length } }

/-- Of what is loaded, the bytes from an index on are held there. -/
theorem holds_drop {m : Memory} {u : Nat} {bs : List Byte} (h : Holds m u 0 bs) (a : Nat) :
    Holds m u a (bs.drop a) := by
  intro j hj
  have := h (a + j) (by rw [List.length_drop] at hj; omega)
  rwa [Nat.zero_add, ← List.getElem?_drop] at this

/-- Sentences U1 passes over: one of two fields, and an AIVDM sentence of 6, each with CR LF. -/
theorem witness_passedOver :
    PassedOver (sentence 0x21 abcFields ++ [0x0D, 0x0A]) ∧
    PassedOver (sentence 0x21 (oneFragment.take 6) ++ [0x0D, 0x0A]) := by
  have hv : ∀ fs : List (List Byte), 1 ≤ fs.length → fs.length ≤ 32 → (fs.map List.length).sum ≤ 512 →
      (∀ b ∈ fs.flatten, FieldChar 0x21 b) → ValidFields 0x21 fs := fun fs h1 h2 h3 h4 =>
    ⟨.inr rfl, h1, h2, h3, fun f hf b hb => h4 b (List.mem_flatten.2 ⟨f, hf, hb⟩)⟩
  refine ⟨⟨_, _, hv _ ?_ ?_ ?_ ?_, ?_, ?_, rfl⟩, ⟨_, _, hv _ ?_ ?_ ?_ ?_, ?_, ?_, rfl⟩⟩
  all_goals first
    | (unfold IsAivdm; decide)
    | (unfold FieldChar; decide)
    | decide

/-- AisSingleSentenceEmits: one sentence of 7 fields with total 1 in a longer buffer, for AIS.FEEDN and for
AIS.FEEDC past the first byte, F1 in a sentence cut off; behind a sentence passed over; that one alone; and
the other spellings of 1. -/
theorem witness_singleSentence :
    (let fs := fragment 0x31 0x31 0x37
     let skipped := sentence 0x21 abcFields ++ [0x0D, 0x0A]
     let buf := [0x21] ++ (skipped ++ sentence 0x21 fs)
     ValidFields 0x21 fs ∧ PassedOver skipped ∧ State.reset.f1.start = 0x21 ∧
     (FeedsU1 (.aisFeedn 0 23) (loaded 1 (sentence 0x21 fs) .reset) 0 23 ∧
       Holds (loaded 1 (sentence 0x21 fs) .reset).mem 1 0 (sentence 0x21 fs) ∧
       0 + (sentence 0x21 fs).length ≤ 23) ∧
     (FeedsU1 (.aisFeedc 0 0) (partWay 1 buf .reset) 1 32 ∧ (partWay 1 buf .reset).f1.start = 0x21 ∧
       Holds (partWay 1 buf .reset).mem 1 1 (skipped ++ sentence 0x21 fs) ∧
       1 + (skipped ++ sentence 0x21 fs).length ≤ 32) ∧
     (FeedsU1 (.aisFeedn 0 10) (loaded 1 skipped .reset) 0 10 ∧ Holds (loaded 1 skipped .reset).mem 1 0 skipped ∧
       0 + skipped.length = 10)) ∧
    parseInt [0x31] = some 1 ∧ parseInt [0x30, 0x31] = some 1 ∧ parseInt [0x2B, 0x31] = some 1 :=
  ⟨⟨aivdm_valid _ _ _ (by unfold FieldChar; decide) (by unfold FieldChar; decide)
    (by unfold FieldChar; decide), witness_passedOver.1, rfl,
    ⟨.inl ⟨_, _, rfl, rfl, rfl, by decide⟩, holds_loaded 1 _ _, by decide⟩,
    ⟨.inr ⟨_, _, rfl, rfl, by decide⟩, rfl, holds_drop (holds_loaded 1 _ .reset) 1, by decide⟩,
    ⟨.inl ⟨_, _, rfl, rfl, rfl, by decide⟩, holds_loaded 1 _ _, by decide⟩⟩, by decide, by decide, by decide⟩

/-- AisTwoFragmentBuffer: equal ids (7, 7) and different ones (9, 7), CR LF between and after, for AIS.FEEDN
and for AIS.FEEDC; each fragment alone; and the first one held. -/
theorem witness_twoFragments :
    (let gs := fragment 0x32 0x32 0x37
     ValidFields 0x21 gs ∧ (0x21 : Byte) ∉ ([0x0D, 0x0A] : List Byte) ∧
     FirstHeld inSequence [0x37] [0x31] ∧
     ∀ q ∈ ([0x37, 0x39] : List Byte),
       ValidFields 0x21 (fragment 0x32 0x31 q) ∧
       ∀ buf ∈ [sentence 0x21 (fragment 0x32 0x31 q) ++ [0x0D, 0x0A] ++ sentence 0x21 gs ++ [0x0D, 0x0A],
           sentence 0x21 (fragment 0x32 0x31 q) ++ [0x0D, 0x0A], sentence 0x21 gs ++ [0x0D, 0x0A]],
         (FeedsU1 (.aisFeedn 0 (BitVec.ofNat 16 buf.length)) (loaded 1 buf .reset) 0 buf.length ∧
           Holds (loaded 1 buf .reset).mem 1 0 buf) ∧
         (FeedsU1 (.aisFeedc 0 0) (partWay 1 ([0x21] ++ buf) .reset) 1 (1 + buf.length) ∧
           Holds (partWay 1 ([0x21] ++ buf) .reset).mem 1 1 buf)) := by
  refine ⟨aivdm_valid _ _ _ ?_ ?_ ?_, by decide, by unfold FirstHeld; decide, fun q hq =>
    ⟨aivdm_valid _ _ _ ?_ ?_ ?_, fun buf hb => ⟨⟨.inl ⟨_, _, rfl, rfl, ?_, ?_⟩, holds_loaded 1 _ _⟩,
      ⟨.inr ⟨_, _, rfl, rfl, ?_⟩, holds_drop (holds_loaded 1 _ .reset) 1⟩⟩⟩⟩
  all_goals first
    | (unfold FieldChar; decide)
    | (simp only [List.mem_cons, List.not_mem_nil, or_false] at hq
       first
         | (rcases hq with rfl | rfl <;> (unfold FieldChar; decide))
         | (simp only [List.mem_cons, List.not_mem_nil, or_false] at hb
            rcases hq with rfl | rfl <;> rcases hb with rfl | rfl | rfl <;> decide))

/-- The reassembly statements: a total of 1, no AIVDM sentence, counts that are no integers. -/
theorem witness_reassembly_single :
    (parseInt (fieldBytes (holding 0x21 oneFragment) 1) = some 1 ∧
      (fieldBytes (holding 0x21 oneFragment) 5).length ≤ 4096) ∧
    (holding 0x21 abcFields).nf.toNat ≠ 7 ∧
    parseInt (fieldBytes (holding 0x21 (fragment 0x78 0x31 0x37)) 1) = none ∧
    (parseInt (fieldBytes (holding 0x21 (fragment 0x32 0x78 0x37)) 1) = some 2 ∧
      parseInt (fieldBytes (holding 0x21 (fragment 0x32 0x78 0x37)) 2) = none) := by decide

/-- FragmentsInSequenceAccumulate: a first fragment, fragment 2 of 3, and fragment 2 of 2. -/
theorem witness_sequence :
    (let F := holding 0x21 (fragment 0x32 0x31 0x37)
     parseInt (fieldBytes F 1) = some 2 ∧ parseInt (fieldBytes F 2) = some 1 ∧
     (fieldBytes F 5).length ≤ 512 ∧ (fieldBytes F 3).length ≤ 512) ∧
    (let F := holding 0x21 (fragment 0x33 0x32 0x37)
     parseInt (fieldBytes F 1) = some 3 ∧ parseInt (fieldBytes F 2) = some 2 ∧ inSequence.inprog = true ∧
     2 = inSequence.expect.toInt ∧ fieldBytes F 3 = bufRead inSequence.seq 0 inSequence.seqlen.toNat ∧
     inSequence.acclen.toNat + (fieldBytes F 5).length ≤ 4096) ∧
    (let F := holding 0x21 (fragment 0x32 0x32 0x37)
     parseInt (fieldBytes F 1) = some 2 ∧ parseInt (fieldBytes F 2) = some 2 ∧
     fieldBytes F 3 = bufRead inSequence.seq 0 inSequence.seqlen.toNat) := by decide

/-- BrokenSequenceIsDropped: each of its five breaks. -/
theorem witness_breaks :
    (let F := holding 0x21 (fragment 0x32 0x32 0x37)
     parseInt (fieldBytes F 1) = some 2 ∧ parseInt (fieldBytes F 2) = some 2 ∧ Ais.reset.inprog = false ∧
     (2 : Int) ≠ ({ inSequence with expect := 3 } : Ais).expect.toInt ∧
     ({ inSequence with acclen := 4096 } : Ais).acclen.toNat + (fieldBytes F 5).length > 4096) ∧
    fieldBytes (holding 0x21 (fragment 0x32 0x32 0x39)) 3 ≠
      bufRead inSequence.seq 0 inSequence.seqlen.toNat ∧
    (let F := holding 0x21 (fragment 0x32 0x33 0x37)
     parseInt (fieldBytes F 1) = some 2 ∧ parseInt (fieldBytes F 2) = some 3 ∧ (3 : Int) > 2) := by decide

/-- The AIS queries: with and without a message, at and past its end, and at the longest bit count. -/
theorem witness_messages :
    State.reset.ais.msgvalid = false ∧
    (let s := withMessage [0x77]
     s.ais.msgvalid = true ∧ 6 * s.ais.msglen.toNat < 1 + (6 : BitVec 7).toNat ∧
       0 + (6 : BitVec 7).toNat ≤ 6 * s.ais.msglen.toNat ∧ 1 ≤ s.ais.msglen.toNat) ∧
    (let s := withMessage p1
     s.ais.msgvalid = true ∧ 104 + (64 : BitVec 7).toNat ≤ 6 * s.ais.msglen.toNat ∧ 7 ≤ s.ais.msglen.toNat) ∧
    (64 : BitVec 7).toNat ≤ 64 ∧ 64 < (65 : BitVec 7).toNat := by decide

/-- AisPositionReport: no readable type, another type, and one of each offset set. -/
theorem witness_positionTypes :
    readBits (withMessage []).ais 0 6 false = none ∧
    (readBits (withMessage [0x35]).ais 0 6 false = some 5 ∧ (5 : Int) ∉ ([1, 2, 3, 18, 19] : List Int)) ∧
    (readBits (withMessage p1).ais 0 6 false = some 1 ∧ (1 : Int) ∈ ([1, 2, 3, 18, 19] : List Int)) ∧
    (readBits (withMessage [0x43]).ais 0 6 false = some 19 ∧ (19 : Int) ∈ ([1, 2, 3, 18, 19] : List Int)) := by
  decide

/-- SigRegisterAndClear: the last slot and size, and the first beyond. -/
theorem witness_slotBounds :
    (7 : Byte).toNat < 8 ∧ (4095 : Half).toNat ≤ 4095 ∧ 8 ≤ (8 : Byte).toNat ∧ 4095 < (4096 : Half).toNat ∧
    4096 < (4097 : Half).toNat ∧ (slotGet State.reset.slots 0).reg = false := by decide

/-- The frame of `pgOk` at offset 9 of `pgBad ++ pgOk`. -/
theorem frameAt_pgOk : FrameAt (loaded 2 (pgBad ++ pgOk) withPg).mem pg 18 9 [0x01, 0x02, 0x03] := by
  have h := holds_loaded 2 (pgBad ++ pgOk) withPg
  refine ⟨by decide, by decide, fun j hj => ?_, fun j hj => ?_, by decide⟩ <;>
    (revert hj; revert j; decide)

/-- SigScanFindsFirst, SigLatestFindsLast: a window with one frame, one with none, and an unwritten one. -/
theorem witness_scans :
    (let s := loaded 2 (pgBad ++ pgOk) withPg
     (0 : Byte).toNat < 8 ∧ (18 : Half).toNat ≤ 4096 ∧ slotGet s.slots (0 : Byte).toNat = pg ∧ pg.reg = true ∧
     Written s.mem 2 s.args.a0.toNat (18 : Half).toNat ∧ FrameAt s.mem pg (18 : Half).toNat 9 [0x01, 0x02, 0x03] ∧
     (∀ j p, s.args.a0.toNat ≤ j → j < 9 → ¬ FrameAt s.mem pg (18 : Half).toNat j p) ∧
     (∀ j p, 9 < j → ¬ FrameAt s.mem pg (18 : Half).toNat j p)) ∧
    (Written (loaded 2 pgBad withPg).mem 2 0 (8 : Half).toNat ∧
      ∀ i p, ¬ FrameAt (loaded 2 pgBad withPg).mem pg (8 : Half).toNat i p) ∧
    withPg.Final ∧ ¬ Written withPg.mem 2 0 (9 : Half).toNat := by
  refine ⟨⟨by decide, by decide, by decide, rfl, written_loaded 2 _ _ _ (by decide), frameAt_pgOk, ?_, ?_⟩,
    ⟨written_loaded 2 _ _ _ (by decide), ?_⟩, rfl, fun h => h 0 (Nat.le_refl 0) (by decide) rfl⟩
  · rintro j p - hj ⟨-, h1, h3, h4, h5⟩
    have h0 := h3 0 (by simp [signature])
    interval_cases j
    · have hp : p = [0x01, 0x09, 0x03] := by
        obtain ⟨a, b, c, rfl⟩ := List.length_eq_three.1 (show p.length = 3 from h1)
        have e0 := h4 0 (by simp)
        have e1 := h4 1 (by simp)
        have e2 := h4 2 (by simp)
        simp only [List.getElem?_cons_zero, List.getElem?_cons_succ] at e0 e1 e2
        have g0 : inByte (loaded 2 (pgBad ++ pgOk) withPg).mem 2 5 = some 0x01 := by decide
        have g1 : inByte (loaded 2 (pgBad ++ pgOk) withPg).mem 2 6 = some 0x09 := by decide
        have g2 : inByte (loaded 2 (pgBad ++ pgOk) withPg).mem 2 7 = some 0x03 := by decide
        simp only [Nat.zero_add, Nat.reduceAdd, g0, g1, g2, Option.some.injEq] at e0 e1 e2
        rw [← e0, ← e1, ← e2]
      subst hp
      revert h5
      decide
    all_goals (revert h0; decide)
  · rintro j p hj ⟨h1, -⟩
    simp only [pg] at h1
    have : (3 : BitVec 12).toNat = 3 := rfl
    have : (18 : Half).toNat = 18 := rfl
    omega
  · rintro i p ⟨h1, -⟩
    simp only [pg] at h1
    have : (3 : BitVec 12).toNat = 3 := rfl
    have : (8 : Half).toNat = 8 := rfl
    omega

/-- RotXorClosedFormDetects: a valid frame, and another byte for one of its payload. -/
theorem witness_validFrame :
    frameAtHead pg pgOk = true ∧ 5 ≤ 6 ∧ 6 < 5 + pg.size.toNat ∧ pgOk[6]? ≠ some 0x09 ∧
      (0x02 : Byte) ≠ 0x09 := by decide

/-- SigSlotsAreIndependent: two states that differ in slot 1 only. -/
theorem witness_slots :
    (let s := withPg
     let s' := { withPg with slots := slotSet withPg.slots 1 pg }
     exec (.sigClr 0 0) s = .next (after (.sigClr 0 0) s) ∧ s' = { s with slots := s'.slots } ∧
     slotGet s'.slots (0 : Byte).toNat = slotGet s.slots (0 : Byte).toNat ∧ slotGet s'.slots 1 ≠ slotGet s.slots 1) :=
  ⟨rfl, rfl, by decide, by decide⟩

/-- CrcLoopsAreUnbounded: a full buffer. -/
theorem witness_fullBuffer :
    ({ Crc.reset with fill := 1024 } : Crc).fill.toNat ≤ 1024 ∧
    (List.replicate 1 (0 : Byte)).length > 1024 - ({ Crc.reset with fill := 1024 } : Crc).fill.toNat := by decide

theorem bitsOf_append (a b : List Byte) : bitsOf (a ++ b) = bitsOf a ++ bitsOf b := List.flatMap_append

/-- The CRC register over `frame`, 28 bytes at a time. -/
theorem frame_crc_chunks :
    (bitsOf ((frame.drop 0).take 28)).foldl lfsr 0x00000000 = 0xAFDDB6A6 ∧
    (bitsOf ((frame.drop 28).take 28)).foldl lfsr 0xAFDDB6A6 = 0x29BF446E ∧
    (bitsOf ((frame.drop 56).take 28)).foldl lfsr 0x29BF446E = 0x69C95806 ∧
    (bitsOf ((frame.drop 84).take 28)).foldl lfsr 0x69C95806 = 0x9B6BC5F0 ∧
    (bitsOf ((frame.drop 112).take 28)).foldl lfsr 0x9B6BC5F0 = 0x09A3C058 ∧
    (bitsOf ((frame.drop 140).take 28)).foldl lfsr 0x09A3C058 = 0x42604F75 ∧
    (bitsOf ((frame.drop 168).take 28)).foldl lfsr 0x42604F75 = 0xE116C62D ∧
    (bitsOf ((frame.drop 196).take 28)).foldl lfsr 0xE116C62D = 0xB883BB13 ∧
    (bitsOf ((frame.drop 224).take 28)).foldl lfsr 0xB883BB13 = 0xC64D595E := by
  refine ⟨?_, ?_, ?_, ?_, ?_, ?_, ?_, ?_, ?_⟩ <;> decide +kernel

/-- The CRC register over `frame` without its CRC. -/
theorem frame_crc : (bitsOf (frame.take 252)).foldl lfsr 0 = 0xC64D595E := by
  have hsplit : frame.take 252 = (frame.drop 0).take 28 ++ ((frame.drop 28).take 28 ++
      ((frame.drop 56).take 28 ++ ((frame.drop 84).take 28 ++ ((frame.drop 112).take 28 ++
      ((frame.drop 140).take 28 ++ ((frame.drop 168).take 28 ++ ((frame.drop 196).take 28 ++
      (frame.drop 224).take 28))))))) := by decide +kernel
  obtain ⟨h0, h1, h2, h3, h4, h5, h6, h7, h8⟩ := frame_crc_chunks
  simp only [hsplit, bitsOf_append, List.foldl_append, h0, h1, h2, h3, h4, h5, h6, h7, h8]

/-- AgricbFrameBehaviour: `frame` is an AGRICB frame (TC6), one payload byte of it can change, and its first 23
bytes are a preamble with fewer than 24 bytes in all. -/
theorem witness_agricbFrame :
    AgricbFrame frame ∧ CrcEmpty Crc.reset ∧ (24 ≤ 24 ∧ frame[24]? ≠ some 0x01) ∧
    (251 < 252 ∧ frame[251]? ≠ some 0x00) ∧
    ((frame.take 23).take 3 = [0xAA, 0x44, 0xB5] ∧ (frame.take 23).length < 24) := by
  refine ⟨⟨by decide +kernel, by decide, ?_⟩, by unfold CrcEmpty; decide, by decide +kernel,
    by decide +kernel, by decide⟩
  rw [frame_crc]
  decide +kernel

/-- AgricbFrameBehaviour, a frame behind other bytes: behind a preamble with an unlisted header (the bytes of
TC24), and behind a candidate whose CRC is wrong. -/
theorem witness_frameBehind :
    (let before : List Byte := [0x00, 0xAA, 0x44, 0xB5, 0x00, 0x00, 0x00]
     before.length + 256 ≤ 1024 ∧
     ∀ i, i < before.length → ¬ AgricbFrame (((before ++ frame).drop i).take 256)) ∧
    (let before := frame.take 252 ++ [0, 0, 0, 0]
     before.length + 256 ≤ 1024 ∧
     ∀ i, i < before.length → ¬ AgricbFrame (((before ++ frame).drop i).take 256)) := by
  have h7 : ∀ i, i < 7 → ((([0x00, 0xAA, 0x44, 0xB5, 0x00, 0x00, 0x00] ++ frame).drop i).take 256).take 7 ≠
      [0xAA, 0x44, 0xB5, 0x0C, 0x2C, 0xE4, 0x00] := by decide +kernel
  have hx : ∀ i, i < 255 → ((((frame.take 252 ++ [0, 0, 0, 0] ++ frame).drop (i + 1)).take 256).take 7) ≠
      [0xAA, 0x44, 0xB5, 0x0C, 0x2C, 0xE4, 0x00] := by decide +kernel
  refine ⟨⟨by decide, fun i hi h => h7 i hi h.2.1⟩, ⟨by decide +kernel, fun i hi h => ?_⟩⟩
  rcases i with _ | i
  · have ht : (((frame.take 252 ++ [0, 0, 0, 0] ++ frame).drop 0).take 256).take 252 = frame.take 252 := by
      decide +kernel
    have hc := h.2.2
    rw [ht, frame_crc] at hc
    revert hc
    decide +kernel
  · have hl : (frame.take 252 ++ [0, 0, 0, 0]).length = 256 := by decide +kernel
    exact hx i (by omega) h.2.1

/-- OverflowDiscardsTheBuffer: 1024 bytes 0xAA, among which no preamble stands, and a buffer that 4 bytes fill
with U3 waiting. -/
theorem witness_overflow :
    (CrcEmpty Crc.reset ∧ (List.replicate 1024 (0xAA : Byte)).length = 1024 ∧
      ∀ i, ((List.replicate 1024 (0xAA : Byte)).drop i).take 3 ≠ [0xAA, 0x44, 0xB5]) ∧
    (let c : Crc := { Crc.reset with fill := 1020, pos := 1020 }
     c.Legal ∧ c.AtRest ∧ c.fill.toNat + ([0xAA, 0x44, 0xB5, 0x0C] : List Byte).length = 1024 ∧
     ∃ d, d.st = .hdr ∧ crcRun (crcAppend c [0xAA, 0x44, 0xB5, 0x0C]) = (d, 0)) := by
  refine ⟨⟨by unfold CrcEmpty; decide, List.length_replicate, fun i h => ?_⟩,
    ⟨⟨by decide, by decide, by decide, by decide, by decide, by decide⟩, ⟨by decide, by decide⟩, by decide,
      _, rfl, rfl⟩⟩
  have h44 : (0x44 : Byte) ∈ ((List.replicate 1024 (0xAA : Byte)).drop i).take 3 := by rw [h]; decide
  exact absurd (List.eq_of_mem_replicate (List.mem_of_mem_drop (List.mem_of_mem_take h44))) (by decide)

/-- U3 waiting in HDR on a preamble. -/
def inHeader : Crc := { Crc.reset with st := .hdr, acc := bufWrite [] 0 [0xAA, 0x44, 0xB5], fill := 3 }

/-- EmptyCrcFeedChangesNothing, CrcFeedsJoin: U3 legal and at rest. -/
theorem witness_crcAtRest : inHeader.Legal ∧ inHeader.AtRest :=
  ⟨⟨by decide, by decide, by decide, by decide, by decide, by decide⟩, ⟨by decide, by decide⟩⟩

/-- CrcFieldAndNorm: an AGRICB frame held and none, a named field, and the last norm. That an index is in no
layout depends on the free layout: it is so of 18 where the layout has no further entry. -/
theorem witness_agricbHeld :
    AgricbHeld { Crc.reset with rlen := 256, res := bufWrite [] 0 [0xAA, 0x44, 0xB5, 0x0C, 0x2C, 0xE4, 0x00] } ∧
    ¬ AgricbHeld Crc.reset ∧ layoutEntry (17 : Byte).toNat = some (Config.agricbNamed .velStdU) ∧
    (Config.agricbExtra = [] → layoutEntry (18 : Byte).toNat = none) ∧
    (3 : Byte).toNat ≤ 3 ∧ 3 < (4 : Byte).toNat ∧ (17 : Byte).toNat < 18 := by
  refine ⟨by unfold AgricbHeld; decide, by unfold AgricbHeld; decide, rfl, fun h => ?_, by decide, by decide,
    by decide⟩
  show cellsFind Config.agricbExtra 18 = none
  rw [h]
  rfl

/-- A legal state other than power-on: input bytes written, U3 in HDR, a command waiting, the mark set. -/
def working : State :=
  { loaded 0 abc .reset with
    crc := inHeader
    port := [.write 0 4 0x01000008]
    faultMark := some (.badAccess 0x016) }

/-- StepKeepsLegal, StepKeepsCrcAtRest, StepKeepsFieldTables, FaultMarkIsNeverCleared: a legal state at rest,
its field tables running forward, nothing carried, the fault mark set, and a step from it. -/
theorem witness_legalState :
    working.Legal ∧ working.crc.AtRest ∧ working.f0.TableRuns ∧ working.f1.TableRuns ∧
    (∃ w, Carried working.f0 w) ∧ (∃ w, Carried working.f1 w) ∧
    working.faultMark ≠ none ∧ ∃ t, step working = .next t := by
  have hF : ∀ c, (Framer.reset c).Legal := fun c =>
    ⟨Nat.zero_le _, Nat.zero_le _, Nat.le_refl _, Nat.zero_le _, nil_wf 512, nil_wf 32,
      fun _ => Nat.zero_le 512, fun h => by rcases h with h | h <;> exact absurd h (by simp [Framer.reset])⟩
  have hT : ∀ c, (Framer.reset c).TableRuns := fun c =>
    ⟨.inr rfl, fun i h => absurd h (Nat.not_lt_zero _), fun i h => absurd h (Nat.succ_ne_zero _)⟩
  refine ⟨⟨hF _, hF _, .inl rfl, rfl, ⟨by decide, by decide, by decide, by decide, by decide, by decide⟩,
    fun k => ⟨?_⟩, witness_crcAtRest.1, by decide⟩, witness_crcAtRest.2, hT _, hT _, ⟨_, .inl ⟨rfl, rfl⟩⟩,
    ⟨_, .inl ⟨rfl, rfl⟩⟩, by decide, _, rfl⟩
  have h : slotGet working.slots k = Slot.reset := by
    by_cases hk : k < 8
    · interval_cases k <;> rfl
    · show (Vector.replicate 8 Slot.reset)[k]?.getD Slot.reset = Slot.reset
      rw [Vector.getElem?_eq_none (by omega)]
      rfl
  rw [h]
  decide

/-- CommandsTouchTheirUnitOnly, UnitsCommute: commands of two units, neither of the block, and a next state. -/
theorem witness_units :
    unit (.nmeaCfg 0x24 0) ≠ unit (.crcTake 0 0) ∧ unit (.nmeaCfg 0x24 0) ≠ 15 ∧ unit (.crcTake 0 0) ≠ 15 ∧
    unit (.blkReset 0 0) = 15 ∧ unit (.aisPos 0 0) ≠ 0 ∧
    exec (.nmeaCfg 0x24 0) .reset = .next (after (.nmeaCfg 0x24 0) .reset) :=
  ⟨by decide, by decide, by decide, by decide, by decide, rfl⟩

end Sys2Proof.Tests
end

section
/-!
The words of STATUS and of the view registers as numbers (10_state.md R25, R32 to R47), what the view
windows show (R35; 20_memory.md R61), and the step at a command write (10_state.md R24).
-/

namespace Sys2Proof.Machine

/-! ### Fields of a register word -/

/-- A field that lies inside the word has its value at its place. -/
theorem toNat_fieldAt {w : Nat} (v : BitVec w) {lo : Nat} (h : lo + w ≤ 32) :
    (fieldAt v lo).toNat = 2 ^ lo * v.toNat := by
  have hv : v.toNat < 2 ^ w := v.isLt
  have hlt : v.toNat * 2 ^ lo < 2 ^ 32 := calc
    v.toNat * 2 ^ lo < 2 ^ w * 2 ^ lo := Nat.mul_lt_mul_of_pos_right hv (Nat.two_pow_pos lo)
    _ = 2 ^ (lo + w) := by rw [← Nat.pow_add, Nat.add_comm]
    _ ≤ 2 ^ 32 := Nat.pow_le_pow_right (by decide) h
  have hle : v.toNat ≤ v.toNat * 2 ^ lo := Nat.le_mul_of_pos_right _ (Nat.two_pow_pos lo)
  rw [fieldAt, BitVec.toNat_shiftLeft, BitVec.toNat_setWidth, Nat.mod_eq_of_lt (Nat.lt_of_le_of_lt hle hlt),
    Nat.shiftLeft_eq, Nat.mod_eq_of_lt hlt, Nat.mul_comm]

/-- A field above all bits of a word adds its value at its place. -/
theorem toNat_or_fieldAt (x : Word) {w : Nat} (v : BitVec w) {lo : Nat} (hx : x.toNat < 2 ^ lo)
    (h : lo + w ≤ 32) : (x ||| fieldAt v lo).toNat = x.toNat + 2 ^ lo * v.toNat := by
  rw [BitVec.toNat_or, toNat_fieldAt v h, Nat.or_comm, ← Nat.two_pow_add_eq_or_of_lt hx, Nat.add_comm]

/-- A flag is a field of one bit. -/
theorem flag_shiftLeft (b : Bool) (lo : Nat) : flag b <<< lo = fieldAt (BitVec.ofBool b) lo := by
  cases b <;> rfl

/-- A flag above all bits of a word adds its value at its place. -/
theorem toNat_or_flag (x : Word) (b : Bool) {lo : Nat} (hx : x.toNat < 2 ^ lo) (h : lo < 32) :
    (x ||| flag b <<< lo).toNat = x.toNat + 2 ^ lo * b.toNat := by
  rw [flag_shiftLeft, toNat_or_fieldAt x _ hx h, BitVec.toNat_ofBool]

/-- A flag sets its own bit alone. -/
theorem getLsbD_flag_shiftLeft (b : Bool) {k : Nat} (hk : k < 32) (i : Nat) :
    (flag b <<< k).getLsbD i = (decide (i = k) && b) := by
  rw [BitVec.getLsbD_shiftLeft]
  rcases Nat.lt_trichotomy i k with h | rfl | h
  · simp [h, show i ≠ k by omega]
  · cases b <;> simp [flag, hk]
  · have hz : (flag b).getLsbD (i - k) = false := by
      obtain ⟨j, hj⟩ : ∃ j, i - k = j + 1 := ⟨i - k - 1, by omega⟩
      cases b <;> simp [flag, hj]
    simp [hz, show i ≠ k by omega]

/-! ### The words -/

theorem statusWord_toNat (t : Status) :
    (statusWord t).toNat = t.err.code.toNat + 256 * t.res.toNat + 512 * t.nodata.toNat := by
  have h0 := toNat_fieldAt t.err.code (lo := 0) (by decide)
  have hc := t.err.code.isLt
  have hr := t.res.toNat_le
  have h1 := toNat_or_flag (fieldAt t.err.code 0) t.res (lo := 8) (by omega) (by decide)
  rw [statusWord, toNat_or_flag _ _ (by omega) (by decide), h1, h0]
  omega

theorem framerStateWord_toNat (F : Framer) :
    (framerStateWord F).toNat =
      F.st.code.toNat + 4 * F.valid.toNat + 256 * F.start.toNat + 65536 * F.nf.toNat := by
  have hc := F.st.code.isLt
  have hv := F.valid.toNat_le
  have hs := F.start.isLt
  have h0 := toNat_fieldAt F.st.code (lo := 0) (by decide)
  have h1 := toNat_or_flag (fieldAt F.st.code 0) F.valid (lo := 2) (by omega) (by decide)
  have h2 := toNat_or_fieldAt (fieldAt F.st.code 0 ||| flag F.valid <<< 2) F.start (lo := 8) (by omega)
    (by decide)
  rw [framerStateWord, toNat_or_fieldAt _ _ (by omega) (by decide), h2, h1, h0]
  omega

/-- Two fields, the second above the first, are their values at their places. -/
theorem toNat_twoFields {w w' : Nat} (v : BitVec w) (v' : BitVec w') {lo : Nat} (hw : w ≤ lo)
    (h : lo + w' ≤ 32) : (fieldAt v 0 ||| fieldAt v' lo).toNat = v.toNat + 2 ^ lo * v'.toNat := by
  have h0 := toNat_fieldAt v (lo := 0) (by omega)
  have hv : v.toNat < 2 ^ lo := Nat.lt_of_lt_of_le v.isLt (Nat.pow_le_pow_right (by decide) hw)
  rw [toNat_or_fieldAt _ _ (by omega) h, h0]
  omega

/-- A field and a flag above it are their values at their places. -/
theorem toNat_field_flag {w : Nat} (v : BitVec w) (b : Bool) {lo : Nat} (hw : w ≤ lo) (h : lo < 32) :
    (fieldAt v 0 ||| flag b <<< lo).toNat = v.toNat + 2 ^ lo * b.toNat := by
  rw [flag_shiftLeft, toNat_twoFields v _ hw h, BitVec.toNat_ofBool]

theorem framerPosWord_toNat (F : Framer) :
    (framerPosWord F).toNat = F.pos.toNat + 65536 * F.len.toNat :=
  toNat_twoFields F.pos F.len (by decide) (by decide)

theorem framerAccWord_toNat (F : Framer) : (framerAccWord F).toNat = F.cs.toNat + 65536 * F.nc.toNat :=
  toNat_twoFields F.cs F.nc (by decide) (by decide)

theorem aisFragWord_toNat (A : Ais) : (aisFragWord A).toNat = A.acclen.toNat + 8192 * A.inprog.toNat :=
  toNat_field_flag A.acclen A.inprog (by decide) (by decide)

theorem aisMsgWord_toNat (A : Ais) : (aisMsgWord A).toNat = A.msglen.toNat + 8192 * A.msgvalid.toNat :=
  toNat_field_flag A.msglen A.msgvalid (by decide) (by decide)

theorem crcStateWord_toNat (c : Crc) : (crcStateWord c).toNat = c.st.code.toNat + 4 * c.ready.toNat :=
  toNat_field_flag c.st.code c.ready (by decide) (by decide)

theorem crcFillWord_toNat (c : Crc) : (crcFillWord c).toNat = c.fill.toNat + 65536 * c.pos.toNat :=
  toNat_twoFields c.fill c.pos (by decide) (by decide)

theorem crcHdrWord_toNat (c : Crc) : (crcHdrWord c).toNat = c.mid.toNat + 65536 * c.plen.toNat :=
  toNat_twoFields c.mid c.plen (by decide) (by decide)

theorem crcRlenWord_toNat (c : Crc) : (crcRlenWord c).toNat = c.rlen.toNat :=
  (toNat_fieldAt c.rlen (by decide)).trans (Nat.one_mul _)

/-- The flags of the first `n` slots, each at its two places. -/
theorem getLsbD_sigFlags (v : Vector Slot 8) {n : Nat} (hn : n ≤ 8) (b : Nat) :
    ((List.range n).foldl (fun w k => w ||| flag (slotGet v k).present <<< k |||
        flag (slotGet v k).reg <<< (8 + k)) (0 : Word)).getLsbD b =
      if b < n then (slotGet v b).present
      else if 8 ≤ b ∧ b < 8 + n then (slotGet v (b - 8)).reg else false := by
  induction n with
  | zero => simp
  | succ n ih =>
    rw [List.range_succ, List.foldl_append, List.foldl_cons, List.foldl_nil, BitVec.getLsbD_or,
      BitVec.getLsbD_or, ih (by omega), getLsbD_flag_shiftLeft _ (by omega),
      getLsbD_flag_shiftLeft _ (by omega)]
    rcases Nat.lt_trichotomy b n with h | rfl | h
    · simp [h, show b ≠ n by omega, show b ≠ 8 + n by omega, show b < n + 1 by omega]
    · simp [show ¬ 8 ≤ b by omega]
    · by_cases h' : b = 8 + n
      · subst h'
        simp
      · simp [h', show ¬ b < n by omega, show b ≠ n by omega, show ¬ b < n + 1 by omega,
          show (b < 8 + (n + 1)) = (b < 8 + n) from propext (by omega)]

/-- SG_FLAGS bit by bit (10_state.md R41). -/
theorem getLsbD_sigFlagsWord (v : Vector Slot 8) (b : Nat) :
    (sigFlagsWord v).getLsbD b =
      if b < 8 then (slotGet v b).present
      else if b < 16 then (slotGet v (b - 8)).reg else false := by
  rw [sigFlagsWord, getLsbD_sigFlags v (Nat.le_refl 8)]
  by_cases h : b < 8
  · simp [h]
  · simp [h, Nat.not_lt.1 h]

/-! ### Windows -/

/-- The two bytes of a 16-bit value make it up (20_memory.md R64). -/
theorem toNat_byteLanes (x : Half) : (byteLane x 0).toNat + 256 * (byteLane x 1).toNat = x.toNat := by
  have h := x.isLt
  simp only [byteLane, BitVec.extractLsb'_toNat, Nat.shiftRight_eq_div_pow]
  omega

/-- A 16-bit window read is its two bytes, the low one first (20_memory.md R64). -/
theorem busRead_two (s : State) {a : Nat} (h : 0x01000 ≤ a) :
    (busRead s a 2).toNat = (windowByte s a).toNat + 256 * (windowByte s (a + 1)).toNat := by
  have h0 := (windowByte s a).isLt
  have h1 := (windowByte s (a + 1)).isLt
  rw [busRead, if_neg (by omega), show List.range' a 2 = [a, a + 1] from rfl, List.map_cons, List.map_cons,
    List.map_nil, leNat_cons, leNat_cons, leNat, BitVec.toNat_ofNat]
  omega

/-- NM_CHARS shows the stored characters. -/
theorem windowByte_chars (s : State) {i : Nat} (h : i < 512) :
    windowByte s (0x5000 + i) = bufGet s.f0.chars i := by
  rw [windowByte, if_neg (by omega), if_pos (by omega), Nat.add_sub_cancel_left]

/-- NM_FSTART shows the field table, two bytes for each entry (10_state.md R35). -/
theorem windowByte_fstart (s : State) {i j : Nat} (h : i < 32) (hj : j < 2) :
    windowByte s (0x5200 + 2 * i + j) = byteLane ((bufGet s.f0.fstart i).setWidth 16) j := by
  rw [windowByte, if_neg (by omega), if_neg (by omega), if_pos (by omega),
    show (0x5200 + 2 * i + j - 0x05200) / 2 = i by omega,
    show (0x5200 + 2 * i + j - 0x05200) % 2 = j by omega]

/-- AI_MSGBUF shows the message. -/
theorem windowByte_msg (s : State) {i : Nat} (h : i < 4096) :
    windowByte s (0x6000 + i) = bufGet s.ais.msg i := by
  rw [windowByte, if_neg (by omega), if_neg (by omega), if_neg (by omega), if_pos (by omega),
    Nat.add_sub_cancel_left]

/-- CR_RESULT shows the result record. -/
theorem windowByte_result (s : State) {i : Nat} (h : i < 1024) :
    windowByte s (0x7000 + i) = bufGet s.crc.res i := by
  rw [windowByte, if_neg (by omega), if_neg (by omega), if_neg (by omega), if_neg (by omega),
    if_pos (by omega), Nat.add_sub_cancel_left]

/-- SG_REC shows the slots' records, 4096 bytes each. -/
theorem windowByte_record (s : State) {k i : Nat} (hk : k < 8) (hi : i < 4096) :
    windowByte s (0x10000 + 0x1000 * k + i) = bufGet (slotGet s.slots k).record i := by
  rw [windowByte, if_neg (by omega), if_neg (by omega), if_neg (by omega), if_neg (by omega),
    if_neg (by omega), if_pos (by omega),
    show (0x10000 + 0x1000 * k + i - 0x10000) / 0x1000 = k by omega,
    show (0x10000 + 0x1000 * k + i - 0x10000) % 0x1000 = i by omega]

/-- NM_FSTART read in 16-bit words gives the field table (10_state.md R35). -/
theorem busRead_fstart (s : State) {i : Nat} (h : i < 32) :
    (busRead s (0x5200 + 2 * i) 2).toNat = (bufGet s.f0.fstart i).toNat := by
  have h0 := windowByte_fstart s h (j := 0) (by decide)
  have h1 := windowByte_fstart s h (j := 1) (by decide)
  have hv := (bufGet s.f0.fstart i).isLt
  rw [busRead_two s (by omega), ← Nat.add_zero (0x5200 + 2 * i), h0, Nat.add_zero, h1, toNat_byteLanes,
    BitVec.toNat_setWidth]
  omega

/-! ### Registers -/

/-- A write to a register of the block other than CMD and ARG0 to ARG3 has no effect (20_memory.md R62). -/
theorem write_readOnly (s : State) {a : BitVec 20} (v : Word) (hlt : a.toNat < 0x01000)
    (h4 : a.toNat % 4 = 0) (hro : 0x014 ≤ a.toNat) : hostAccess (.write a 4 v) s = .next s := by
  have hok : accessOk a.toNat 4 = true := (accessOk_reg hlt).2 ⟨rfl, h4⟩
  have hstore : busStore s a.toNat 4 v = s := by
    rcases busStore_cases s a.toNat 4 v with h | h | h | h | h | h
    · omega
    · omega
    · omega
    · omega
    · omega
    · exact h
  rw [hostAccess, if_neg (not_not.2 hok), if_neg (by omega), hstore]

end Sys2Proof.Machine

namespace Sys2Proof.Proofs

open Sys2Proof.Machine

/-- Settles O6: the write to CMD is the command cycle, and an empty port leaves the step waiting. -/
theorem stepRunsDecodedCommand : Obligations.StepRunsDecodedCommand := by
  unfold Obligations.StepRunsDecodedCommand
  intro s
  refine ⟨fun w i rest hp hw => ?_, fun hp => ?_⟩
  · rw [step_cons s hp, hostAccess_cmd, cycle_of_decode _ hw]
  · simp [step, hp]

/-- Settles O13: each word is its fields at their places, and the store rule ignores the addresses. -/
theorem statusAndFramerViews : Obligations.StatusAndFramerViews := by
  unfold Obligations.StatusAndFramerViews
  intro s errNo stNo state
  have herr : s.status.err.code.toNat = errNo := by
    simp only [errNo]
    cases s.status.err <;> rfl
  have hst : ∀ F, (framerStateWord F).toNat = state F := fun F => by
    rw [framerStateWord_toNat]
    simp only [state, stNo]
    cases F.st <;> rfl
  have hro : ∀ a ∈ ([0x014, 0x040, 0x044, 0x048, 0x050, 0x054, 0x058] : List (BitVec 20)),
      a.toNat < 0x01000 ∧ a.toNat % 4 = 0 ∧ 0x014 ≤ a.toNat := by simp
  refine ⟨fun a v ha => ?_, ?_, hst s.f0, hst s.f1, framerPosWord_toNat s.f0, framerPosWord_toNat s.f1,
    framerAccWord_toNat s.f0, framerAccWord_toNat s.f1⟩
  · obtain ⟨hlt, h4, h14⟩ := hro a ha
    exact write_readOnly s v hlt h4 h14
  · rw [← herr]
    exact statusWord_toNat s.status

/-- Settles O14: each view word is its fields at their places, and each view window its buffer. -/
theorem unitViewsAndWindows : Obligations.UnitViewsAndWindows := by
  unfold Obligations.UnitViewsAndWindows
  intro s stNo
  have hst : s.crc.st.code.toNat = stNo := by
    simp only [stNo]
    cases s.crc.st <;> rfl
  have hcrc : (busRead s 0x080 4).toNat = stNo + 4 * s.crc.ready.toNat := by
    rw [← hst]
    exact crcStateWord_toNat s.crc
  have harg : ∀ r, r < 4 → busRead s (0x004 + 4 * r) 4 = s.args.get r := by
    intro r hr
    interval_cases r <;> rfl
  have hres : ∀ r, r < 8 → busRead s (0x020 + 4 * r) 4 = s.res.get r := by
    intro r hr
    interval_cases r <;> rfl
  exact ⟨aisFragWord_toNat s.ais, aisMsgWord_toNat s.ais, getLsbD_sigFlagsWord s.slots, hcrc,
    crcFillWord_toNat s.crc, crcHdrWord_toNat s.crc, crcRlenWord_toNat s.crc, harg, hres, rfl,
    fun _ => windowByte_chars s, fun _ => busRead_fstart s, fun _ => windowByte_msg s,
    fun _ => windowByte_result s, fun _ _ => windowByte_record s⟩

end Sys2Proof.Proofs
end

section
/-!
Everything a step can do to each unit, said once: one case for each way a command leaves a framer, the AIS
state, a slot or U3. Every invariant of the state is then shown unit by unit, case by case.
-/

namespace Sys2Proof.Machine

/-! ### The effects on a unit -/

/-- The framer a feed starts from: the unit's own, or the same with a new buffer (40_nmea_framer.md R122,
R123; 41_ais.md R151, R152). -/
def FeedStart (F G : Framer) : Prop :=
  G = F ∨ ∃ len : Half, len.toNat ≤ 4096 ∧ G = framerNewBuffer F len Config.nmeaResetOnNewBuffer

/-- What NMEA.CFG leaves of U0's framer (40_nmea_framer.md R121). -/
def framerConfigured (F : Framer) (c : Byte) : Framer :=
  { F with start := c, st := .idle, valid := false, pos := 0, len := 0 }

/-- What a step can do to U0's framer, IN0 being in `m`. -/
inductive U0Effect (m : Memory) (F : Framer) : Framer → Prop where
  | kept : U0Effect m F F
  | configured {c : Byte} (hc : c = 0x24 ∨ c = 0x21) : U0Effect m F (framerConfigured F c)
  | fed {G F' : Framer} {r : Bool} (hG : FeedStart F G) (hr : framerRun m 0 G = .ok (F', r)) :
      U0Effect m F F'
  | reset : U0Effect m F (Framer.reset Config.f0StartReset)

/-- What a step can do to U1's framer and AIS state, IN1 being in `m`. -/
inductive U1Effect (m : Memory) (F : Framer) (A : Ais) : Framer → Ais → Prop where
  | kept : U1Effect m F A F A
  | fed {G F' : Framer} {A' : Ais} {r : Bool} (hG : FeedStart F G)
      (hr : aisRun m G A = .ok (F', A', r)) : U1Effect m F A F' A'
  | reset : U1Effect m F A (Framer.reset Config.f1Start) Ais.reset

/-- What a step can do to a slot of U2. -/
inductive SlotEffect (S : Slot) : Slot → Prop where
  | kept : SlotEffect S S
  | registered (n0 n1 : Byte) (size : BitVec 12) : SlotEffect S ⟨true, n0, n1, size, false, []⟩
  | accepted {p : List Byte} (hp : p.length ≤ S.size.toNat) : SlotEffect S (sigAccept S p)
  | cleared : SlotEffect S { S with present := false }
  | reset : SlotEffect S Slot.reset

/-- What a step can do to U3. -/
inductive U3Effect (c : Crc) : Crc → Prop where
  | kept : U3Effect c c
  | fed (bs : List Byte) : U3Effect c (crcFeed bs c).1
  | taken : U3Effect c { c with ready := false }
  | reset : U3Effect c Crc.reset

/-- What a step can do to the units, the input windows and the fault mark. -/
structure StepEffect (s t : State) : Prop where
  u0 : U0Effect s.mem s.f0 t.f0
  u1 : U1Effect s.mem s.f1 s.ais t.f1 t.ais
  slots : ∀ k, SlotEffect (slotGet s.slots k) (slotGet t.slots k)
  u3 : U3Effect s.crc t.crc
  mem : Memory.wf s.mem → Memory.wf t.mem
  mark : s.faultMark ≠ none → t.faultMark ≠ none

/-! ### Answers -/

/-- Every next state the answer `r` gives has the property. -/
def Answers (P : State → Prop) (r : Result) : Prop := ∀ t, r = .next t → P t

@[simp] theorem answers_next (P : State → Prop) (t : State) : Answers P (.next t) ↔ P t :=
  ⟨fun h => h t rfl, fun h _ ht => Host.Outcome.next.inj ht ▸ h⟩

/-! ### Commands that touch one unit at most -/

/-- The units and input windows of `t` are those of `s`, and no fault mark is cleared. -/
structure SameUnits (s t : State) : Prop where
  f0 : t.f0 = s.f0
  f1 : t.f1 = s.f1
  ais : t.ais = s.ais
  slots : t.slots = s.slots
  crc : t.crc = s.crc
  mem : t.mem = s.mem
  mark : s.faultMark ≠ none → t.faultMark ≠ none

theorem SameUnits.effect {s t : State} (h : SameUnits s t) : StepEffect s t where
  u0 := h.f0 ▸ .kept
  u1 := h.f1 ▸ h.ais ▸ .kept
  slots _ := h.slots ▸ .kept
  u3 := h.crc ▸ .kept
  mem := h.mem ▸ id
  mark := h.mark

variable (s : State)

@[simp] theorem sameUnits_fail (e : Err) : SameUnits s (s.fail e) := ⟨rfl, rfl, rfl, rfl, rfl, rfl, id⟩

@[simp] theorem sameUnits_modelFault (f : ModelFault) : SameUnits s (s.modelFault f) :=
  ⟨rfl, rfl, rfl, rfl, rfl, rfl, fun _ h => Option.some_ne_none f h⟩

/-- A command that ends in a report, its results being any. -/
theorem sameUnits_results (x : Results) (st : Status) : SameUnits s { s with res := x, status := st } :=
  ⟨rfl, rfl, rfl, rfl, rfl, rfl, id⟩

@[simp] theorem sameUnits_setRes0 (v : Word) (r n : Bool) : SameUnits s ((s.setRes0 v).finish r n) :=
  sameUnits_results s _ _

@[simp] theorem sameUnits_setRes01 (v w : Word) (r n : Bool) : SameUnits s ((s.setRes01 v w).finish r n) :=
  sameUnits_results s _ _

@[simp] theorem sameUnits_setResPair (v : DWord) (r n : Bool) : SameUnits s ((s.setResPair v).finish r n) :=
  sameUnits_results s _ _

@[simp] theorem sameUnits_setRes2 (v : DWord) (w : Word) (r n : Bool) :
    SameUnits s (((s.setResPair v).setRes2 w).finish r n) := sameUnits_results s _ _

@[simp] theorem sameUnits_allResults (x : Results) (r n : Bool) :
    SameUnits s (({ s with res := x } : State).finish r n) := sameUnits_results s _ _

/-! The queries of the units leave every unit. -/

theorem nmeaNfields_sameUnits : Answers (SameUnits s) (execNmeaNfields s) := by
  unfold execNmeaNfields
  split <;> simp

theorem nmeaField_sameUnits (i : Byte) : Answers (SameUnits s) (execNmeaField i s) := by
  unfold execNmeaField
  split
  · simp
  · split <;> simp

theorem nmeaFint_sameUnits (i : Byte) : Answers (SameUnits s) (execNmeaFint i s) := by
  unfold execNmeaFint
  split
  · simp
  · split
    · simp
    · split <;> simp

theorem nmeaFdec_sameUnits (i : Byte) : Answers (SameUnits s) (execNmeaFdec i s) := by
  unfold execNmeaFdec
  split
  · simp
  · split
    · simp
    · split <;> simp

theorem nmeaIsmsg_sameUnits (n : Byte) (len : Half) : Answers (SameUnits s) (execNmeaIsmsg n len s) := by
  unfold execNmeaIsmsg
  split
  · simp
  · split <;> simp

theorem aisMsglen_sameUnits : Answers (SameUnits s) (execAisMsglen s) := by
  unfold execAisMsglen
  split <;> simp

theorem readBitsCommand_sameUnits (b n : Nat) (sg : Bool) :
    Answers (SameUnits s) (readBitsCommand b n sg s) := by
  unfold readBitsCommand
  split
  · simp
  · split <;> simp

theorem aisBits_sameUnits (sgn : Bool) (len : BitVec 7) (start : Half) :
    Answers (SameUnits s) (execAisBits sgn len start s) := by
  unfold execAisBits
  split
  · simp
  · exact readBitsCommand_sameUnits s _ _ _

theorem aisPos_sameUnits : Answers (SameUnits s) (execAisPos s) := by
  unfold execAisPos
  split
  · simp
  · split
    · simp
    · split <;> simp

theorem crcCrc32_sameUnits (ua : Byte) (len : Half) : Answers (SameUnits s) (execCrcCrc32 ua len s) := by
  unfold execCrcCrc32
  split
  · simp
  · split <;> simp

theorem crcField_sameUnits (j : Byte) : Answers (SameUnits s) (execCrcField j s) := by
  unfold execCrcField
  split
  · simp
  · split <;> simp

theorem crcNorm_sameUnits (j : Byte) : Answers (SameUnits s) (execCrcNorm j s) := by
  unfold execCrcNorm
  split
  · simp
  · split <;> simp

/-- A command that leaves every unit has an effect the units allow. -/
theorem Answers.effect {s : State} {r : Result} (h : Answers (SameUnits s) r) : Answers (StepEffect s) r :=
  fun t ht => (h t ht).effect

/-! ### Commands that change their unit -/

theorem fail_effect (e : Err) : Answers (StepEffect s) (.next (s.fail e)) :=
  (answers_next _ _).2 (sameUnits_fail s e).effect

theorem modelFault_effect (f : ModelFault) : Answers (StepEffect s) (.next (s.modelFault f)) :=
  (answers_next _ _).2 (sameUnits_modelFault s f).effect

/-- The states whose units and input windows are those of `s` but for U0's framer. -/
theorem effect_u0 {F : Framer} (h : U0Effect s.mem s.f0 F) (x : Results) (st : Status) :
    StepEffect s { s with f0 := F, res := x, status := st } :=
  ⟨h, .kept, fun _ => .kept, .kept, id, id⟩

theorem effect_u1 {F : Framer} {A : Ais} (h : U1Effect s.mem s.f1 s.ais F A) (x : Results) (st : Status) :
    StepEffect s { s with f1 := F, ais := A, res := x, status := st } :=
  ⟨.kept, h, fun _ => .kept, .kept, id, id⟩

theorem effect_slot {k : Nat} {S : Slot} (h : SlotEffect (slotGet s.slots k) S) (x : Results) (st : Status) :
    StepEffect s { s with slots := slotSet s.slots k S, res := x, status := st } where
  u0 := .kept
  u1 := .kept
  slots j := by
    rw [slotGet_slotSet]
    split
    · rename_i hj
      exact hj.1 ▸ h
    · exact .kept
  u3 := .kept
  mem := id
  mark := id

theorem effect_u3 {c : Crc} (h : U3Effect s.crc c) (x : Results) (st : Status) :
    StepEffect s { s with crc := c, res := x, status := st } :=
  ⟨.kept, .kept, fun _ => .kept, h, id, id⟩

theorem nmeaCfg_effect (c : Byte) : Answers (StepEffect s) (execNmeaCfg c s) := by
  unfold execNmeaCfg
  split
  · exact fail_effect s _
  · rename_i hc
    exact (answers_next _ _).2 (effect_u0 s (.configured (by tauto)) _ _)

theorem feedU0_effect (w : Word) {G : Framer} (hG : FeedStart s.f0 G) :
    Answers (StepEffect s) (feedU0 w G s) := by
  unfold feedU0
  split
  · exact modelFault_effect s _
  · rename_i F' r hr
    exact (answers_next _ _).2 (effect_u0 s (.fed hG hr) _ _)

theorem nmeaFeedn_effect (ua : Byte) (len : Half) : Answers (StepEffect s) (execNmeaFeedn ua len s) := by
  unfold execNmeaFeedn
  split
  · exact fail_effect s _
  · rename_i h
    exact feedU0_effect s _ (.inr ⟨len, Nat.not_lt.1 h, rfl⟩)

theorem nmeaFeedc_effect (ua : Byte) (ub : Half) : Answers (StepEffect s) (execNmeaFeedc ua ub s) :=
  feedU0_effect s _ (.inl rfl)

theorem feedU1_effect (w : Word) {G : Framer} (hG : FeedStart s.f1 G) :
    Answers (StepEffect s) (feedU1 w G s) := by
  unfold feedU1
  split
  · exact modelFault_effect s _
  · rename_i F' A' r hr
    exact (answers_next _ _).2 (effect_u1 s (.fed hG hr) _ _)

theorem aisFeedn_effect (ua : Byte) (len : Half) : Answers (StepEffect s) (execAisFeedn ua len s) := by
  unfold execAisFeedn
  split
  · exact fail_effect s _
  · rename_i h
    exact feedU1_effect s _ (.inr ⟨len, Nat.not_lt.1 h, rfl⟩)

theorem aisFeedc_effect (ua : Byte) (ub : Half) : Answers (StepEffect s) (execAisFeedc ua ub s) :=
  feedU1_effect s _ (.inl rfl)

theorem sigReg_effect (k : Byte) (size : Half) : Answers (StepEffect s) (execSigReg k size s) := by
  unfold execSigReg
  split
  · exact fail_effect s _
  · exact (answers_next _ _).2 (effect_slot s (.registered _ _ _) _ _)

/-- An accepted payload is a piece of the buffer no longer than the slot's size (42_sigcsum.md R183). -/
theorem scanResult_effect (k base : Nat) (buf : List Byte) (found : Option Nat) :
    StepEffect s (scanResult k base buf found s) := by
  cases found with
  | none => exact (sameUnits_setRes01 s _ _ _ _).effect
  | some i => exact effect_slot s (.accepted (List.length_take_le _ _)) _ _

theorem sigScan_effect (k : Byte) (len : Half) : Answers (StepEffect s) (execSigScan k len s) := by
  unfold execSigScan
  split
  · exact fail_effect s _
  · split
    · exact fail_effect s _
    · simp only
      split
      · exact modelFault_effect s _
      · exact (answers_next _ _).2 (scanResult_effect s _ _ _ _)

theorem sigLatest_effect (k : Byte) (len : Half) : Answers (StepEffect s) (execSigLatest k len s) := by
  unfold execSigLatest
  split
  · exact fail_effect s _
  · split
    · exact fail_effect s _
    · split
      · exact modelFault_effect s _
      · exact (answers_next _ _).2 (scanResult_effect s _ _ _ _)

theorem sigClr_effect (k : Byte) : Answers (StepEffect s) (execSigClr k s) := by
  unfold execSigClr
  split
  · exact fail_effect s _
  · exact (answers_next _ _).2 (effect_slot s .cleared _ _)

theorem crcFeed_effect (ua : Byte) (len : Half) : Answers (StepEffect s) (execCrcFeed ua len s) := by
  unfold execCrcFeed
  split
  · exact fail_effect s _
  · split
    · exact modelFault_effect s _
    · rename_i bs _
      exact (answers_next _ _).2 (effect_u3 s (.fed bs) _ _)

theorem crcTake_effect : Answers (StepEffect s) (execCrcTake s) :=
  (answers_next _ _).2 (effect_u3 s .taken _ _)

/-- BLK.RESET puts every unit at its reset values and keeps the input windows and the fault mark
(44_block.md R240). -/
theorem blkReset_effect : Answers (StepEffect s) (execBlkReset s) := by
  refine (answers_next _ _).2 ⟨.reset, .reset, fun k => ?_, .reset, id, id⟩
  have hk : slotGet State.reset.slots k = Slot.reset := by
    by_cases h : k < 8
    · simp [slotGet, State.reset, h]
    · simp [slotGet, h]
  show SlotEffect _ (slotGet State.reset.slots k)
  exact hk ▸ .reset

/-- Everything a command can do to the units. -/
theorem exec_effect (i : Instr) : Answers (StepEffect s) (exec i s) := by
  cases i with
  | nmeaCfg c _ => exact nmeaCfg_effect s c
  | nmeaFeedn ua len => exact nmeaFeedn_effect s ua len
  | nmeaFeedc ua ub => exact nmeaFeedc_effect s ua ub
  | nmeaNfields _ _ => exact (nmeaNfields_sameUnits s).effect
  | nmeaField i _ => exact (nmeaField_sameUnits s i).effect
  | nmeaFint i _ => exact (nmeaFint_sameUnits s i).effect
  | nmeaFdec i _ => exact (nmeaFdec_sameUnits s i).effect
  | nmeaIsmsg n len => exact (nmeaIsmsg_sameUnits s n len).effect
  | aisFeedn ua len => exact aisFeedn_effect s ua len
  | aisFeedc ua ub => exact aisFeedc_effect s ua ub
  | aisMsglen _ _ => exact (aisMsglen_sameUnits s).effect
  | aisBits sgn len start => exact (aisBits_sameUnits s sgn len start).effect
  | aisType _ _ => exact (readBitsCommand_sameUnits s _ _ _).effect
  | aisMmsi _ _ => exact (readBitsCommand_sameUnits s _ _ _).effect
  | aisPos _ _ => exact (aisPos_sameUnits s).effect
  | sigReg k size => exact sigReg_effect s k size
  | sigScan k len => exact sigScan_effect s k len
  | sigLatest k len => exact sigLatest_effect s k len
  | sigClr k _ => exact sigClr_effect s k
  | crcFeed ua len => exact crcFeed_effect s ua len
  | crcTake _ _ => exact crcTake_effect s
  | crcCrc32 ua len => exact (crcCrc32_sameUnits s ua len).effect
  | crcField j _ => exact (crcField_sameUnits s j).effect
  | crcNorm j _ => exact (crcNorm_sameUnits s j).effect
  | blkReset _ _ => exact blkReset_effect s

/-! ### The step -/

/-- A command cycle runs a command or ends in fail(ILLEGAL) (44_block.md R241). -/
theorem cycle_effect (w : Word) : Answers (StepEffect s) (cycle w s) := by
  rcases h : decode w with r | i
  · rw [cycle_of_reject s h]
    exact fail_effect s _
  · rw [cycle_of_decode s h]
    exact exec_effect s i

/-- An allowed store changes ARG and the input windows alone (20_memory.md R62, R65). -/
theorem busStore_effect {a size : Nat} (v : Word) (hok : accessOk a size = true) :
    StepEffect s (busStore s a size v) := by
  have hmem : Memory.wf s.mem → Memory.wf (busStore s a size v).mem := fun h => busStore_mem_wf v h hok
  rcases busStore_cases s a size v with ⟨-, -, h⟩ | ⟨-, h⟩ | ⟨-, h⟩ | ⟨-, h⟩ | ⟨-, h⟩ | h <;>
    rw [h] at hmem ⊢ <;> exact ⟨.kept, .kept, fun _ => .kept, .kept, hmem, id⟩

/-- Taking an access from the port is no effect on the units. -/
theorem StepEffect.of_port {s t : State} {rest : List HostAccess}
    (h : StepEffect { s with port := rest } t) : StepEffect s t :=
  ⟨h.u0, h.u1, h.slots, h.u3, h.mem, h.mark⟩

/-- Everything a step can do to the units. -/
theorem step_effect {s t : State} (h : step s = .next t) : StepEffect s t := by
  rcases step_cases s with ⟨-, e⟩ | ⟨x, rest, -, ⟨a, e⟩ | ⟨a, size, -, -, e⟩ | ⟨w, e⟩ | ⟨a, size, v, hok, e⟩⟩
  · obtain rfl := Host.Outcome.next.inj (e.symm.trans h)
    exact ⟨.kept, .kept, fun _ => .kept, .kept, id, id⟩
  · obtain rfl := Host.Outcome.next.inj (e.symm.trans h)
    exact (sameUnits_modelFault _ _).effect.of_port
  · obtain rfl := Host.Outcome.next.inj (e.symm.trans h)
    exact ⟨.kept, .kept, fun _ => .kept, .kept, id, id⟩
  · exact (cycle_effect _ w t (e.symm.trans h)).of_port
  · obtain rfl := Host.Outcome.next.inj (e.symm.trans h)
    exact (busStore_effect _ v hok).of_port

end Sys2Proof.Machine

namespace Sys2Proof.Proofs

open Sys2Proof.Machine

/-- Settles O60: no effect of a step on the mark clears it. -/
theorem faultMarkIsNeverCleared : Obligations.FaultMarkIsNeverCleared := by
  unfold Obligations.FaultMarkIsNeverCleared
  exact fun s t h => (step_effect h).mark

end Sys2Proof.Proofs
end

section
/-!
Every unit keeps its legal values (10_state.md R30, R36, R40, R45): the framer through any feed, the AIS
state through reassembly, a slot through every command, U3 through the loops of `Run` and `Feed`.
-/

namespace Sys2Proof.Machine

/-! ### Invariants of the framer -/

/-- A property of a framer that every byte step, a completion, a cleared flag and a new buffer keep: what
`FramerRun` then keeps. -/
structure FramerInvariant (P : Framer → Prop) : Prop where
  buffer : ∀ F p l, P F → P { F with pos := p, len := l }
  clear : ∀ F, P F → P { F with valid := false }
  step : ∀ F b, P F → P (framerStep F b).1
  complete : ∀ F, P F → F.st = .ck2 → P { F with st := .idle, valid := true }

section

variable {P : Framer → Prop} (hP : FramerInvariant P)
include hP

theorem FramerInvariant.scan {m : Memory} {u n : Nat} {F F' : Framer} {r : Bool} (hF : P F)
    (h : framerScan m u n F = .ok (F', r)) : P F' := by
  induction n generalizing F with
  | zero =>
    obtain ⟨rfl, -⟩ := Prod.mk.inj (Except.ok.inj h)
    exact hF
  | succ n ih =>
    rw [framerScan] at h
    have hnext : P { F with pos := F.pos + 1 } := hP.buffer F _ _ hF
    rcases hb : inByte m u F.pos.toNat with _ | b
    · simp [hb] at h
    · simp only [hb] at h
      have hstep := hP.step _ b hnext
      rcases hs : framerStep { F with pos := F.pos + 1 } b with ⟨G, _ | _⟩
      · rw [hs] at h hstep
        exact ih hstep h
      · have hc := framerStep_complete (show (framerStep { F with pos := F.pos + 1 } b).2 = true by rw [hs])
        rw [hs] at h hc
        obtain ⟨hst, -, rfl⟩ := hc
        obtain ⟨rfl, -⟩ := Prod.mk.inj (Except.ok.inj h)
        exact hP.complete { F with pos := F.pos + 1 } hnext hst

theorem FramerInvariant.run {m : Memory} {u : Nat} {F F' : Framer} {r : Bool} (hF : P F)
    (h : framerRun m u F = .ok (F', r)) : P F' :=
  hP.scan (hP.clear F hF) h

theorem FramerInvariant.feedStart {F G : Framer} (hF : P F) (h : FeedStart F G) : P G := by
  rcases h with rfl | ⟨len, -, rfl⟩
  · exact hF
  · exact hP.buffer F _ _ hF

/-- What a framer invariant and reassembly keep of U1, `AisRun` keeps. -/
theorem FramerInvariant.aisLoop {Q : Ais → Prop} (hQ : ∀ F A, P F → Q A → Q (aisOffer F A).1)
    {m : Memory} {n : Nat} {F F' : Framer} {A A' : Ais} {r : Bool} (hF : P F) (hA : Q A)
    (h : aisLoop m n F A = .ok (F', A', r)) : P F' ∧ Q A' := by
  induction n generalizing F A with
  | zero =>
    obtain ⟨rfl, hrest⟩ := Prod.mk.inj (Except.ok.inj h)
    obtain ⟨rfl, -⟩ := Prod.mk.inj hrest
    exact ⟨hF, hA⟩
  | succ n ih =>
    rw [Machine.aisLoop] at h
    rcases hr : framerRun m 1 F with e | ⟨G, _ | _⟩
    · simp [hr] at h
    · simp only [hr, Except.ok.injEq, Prod.mk.injEq] at h
      obtain ⟨rfl, rfl, -⟩ := h
      exact ⟨hP.run hF hr, hA⟩
    · have hG := hP.run hF hr
      have hB := hQ G A hG hA
      simp only [hr] at h
      rcases ho : aisOffer G A with ⟨B, _ | _⟩
      · rw [ho] at h hB
        exact ih hG hB h
      · simp only [ho, Except.ok.injEq, Prod.mk.injEq] at h hB
        obtain ⟨rfl, rfl, -⟩ := h
        exact ⟨hG, hB⟩

end

/-! ### The framer's legal values -/

/-- The legal values of a framer but for its place in the buffer (10_state.md R30). -/
structure Framer.TableLegal (F : Framer) : Prop where
  nf_le : F.nf.toNat ≤ 32
  nc_le : F.nc.toNat ≤ 512
  chars_wf : Buf.wf 512 F.chars
  fstart_wf : Buf.wf 32 F.fstart
  fstart_le : ∀ i, (bufGet F.fstart i).toNat ≤ 512
  nf_pos : F.st ≠ .idle ∨ F.valid = true → 1 ≤ F.nf.toNat

theorem Framer.legal_iff (F : Framer) :
    F.Legal ↔ F.TableLegal ∧ F.pos.toNat ≤ F.len.toNat ∧ F.len.toNat ≤ 4096 :=
  ⟨fun h => ⟨⟨h.nf_le, h.nc_le, h.chars_wf, h.fstart_wf, h.fstart_le, h.nf_pos⟩, h.pos_le, h.len_le⟩,
    fun ⟨h, hp, hl⟩ => ⟨h.nf_le, h.nc_le, hp, hl, h.chars_wf, h.fstart_wf, h.fstart_le, h.nf_pos⟩⟩

/-- The field table with one more entry. -/
theorem bufGet_bufWrite_one {w : Nat} (b : Buf w) (i j : Nat) (v : BitVec w) :
    bufGet (bufWrite b i [v]) j = if j = i then v else bufGet b j := by
  rw [bufGet_bufWrite]
  by_cases h : j = i
  · subst h
    simp
  · rw [if_neg h, if_neg (by simp; omega)]

/-- A counter of the framer below its bound counts on without wrapping. -/
theorem toNat_succ {w : Nat} (v : BitVec w) (h : v.toNat + 1 < 2 ^ w) : (v + 1).toNat = v.toNat + 1 := by
  have hw : 1 < 2 ^ w := by omega
  rw [BitVec.toNat_add, BitVec.ofNat_eq_ofNat, BitVec.toNat_ofNat, Nat.mod_eq_of_lt hw, Nat.mod_eq_of_lt h]

/-! A comma and a field character, with room for them and without (40_nmea_framer.md R114, R116). -/

theorem framerComma_room {F : Framer} (h : F.nf.toNat < 32) :
    framerComma F =
      { F with cs := F.cs ^^^ 0x2C, fstart := bufWrite F.fstart F.nf.toNat [F.nc], nf := F.nf + 1 } :=
  if_neg (Nat.ne_of_lt h)

theorem framerComma_full {F : Framer} (h : F.nf.toNat = 32) : framerComma F = { F with st := .idle } :=
  if_pos h

theorem framerStore_room {F : Framer} {b : Byte} (h : F.nc.toNat < 512) :
    framerStore F b =
      { F with chars := bufWrite F.chars F.nc.toNat [b], nc := F.nc + 1, cs := F.cs ^^^ b } :=
  if_neg (Nat.ne_of_lt h)

theorem framerStore_full {F : Framer} {b : Byte} (h : F.nc.toNat = 512) :
    framerStore F b = { F with st := .idle } :=
  if_pos h

theorem Framer.TableLegal.opened {F : Framer} (h : F.TableLegal) : (framerOpen F).TableLegal where
  nf_le := by simp [framerOpen]
  nc_le := by simp [framerOpen]
  chars_wf := h.chars_wf
  fstart_wf := bufWrite_wf h.fstart_wf (by simp)
  fstart_le i := by
    simp only [framerOpen, bufGet_bufWrite_one]
    split
    · simp
    · exact h.fstart_le i
  nf_pos _ := by simp [framerOpen]

/-- Out of a sentence nothing is asked of the fields opened, unless one is queryable. -/
theorem Framer.TableLegal.toIdle {F : Framer} (h : F.TableLegal) : ({ F with st := .idle } : Framer).TableLegal :=
  ⟨h.nf_le, h.nc_le, h.chars_wf, h.fstart_wf, h.fstart_le,
    fun hi => h.nf_pos (.inr (hi.resolve_left (fun hn => hn rfl)))⟩

theorem Framer.TableLegal.moved {F : Framer} (h : F.TableLegal) (hst : F.st ≠ .idle) (st : FramerSt) :
    ({ F with st := st } : Framer).TableLegal :=
  ⟨h.nf_le, h.nc_le, h.chars_wf, h.fstart_wf, h.fstart_le, fun _ => h.nf_pos (.inl hst)⟩

theorem Framer.TableLegal.comma {F : Framer} (h : F.TableLegal) : (framerComma F).TableLegal := by
  rcases Nat.lt_or_eq_of_le h.nf_le with hlt | hfull
  · have hsucc := toNat_succ F.nf (by omega)
    rw [framerComma_room hlt]
    refine ⟨by simp only [hsucc]; omega, h.nc_le, h.chars_wf, bufWrite_wf h.fstart_wf hlt, fun i => ?_,
      fun _ => by simp only [hsucc]; omega⟩
    simp only [bufGet_bufWrite_one]
    split
    · exact h.nc_le
    · exact h.fstart_le i
  · rw [framerComma_full hfull]
    exact h.toIdle

theorem Framer.TableLegal.store {F : Framer} (h : F.TableLegal) (b : Byte) :
    (framerStore F b).TableLegal := by
  rcases Nat.lt_or_eq_of_le h.nc_le with hlt | hfull
  · have hsucc := toNat_succ F.nc (by omega)
    rw [framerStore_room hlt]
    exact ⟨h.nf_le, by simp only [hsucc]; omega, bufWrite_wf h.chars_wf hlt, h.fstart_wf, h.fstart_le,
      h.nf_pos⟩
  · rw [framerStore_full hfull]
    exact h.toIdle

theorem Framer.TableLegal.step {F : Framer} (h : F.TableLegal) (b : Byte) :
    (framerStep F b).1.TableLegal := by
  rcases framerStep_cases F b with ⟨-, e⟩ | ⟨-, -, e⟩ | ⟨-, -, -, e⟩ | ⟨-, -, -, -, e⟩ | ⟨-, -, hst, -, e⟩ |
    ⟨-, -, -, -, -, e⟩ | ⟨-, -, hst, e⟩ | ⟨-, -, -, e⟩ <;> rw [e]
  · exact h.toIdle
  · exact h.opened
  · exact h
  · exact h.comma
  · exact h.moved (by simp [hst]) _
  · exact h.store b
  · exact h.moved (by simp [hst]) _
  · exact h.toIdle

theorem tableLegal_invariant : FramerInvariant Framer.TableLegal where
  buffer _ _ _ h := ⟨h.nf_le, h.nc_le, h.chars_wf, h.fstart_wf, h.fstart_le, h.nf_pos⟩
  clear _ h := ⟨h.nf_le, h.nc_le, h.chars_wf, h.fstart_wf, h.fstart_le,
    fun hi => h.nf_pos (.inl (hi.resolve_right Bool.false_ne_true))⟩
  step _ b h := h.step b
  complete _ h hst := ⟨h.nf_le, h.nc_le, h.chars_wf, h.fstart_wf, h.fstart_le,
    fun _ => h.nf_pos (.inl (by simp [hst]))⟩

/-- A feed starts inside a buffer the input window can hold. -/
theorem feedStart_bounds {F G : Framer} (hF : F.Legal) (h : FeedStart F G) :
    G.pos.toNat ≤ G.len.toNat ∧ G.len.toNat ≤ 4096 := by
  rcases h with rfl | ⟨len, hlen, rfl⟩
  · exact ⟨hF.pos_le, hF.len_le⟩
  · simp only [framerNewBuffer, BitVec.toNat_setWidth]
    simp
    omega

theorem FeedStart.start_eq {F G : Framer} (h : FeedStart F G) : G.start = F.start := by
  rcases h with rfl | ⟨-, -, rfl⟩ <;> rfl

theorem reset_framer_legal (c : Byte) : (Framer.reset c).Legal :=
  (Framer.legal_iff _).2 ⟨⟨by simp [Framer.reset], by simp [Framer.reset], nil_wf 512, nil_wf 32,
    fun _ => Nat.zero_le 512, by simp [Framer.reset]⟩, Nat.le_refl _, Nat.zero_le _⟩

theorem configured_legal {F : Framer} (h : F.Legal) (c : Byte) : (framerConfigured F c).Legal :=
  ⟨h.nf_le, h.nc_le, Nat.le_refl _, Nat.zero_le _, h.chars_wf, h.fstart_wf, h.fstart_le,
    by simp [framerConfigured]⟩

/-- Every step keeps U0's framer legal (10_state.md R30). -/
theorem U0Effect.legal {m : Memory} {F F' : Framer} (h : U0Effect m F F') (hF : F.Legal) : F'.Legal := by
  cases h with
  | kept => exact hF
  | configured _ => exact configured_legal hF _
  | reset => exact reset_framer_legal _
  | fed hG hr =>
    rename_i G r
    obtain ⟨hp, hl⟩ := feedStart_bounds hF hG
    have hT := tableLegal_invariant.feedStart ((Framer.legal_iff F).1 hF).1 hG
    have hspec := framerRun_spec m 0 G hp
    rw [hr] at hspec
    obtain ⟨-, hlen, -, -, hpos, -⟩ := hspec
    exact (Framer.legal_iff F').2 ⟨tableLegal_invariant.run hT hr, hlen ▸ hpos, hlen ▸ hl⟩

/-- U0's start character is one of the two that NMEA.CFG accepts (40_nmea_framer.md R121). -/
theorem U0Effect.start {m : Memory} {F F' : Framer} (h : U0Effect m F F') (hF : F.Legal)
    (hs : F.start = 0x24 ∨ F.start = 0x21) : F'.start = 0x24 ∨ F'.start = 0x21 := by
  cases h with
  | kept => exact hs
  | configured hc => exact hc
  | reset => exact .inl rfl
  | fed hG hr =>
    rename_i G r
    have hspec := framerRun_spec m 0 G (feedStart_bounds hF hG).1
    rw [hr] at hspec
    rw [hspec.1, hG.start_eq]
    exact hs

/-! ### The AIS state -/

/-- A field is no longer than the stored characters can be. -/
theorem fieldBytes_length_le {F : Framer} (h : F.TableLegal) (i : Nat) : (fieldBytes F i).length ≤ 512 := by
  have hend : fieldEnd F i ≤ 512 := by
    unfold fieldEnd
    split
    · exact h.fstart_le _
    · exact h.nc_le
  rw [fieldBytes, bufRead_length]
  omega

theorem toNat_ofNat_of_lt {w n : Nat} (h : n < 2 ^ w) : (BitVec.ofNat w n).toNat = n := by
  rw [BitVec.toNat_ofNat, Nat.mod_eq_of_lt h]

section

variable {A : Ais} (h : A.Legal)
include h

theorem Ais.Legal.cleared : (aisClear A).Legal :=
  ⟨Nat.zero_le _, Nat.zero_le _, h.msglen_le, h.acc_wf, h.seq_wf, h.msg_wf⟩

theorem Ais.Legal.emitted {p : List Byte} (hp : p.length ≤ 4096) : (aisEmit A p).Legal :=
  ⟨h.acclen_le, h.seqlen_le, by simp only [aisEmit]; rw [toNat_ofNat_of_lt (by omega)]; exact hp,
    h.acc_wf, h.seq_wf, bufWrite_wf h.msg_wf (by omega)⟩

theorem Ais.Legal.first {p q : List Byte} (hp : p.length ≤ 512) (hq : q.length ≤ 512) :
    (aisFirst A p q).Legal :=
  ⟨by simp only [aisFirst]; rw [toNat_ofNat_of_lt (by omega)]; omega,
    by simp only [aisFirst]; rw [toNat_ofNat_of_lt (by omega)]; exact hq, h.msglen_le,
    bufWrite_wf h.acc_wf (by omega), bufWrite_wf h.seq_wf (by omega), h.msg_wf⟩

theorem Ais.Legal.appended {p : List Byte} (hp : A.acclen.toNat + p.length ≤ 4096) :
    (aisAppend A p).Legal :=
  ⟨by simp only [aisAppend]; rw [toNat_ofNat_of_lt (by omega)]; exact hp, h.seqlen_le, h.msglen_le,
    bufWrite_wf h.acc_wf hp, h.seq_wf, h.msg_wf⟩

theorem Ais.Legal.expecting (e : DWord) : ({ A with expect := e } : Ais).Legal :=
  ⟨h.acclen_le, h.seqlen_le, h.msglen_le, h.acc_wf, h.seq_wf, h.msg_wf⟩

/-- A fragment that does not fit the accumulated payload breaks the sequence (41_ais.md R147). -/
theorem Ais.Legal.next (t x : Int) (p q : List Byte) : (aisNext A t x p q).1.Legal := by
  unfold aisNext
  split
  · exact h.cleared
  · split
    · exact h.cleared
    · split
      · exact h.cleared
      · rename_i hfit
        have happ := h.appended (Nat.not_lt.1 hfit)
        simp only
        split
        · exact happ.expecting _
        · exact (happ.emitted (by rw [bufRead_length]; exact happ.acclen_le)).cleared

theorem Ais.Legal.offered {F : Framer} (hF : F.TableLegal) : (aisOffer F A).1.Legal := by
  unfold aisOffer
  split
  · have hlen := fieldBytes_length_le hF
    rcases reassemble_cases F A with e | e | e | ⟨t, x, -, e⟩ <;> rw [e]
    · exact h
    · exact h.emitted (Nat.le_trans (hlen 5) (by decide))
    · exact h.first (hlen 5) (hlen 3)
    · exact h.next t x _ _
  · exact h

end

theorem reset_ais_legal : Ais.reset.Legal :=
  ⟨Nat.zero_le _, Nat.zero_le _, Nat.zero_le _, nil_wf _, nil_wf _, nil_wf _⟩

/-- Every step keeps U1's framer and AIS state legal (10_state.md R30, R36). -/
theorem U1Effect.legal {m : Memory} {F F' : Framer} {A A' : Ais} (h : U1Effect m F A F' A') (hF : F.Legal)
    (hA : A.Legal) : F'.Legal ∧ A'.Legal := by
  cases h with
  | kept => exact ⟨hF, hA⟩
  | reset => exact ⟨reset_framer_legal _, reset_ais_legal⟩
  | fed hG hr =>
    rename_i G r
    obtain ⟨hp, hl⟩ := feedStart_bounds hF hG
    have hT := tableLegal_invariant.feedStart ((Framer.legal_iff F).1 hF).1 hG
    have hkept := tableLegal_invariant.aisLoop (Q := Ais.Legal) (fun _ _ hF hA => hA.offered hF) hT hA hr
    have hspec := aisLoop_spec m _ G A hp (Nat.lt_succ_self _)
    rw [show Machine.aisLoop m _ G A = _ from hr] at hspec
    obtain ⟨-, hlen, -, -, hpos, -⟩ := hspec
    exact ⟨(Framer.legal_iff F').2 ⟨hkept.1, hlen ▸ hpos, hlen ▸ hl⟩, hkept.2⟩

/-- U1's start character is never configured (10_state.md R30). -/
theorem U1Effect.start {m : Memory} {F F' : Framer} {A A' : Ais} (h : U1Effect m F A F' A') (hF : F.Legal)
    (hs : F.start = 0x21) : F'.start = 0x21 := by
  cases h with
  | kept => exact hs
  | reset => rfl
  | fed hG hr =>
    rename_i G r
    have hspec := aisLoop_spec m _ G A (feedStart_bounds hF hG).1 (Nat.lt_succ_self _)
    rw [show Machine.aisLoop m _ G A = _ from hr] at hspec
    rw [hspec.1, hG.start_eq, hs]

/-! ### A slot -/

/-- Every step keeps a slot's record inside its payload size (10_state.md R40; 42_sigcsum.md R183). -/
theorem SlotEffect.legal {S S' : Slot} (h : SlotEffect S S') (hS : S.Legal) : S'.Legal := by
  cases h with
  | kept => exact hS
  | registered n0 n1 size => exact ⟨nil_wf _⟩
  | accepted hp => exact ⟨bufWrite_wf hS.record_wf (by rw [Nat.zero_add]; exact hp)⟩
  | cleared => exact ⟨hS.record_wf⟩
  | reset => exact ⟨nil_wf _⟩

/-! ### U3 -/

section

variable {c : Crc} (h : c.Legal)
include h

/-- Nothing is asked of the latched header outside VER. -/
theorem Crc.Legal.withSt {st : CrcSt} (hst : st ≠ .ver) : ({ c with st := st } : Crc).Legal :=
  ⟨h.fill_le, h.pos_le, h.rlen_le, h.acc_wf, h.res_wf, fun hv => absurd hv hst⟩

/-- The search position advances inside the bytes held. -/
theorem Crc.Legal.advanced {n : Nat} (hn : n ≤ crcAvail c) : (crcAdvance c n).Legal := by
  have hfill := h.fill_le
  have hpos := h.pos_le
  have hto : (c.pos + BitVec.ofNat 11 n).toNat = c.pos.toNat + n := by
    unfold crcAvail at hn
    rw [BitVec.toNat_add, BitVec.toNat_ofNat]
    omega
  refine ⟨h.fill_le, ?_, h.rlen_le, h.acc_wf, h.res_wf, h.ver_whitelisted⟩
  simp only [crcAdvance, hto]
  unfold crcAvail at hn
  omega

theorem Crc.Legal.latched (hst : c.st ≠ .ver) : (crcLatch c).Legal :=
  ⟨h.fill_le, h.pos_le, h.rlen_le, h.acc_wf, h.res_wf, fun hv => absurd hv hst⟩

theorem Crc.Legal.rejected (hn : 3 ≤ crcAvail c) : (crcReject c).Legal :=
  (h.advanced hn).withSt (by decide)

/-- The candidate frame of a whitelisted header has 256 bytes (43_crc32_framer.md R214). -/
theorem Crc.Legal.frameLen (hst : c.st = .ver) : crcFrameLen c = 256 := by
  have hw := h.ver_whitelisted hst
  simp only [Config.crcWhitelist, List.mem_singleton, Prod.mk.injEq] at hw
  rw [crcFrameLen, hw.2]
  rfl

/-- A delivered frame fits the record, and what is left of the buffer moves to its beginning
(43_crc32_framer.md R215). -/
theorem Crc.Legal.delivered {f : List Byte} (hf : f.length ≤ 1024) : (crcDeliver c f).Legal := by
  have hfill := h.fill_le
  have hr : c.fill.toNat - (c.pos.toNat + f.length) ≤ 1024 := by omega
  refine ⟨?_, Nat.zero_le _, ?_, bufWrite_wf h.acc_wf (by rw [bufRead_length]; omega),
    bufWrite_wf h.res_wf (by omega), fun hv => absurd hv (by simp [crcDeliver])⟩
  · simp only [crcDeliver]
    rw [toNat_ofNat_of_lt (by omega)]
    exact hr
  · simp only [crcDeliver]
    rw [toNat_ofNat_of_lt (by omega)]
    exact hf

/-- A turn of `Run` keeps U3 legal. -/
theorem Crc.Legal.turn {c' : Crc} {k : Nat} (hs : crcStep c = some (c', k)) : c'.Legal := by
  rcases crcStep_cases c with e | ⟨-, -, -, e⟩ | ⟨-, ha, -, e⟩ | ⟨hst, ha, hw, e⟩ | ⟨hst, ha, -, e⟩ |
    ⟨hst, ha, -, e⟩ | ⟨hst, ha, -, e⟩ <;> rw [e] at hs
  · cases hs
  all_goals obtain ⟨rfl, -⟩ := Prod.mk.inj (Option.some.inj hs)
  · exact h.withSt (by decide)
  · exact h.advanced (by omega)
  · exact ⟨h.fill_le, h.pos_le, h.rlen_le, h.acc_wf, h.res_wf, fun _ => hw⟩
  · exact (h.latched (by simp [hst])).rejected (show 3 ≤ crcAvail c by omega)
  · exact h.delivered (by rw [bufRead_length, h.frameLen hst]; decide)
  · exact h.rejected (by rw [h.frameLen hst] at ha; omega)

theorem Crc.Legal.run : (crcRun c).1.Legal :=
  crcTurns_keeps (fun _ _ _ hc hs => Crc.Legal.turn hc hs) _ c 0 h

theorem Crc.Legal.appended {bs : List Byte} (hb : c.fill.toNat + bs.length ≤ 1024) :
    (crcAppend c bs).Legal := by
  have hto : (BitVec.ofNat 11 (c.fill.toNat + bs.length)).toNat = c.fill.toNat + bs.length :=
    toNat_ofNat_of_lt (by omega)
  refine ⟨?_, ?_, h.rlen_le, bufWrite_wf h.acc_wf hb, h.res_wf, h.ver_whitelisted⟩
  · simp only [crcAppend, hto]
    exact hb
  · simp only [crcAppend, hto]
    exact Nat.le_trans h.pos_le (Nat.le_add_right _ _)

theorem Crc.Legal.discarded : (crcDiscard c).1.Legal := by
  unfold crcDiscard
  split
  · exact ⟨Nat.zero_le _, Nat.le_refl _, h.rlen_le, h.acc_wf, h.res_wf, fun hv => by cases hv⟩
  · exact h

/-- One pass of `Feed` fills the room left, runs, and discards a full buffer (43_crc32_framer.md R216). -/
theorem Crc.Legal.pass (bs : List Byte) :
    (crcDiscard (crcRun (crcAppend c (bs.take (Config.crcAccCap - c.fill.toNat)))).1).1.Legal := by
  have hfill := h.fill_le
  refine (h.appended ?_).run.discarded
  have := List.length_take_le (Config.crcAccCap - c.fill.toNat) bs
  simp only [Config.crcAccCap] at this ⊢
  omega

theorem Crc.Legal.passes (n : Nat) (bs : List Byte) (dec dis : Nat) :
    (crcPasses n bs c dec dis).1.Legal := by
  induction n generalizing bs c dec dis with
  | zero => exact h
  | succ n ih =>
    have hpass := h.pass bs
    rw [crcPasses]
    simp only
    split
    · exact hpass
    · exact ih hpass _ _ _

end

theorem reset_crc_legal : Crc.reset.Legal :=
  ⟨Nat.zero_le _, Nat.le_refl _, Nat.zero_le _, nil_wf _, nil_wf _, fun hv => by cases hv⟩

/-- Every step keeps U3 legal (10_state.md R45). -/
theorem U3Effect.legal {c c' : Crc} (h : U3Effect c c') (hc : c.Legal) : c'.Legal := by
  cases h with
  | kept => exact hc
  | fed bs => exact hc.passes _ bs 0 0
  | taken => exact ⟨hc.fill_le, hc.pos_le, hc.rlen_le, hc.acc_wf, hc.res_wf, hc.ver_whitelisted⟩
  | reset => exact reset_crc_legal

end Sys2Proof.Machine

namespace Sys2Proof.Proofs

open Sys2Proof.Machine

/-- Settles O54: each unit is kept legal by each effect a step can have on it. -/
theorem stepKeepsLegal : Obligations.StepKeepsLegal := by
  unfold Obligations.StepKeepsLegal
  intro s t hs hst
  have he := step_effect hst
  obtain ⟨hf1, hais⟩ := he.u1.legal hs.f1 hs.ais
  exact {
    f0 := he.u0.legal hs.f0
    f1 := hf1
    f0_start := he.u0.start hs.f0 hs.f0_start
    f1_start := he.u1.start hs.f1 hs.f1_start
    ais := hais
    slots := fun k => (he.slots k).legal (hs.slots k)
    crc := he.u3.legal hs.crc
    mem := he.mem hs.mem }

end Sys2Proof.Proofs
end

section
/-!
The field table runs forward through every byte, and what a framer holds of a sentence not yet ended is the
beginning of a valid one: its fields, its characters and its checksum are those of the bytes read since the
start character (10_state.md R31; 40_nmea_framer.md R112 to R118).
-/

namespace Sys2Proof.Machine

open Sys2Proof.Claims

/-! ### The field table runs forward -/

section

variable {F : Framer} (h : F.TableRuns)
include h

/-- Every field starts inside the stored characters. -/
theorem Framer.TableRuns.fieldStart_le {i : Nat} (hi : i < F.nf.toNat) : fieldStart F i ≤ F.nc.toNat := by
  obtain ⟨d, hd⟩ : ∃ d, i + 1 + d = F.nf.toNat := ⟨F.nf.toNat - (i + 1), by omega⟩
  induction d generalizing i with
  | zero => exact h.last i hd
  | succ d ih => exact Nat.le_trans (h.rises i (by omega)) (ih (i := i + 1) (by omega) (by omega))

theorem Framer.TableRuns.fieldEnd_le {i : Nat} : fieldEnd F i ≤ F.nc.toNat := by
  unfold fieldEnd
  split
  · rename_i hi
    exact h.fieldStart_le hi
  · exact Nat.le_refl _

/-- The table does not depend on the state, the checksum or the place in the buffer. -/
theorem Framer.TableRuns.congr {G : Framer} (hf : G.fstart = F.fstart) (hn : G.nf = F.nf)
    (hc : F.nc.toNat ≤ G.nc.toNat) : G.TableRuns where
  first := by rw [hf, hn]; exact h.first
  rises := by rw [hf, hn]; exact h.rises
  last := by rw [hf, hn]; exact fun i hi => Nat.le_trans (h.last i hi) hc

/-- The field a comma opens starts where the stored characters end. -/
theorem Framer.TableRuns.comma (hL : F.TableLegal) (hst : F.st = .body) : (framerComma F).TableRuns := by
  rcases Nat.lt_or_eq_of_le hL.nf_le with hlt | hfull
  · have hpos : 1 ≤ F.nf.toNat := hL.nf_pos (.inl (by simp [hst]))
    have hsucc := toNat_succ F.nf (by omega)
    rw [framerComma_room hlt]
    refine ⟨.inl ?_, fun i hi => ?_, fun i hi => ?_⟩
    · simp only [bufGet_bufWrite_one]
      rw [if_neg (by omega)]
      exact h.first.resolve_right (fun h0 => by simp [h0] at hpos)
    · simp only [hsucc] at hi
      simp only [bufGet_bufWrite_one]
      rw [if_neg (by omega)]
      split
      · rename_i heq
        exact h.last i heq
      · exact h.rises i (by omega)
    · simp only [hsucc] at hi
      simp only [bufGet_bufWrite_one]
      rw [if_pos (by omega)]
  · rw [framerComma_full hfull]
    exact h.congr rfl rfl (Nat.le_refl _)

theorem Framer.TableRuns.store (hL : F.TableLegal) (b : Byte) : (framerStore F b).TableRuns := by
  rcases Nat.lt_or_eq_of_le hL.nc_le with hlt | hfull
  · have hsucc := toNat_succ F.nc (by omega)
    rw [framerStore_room hlt]
    exact h.congr rfl rfl (by simp only [hsucc]; omega)
  · rw [framerStore_full hfull]
    exact h.congr rfl rfl (Nat.le_refl _)

end

/-- A start character opens field 0 at the beginning (40_nmea_framer.md R112). -/
theorem framerOpen_tableRuns (F : Framer) : (framerOpen F).TableRuns := by
  have h0 : bufGet (framerOpen F).fstart 0 = 0 := by simp [framerOpen, bufGet_bufWrite_one]
  refine ⟨.inl h0, fun i hi => ?_, fun i hi => ?_⟩
  · simp [framerOpen] at hi
  · obtain rfl : i = 0 := by simpa [framerOpen] using hi
    simp [h0]

/-- A framer whose table is legal and runs forward. -/
structure Framer.TableSound (F : Framer) : Prop where
  legal : F.TableLegal
  runs : F.TableRuns

theorem Framer.TableSound.step {F : Framer} (h : F.TableSound) (b : Byte) :
    (framerStep F b).1.TableSound := by
  refine ⟨h.legal.step b, ?_⟩
  rcases framerStep_cases F b with ⟨-, e⟩ | ⟨-, -, e⟩ | ⟨-, -, -, e⟩ | ⟨-, -, hst, -, e⟩ | ⟨-, -, -, -, e⟩ |
    ⟨-, -, -, -, -, e⟩ | ⟨-, -, -, e⟩ | ⟨-, -, -, e⟩ <;> rw [e]
  · exact h.runs.congr rfl rfl (Nat.le_refl _)
  · exact framerOpen_tableRuns F
  · exact h.runs
  · exact h.runs.comma h.legal hst
  · exact h.runs.congr rfl rfl (Nat.le_refl _)
  · exact h.runs.store h.legal b
  · exact h.runs.congr rfl rfl (Nat.le_refl _)
  · exact h.runs.congr rfl rfl (Nat.le_refl _)

theorem tableSound_invariant : FramerInvariant Framer.TableSound where
  buffer F p l h := ⟨tableLegal_invariant.buffer F p l h.legal, h.runs.congr rfl rfl (Nat.le_refl _)⟩
  clear F h := ⟨tableLegal_invariant.clear F h.legal, h.runs.congr rfl rfl (Nat.le_refl _)⟩
  step _ b h := h.step b
  complete F h hst := ⟨tableLegal_invariant.complete F h.legal hst, h.runs.congr rfl rfl (Nat.le_refl _)⟩

/-! ### Fields read -/

/-- A comma leaves the fields before it and opens an empty one (40_nmea_framer.md R114). -/
theorem fieldBytes_comma {F : Framer} (hlt : F.nf.toNat < 32) {i : Nat} (hi : i ≤ F.nf.toNat) :
    fieldBytes (framerComma F) i = if i < F.nf.toNat then fieldBytes F i else [] := by
  have hsucc := toNat_succ F.nf (by omega)
  have hstart : fieldStart (framerComma F) i = if i = F.nf.toNat then F.nc.toNat else fieldStart F i := by
    rw [framerComma_room hlt, fieldStart, bufGet_bufWrite_one]
    split <;> rfl
  have hend : fieldEnd (framerComma F) i = if i < F.nf.toNat then fieldEnd F i else F.nc.toNat := by
    rw [framerComma_room hlt]
    simp only [fieldEnd, hsucc, bufGet_bufWrite_one]
    rcases Nat.lt_trichotomy (i + 1) F.nf.toNat with h | h | h
    · simp [h, show i < F.nf.toNat by omega, show i + 1 ≠ F.nf.toNat by omega]
    · simp [← h]
    · simp [show ¬ i < F.nf.toNat by omega]
  have hchars : (framerComma F).chars = F.chars := by rw [framerComma_room hlt]
  rw [fieldBytes, hstart, hend, hchars]
  rcases Nat.lt_or_eq_of_le hi with h | rfl
  · rw [if_neg (by omega), if_pos h, if_pos h, fieldBytes]
  · simp [bufRead]

/-- A character read in BODY is the next one of the last field, and leaves the others
(40_nmea_framer.md R116). -/
theorem fieldBytes_store {F : Framer} (hT : F.TableRuns) (hlt : F.nc.toNat < 512) (b : Byte) {i : Nat}
    (hi : i < F.nf.toNat) :
    fieldBytes (framerStore F b) i =
      if i + 1 < F.nf.toNat then fieldBytes F i else fieldBytes F i ++ [b] := by
  have hsucc := toNat_succ F.nc (by omega)
  have hold : ∀ n, fieldStart F i + n ≤ F.nc.toNat →
      bufRead (bufWrite F.chars F.nc.toNat [b]) (fieldStart F i) n = bufRead F.chars (fieldStart F i) n := by
    intro n hn
    refine bufRead_congr (fun j hj => ?_)
    rw [bufGet_bufWrite_one, if_neg (by omega)]
  have hstart := hT.fieldStart_le hi
  have hend := hT.fieldEnd_le (i := i)
  rw [framerStore_room hlt]
  simp only [fieldBytes]
  by_cases h : i + 1 < F.nf.toNat
  · have hle : fieldStart F i + (fieldEnd F i - fieldStart F i) ≤ F.nc.toNat := by omega
    rw [if_pos h, ← hold _ hle]
    simp only [fieldEnd, fieldStart, if_pos h]
  · have he : fieldEnd F i = F.nc.toNat := if_neg h
    have hlast := bufRead_bufWrite_self F.chars F.nc.toNat [b]
    rw [if_neg h, he, ← hold _ (by omega)]
    simp only [fieldEnd, if_neg h, hsucc]
    show bufRead _ (fieldStart F i) (F.nc.toNat + 1 - fieldStart F i) = _
    rw [show F.nc.toNat + 1 - fieldStart F i = F.nc.toNat - fieldStart F i + 1 by omega, bufRead_add,
      show fieldStart F i + (F.nc.toNat - fieldStart F i) = F.nc.toNat by omega]
    exact congrArg _ hlast

/-! ### The body of a sentence -/

/-- One more field stands behind one more comma. -/
theorem body_concat {fs : List (List Byte)} (hfs : fs ≠ []) (f : List Byte) :
    body (fs ++ [f]) = body fs ++ 0x2C :: f := by
  induction fs with
  | nil => exact absurd rfl hfs
  | cons g t ih =>
    cases t with
    | nil => simp [body, List.intercalate]
    | cons g' t' =>
      have := ih (by simp)
      simp only [body, List.cons_append, List.intercalate_cons_cons] at this ⊢
      rw [this]
      simp

/-- One more character of the last field is one more of the body. -/
theorem body_push (fs : List (List Byte)) (f : List Byte) (b : Byte) :
    body (fs ++ [f ++ [b]]) = body (fs ++ [f]) ++ [b] := by
  rcases eq_or_ne fs [] with rfl | hfs
  · simp [body, List.intercalate]
  · rw [body_concat hfs, body_concat hfs]
    simp

theorem xorOf_concat (bs : List Byte) (b : Byte) : xorOf (bs ++ [b]) = xorOf bs ^^^ b := by
  simp [xorOf]

/-! ### Sentences read -/

/-- The framer has read the fields `fs` of a valid sentence since the start character. -/
structure SentenceRead (F : Framer) (fs : List (List Byte)) : Prop where
  valid : ValidFields F.start fs
  fields : HasFields F fs
  chars : F.nc.toNat = (fs.map List.length).sum
  sum : F.cs = xorOf (body fs)

/-- Out of IDLE, to carry something is to have read fields of a valid sentence. -/
theorem carried_exists_iff (F : Framer) : (∃ w, Carried F w) ↔ F.st = .idle ∨ ∃ fs, SentenceRead F fs := by
  constructor
  · rintro ⟨w, ⟨hst, -⟩ | ⟨fs, hv, hf, hn, hc, -⟩⟩
    · exact .inl hst
    · exact .inr ⟨fs, hv, hf, hn, hc⟩
  · rintro (hst | ⟨fs, hv, hf, hn, hc⟩)
    · exact ⟨[], .inl ⟨hst, rfl⟩⟩
    · rcases hst : F.st with _ | _ | _ | _
      · exact ⟨[], .inl ⟨hst, rfl⟩⟩
      · exact ⟨_, .inr ⟨fs, hv, hf, hn, hc, .inl ⟨hst, rfl⟩⟩⟩
      · exact ⟨_, .inr ⟨fs, hv, hf, hn, hc, .inr (.inl ⟨hst, rfl⟩)⟩⟩
      · exact ⟨_, .inr ⟨fs, hv, hf, hn, hc, .inr (.inr ⟨hst, rfl⟩)⟩⟩

/-- A start character begins a sentence with one empty field (40_nmea_framer.md R112). -/
theorem sentenceRead_open {F : Framer} (hs : F.start = 0x24 ∨ F.start = 0x21) :
    SentenceRead (framerOpen F) [[]] where
  valid := ⟨hs, by simp, by simp, by simp, by simp⟩
  fields := by
    refine ⟨by simp [framerOpen], fun i hi => ?_⟩
    obtain rfl : i = 0 := by simpa using hi
    simp [fieldBytes, fieldEnd, framerOpen, bufRead]
  chars := by simp [framerOpen]
  sum := by simp [framerOpen, body, xorOf, List.intercalate]

section

variable {F : Framer} {fs : List (List Byte)} (h : SentenceRead F fs)
include h

/-- A comma ends a field and opens the next, unless the fields are used up (40_nmea_framer.md R114). -/
theorem SentenceRead.comma : (framerComma F).st = .idle ∨ SentenceRead (framerComma F) (fs ++ [[]]) := by
  obtain ⟨hstart, hsome, hlen, hchars, hok⟩ := h.valid
  obtain ⟨hnf, hfield⟩ := h.fields
  rcases Nat.lt_or_eq_of_le (hnf ▸ hlen : F.nf.toNat ≤ 32) with hlt | hfull
  · right
    have hcomma := framerComma_room hlt
    refine ⟨⟨by rw [hcomma]; exact hstart, by simp, by simp; omega, by simpa using hchars, ?_⟩, ⟨?_, ?_⟩,
      ?_, ?_⟩
    · rw [hcomma]
      exact List.forall_mem_append.2 ⟨hok, by simp⟩
    · rw [hcomma, List.length_append, ← hnf]
      exact toNat_succ F.nf (by omega)
    · intro i hi
      rw [List.length_append, List.length_singleton] at hi
      rw [fieldBytes_comma hlt (by omega)]
      rcases Nat.lt_or_eq_of_le (Nat.le_of_lt_succ hi) with hin | rfl
      · rw [if_pos (by omega), List.getElem?_append_left hin, hfield i hin]
      · rw [if_neg (by omega)]
        simp
    · rw [hcomma]
      simpa using h.chars
    · rw [hcomma, body_concat (List.ne_nil_of_length_pos hsome), xorOf_concat, ← h.sum]
  · exact .inl (by rw [framerComma_full hfull])

/-- A field character is one more of the last field, unless the characters are used up
(40_nmea_framer.md R116). -/
theorem SentenceRead.store (hT : F.TableRuns) {b : Byte} (hb : FieldChar F.start b) :
    (framerStore F b).st = .idle ∨ ∃ gs, SentenceRead (framerStore F b) gs := by
  obtain ⟨⟨hstart, hsome, hlen, hchars, hok⟩, ⟨hnf, hfield⟩, hnc, hcs⟩ := h
  rcases Nat.lt_or_eq_of_le (hnc ▸ hchars : F.nc.toNat ≤ 512) with hlt | hfull
  · right
    obtain rfl | ⟨init, f, rfl⟩ := List.eq_nil_or_concat' fs
    · simp at hsome
    have hstore := framerStore_room (b := b) hlt
    simp only [List.map_append, List.sum_append, List.map_cons, List.map_nil, List.sum_cons, List.sum_nil,
      List.length_append, List.length_singleton] at hnc hnf hlen hfield
    refine ⟨init ++ [f ++ [b]], ⟨by rw [hstore]; exact hstart, by simp, by simpa using hlen, ?_, ?_⟩,
      ⟨?_, ?_⟩, ?_, ?_⟩
    · simp
      omega
    · rw [hstore]
      simp only [List.forall_mem_append, List.forall_mem_singleton] at hok ⊢
      exact ⟨hok.1, hok.2, hb⟩
    · rw [hstore]
      simpa using hnf
    · intro i hi
      rw [List.length_append, List.length_singleton] at hi
      have hfi := hfield i hi
      rw [fieldBytes_store hT hlt b (by omega)]
      rcases Nat.lt_or_eq_of_le (Nat.le_of_lt_succ hi) with hin | rfl
      · rw [if_pos (by omega), hfi, List.getElem?_append_left hin, List.getElem?_append_left hin]
      · rw [if_neg (by omega)]
        simpa using hfi
    · rw [hstore, toNat_succ F.nc (by omega)]
      simp
      omega
    · rw [hstore, body_push, xorOf_concat, ← hcs]
  · exact .inl (by rw [framerStore_full hfull])

/-- The fields read do not depend on the state of the framer or its place in the buffer. -/
theorem SentenceRead.moved (st : FramerSt) (v : Bool) (p l : BitVec 13) :
    SentenceRead { F with st := st, valid := v, pos := p, len := l } fs :=
  ⟨h.valid, h.fields, h.chars, h.sum⟩

end

/-- A printable byte that is none of the three separators is a field character (30_encoding.md R90). -/
theorem fieldChar_of_printable {start b : Byte} (hp : printable b = true) (hs : b ≠ start)
    (hc : b ≠ 0x2C) (ha : b ≠ 0x2A) : FieldChar start b := by
  have h := of_decide_eq_true hp
  exact ⟨h.1, h.2, hc, ha, hs⟩

/-- A framer whose table is sound and which carries the beginning of a valid sentence. -/
structure Framer.Carrying (F : Framer) : Prop extends F.TableSound where
  start_ok : F.start = 0x24 ∨ F.start = 0x21
  carried : F.st = .idle ∨ ∃ fs, SentenceRead F fs

theorem Framer.Carrying.step {F : Framer} (h : F.Carrying) (b : Byte) : (framerStep F b).1.Carrying := by
  refine ⟨h.toTableSound.step b, (framerStep_keeps F b).1 ▸ h.start_ok, ?_⟩
  have hread : F.st ≠ .idle → ∃ fs, SentenceRead F fs := h.carried.resolve_left
  rcases framerStep_cases F b with ⟨-, e⟩ | ⟨-, -, e⟩ | ⟨-, -, hst, e⟩ | ⟨-, -, hst, -, e⟩ |
    ⟨-, -, hst, -, e⟩ | ⟨hp, hs, hst, hc, ha, e⟩ | ⟨-, -, hst, e⟩ | ⟨-, -, -, e⟩ <;> rw [e]
  · exact .inl rfl
  · exact .inr ⟨_, sentenceRead_open h.start_ok⟩
  · exact .inl hst
  · obtain ⟨fs, hfs⟩ := hread (by simp [hst])
    exact hfs.comma.imp_right fun hr => ⟨_, hr⟩
  · obtain ⟨fs, hfs⟩ := hread (by simp [hst])
    exact .inr ⟨fs, hfs.moved _ _ _ _⟩
  · obtain ⟨fs, hfs⟩ := hread (by simp [hst])
    exact hfs.store h.runs (fieldChar_of_printable hp hs hc ha)
  · obtain ⟨fs, hfs⟩ := hread (by simp [hst])
    exact .inr ⟨fs, hfs.moved _ _ _ _⟩
  · exact .inl rfl

theorem carrying_invariant : FramerInvariant Framer.Carrying where
  buffer F p l h := ⟨tableSound_invariant.buffer F p l h.toTableSound, h.start_ok,
    h.carried.imp_right fun ⟨fs, hfs⟩ => ⟨fs, hfs.moved _ _ _ _⟩⟩
  clear F h := ⟨tableSound_invariant.clear F h.toTableSound, h.start_ok,
    h.carried.imp_right fun ⟨fs, hfs⟩ => ⟨fs, hfs.moved _ _ _ _⟩⟩
  step _ b h := h.step b
  complete F h hst := ⟨tableSound_invariant.complete F h.toTableSound hst, h.start_ok, .inl rfl⟩

/-! ### The steps -/

theorem reset_framer_tableRuns (c : Byte) : (Framer.reset c).TableRuns :=
  ⟨.inr rfl, fun _ h => absurd h (Nat.not_lt_zero _), fun _ h => absurd h (Nat.succ_ne_zero _)⟩

theorem carried_of_idle {F : Framer} (h : F.st = .idle) : ∃ w, Carried F w := ⟨[], .inl ⟨h, rfl⟩⟩

theorem Framer.Legal.tableSound {F : Framer} (h : F.Legal) (hT : F.TableRuns) : F.TableSound :=
  ⟨((Framer.legal_iff F).1 h).1, hT⟩

theorem Framer.TableSound.carrying {F : Framer} (h : F.TableSound) (hs : F.start = 0x24 ∨ F.start = 0x21)
    (hw : ∃ w, Carried F w) : F.Carrying :=
  ⟨h, hs, (carried_exists_iff F).1 hw⟩

theorem U0Effect.tableRuns {m : Memory} {F F' : Framer} (h : U0Effect m F F') (hF : F.TableSound) :
    F'.TableRuns := by
  cases h with
  | kept => exact hF.runs
  | configured _ => exact hF.runs.congr rfl rfl (Nat.le_refl _)
  | reset => exact reset_framer_tableRuns _
  | fed hG hr => exact (tableSound_invariant.run (tableSound_invariant.feedStart hF hG) hr).runs

theorem U0Effect.carried {m : Memory} {F F' : Framer} (h : U0Effect m F F') (hF : F.Carrying) :
    ∃ w, Carried F' w := by
  cases h with
  | kept => exact (carried_exists_iff F).2 hF.carried
  | configured _ => exact carried_of_idle rfl
  | reset => exact carried_of_idle rfl
  | fed hG hr =>
    exact (carried_exists_iff _).2 (carrying_invariant.run (carrying_invariant.feedStart hF hG) hr).carried

/-- The framer of U1 keeps what `AisRun` keeps of it, whatever reassembly does. -/
theorem FramerInvariant.aisRun {P : Framer → Prop} (hP : FramerInvariant P) {m : Memory} {F F' : Framer}
    {A A' : Ais} {r : Bool} (hF : P F) (h : aisRun m F A = .ok (F', A', r)) : P F' :=
  (hP.aisLoop (Q := fun _ => True) (fun _ _ _ _ => trivial) hF trivial h).1

theorem U1Effect.tableRuns {m : Memory} {F F' : Framer} {A A' : Ais} (h : U1Effect m F A F' A')
    (hF : F.TableSound) : F'.TableRuns := by
  cases h with
  | kept => exact hF.runs
  | reset => exact reset_framer_tableRuns _
  | fed hG hr => exact (tableSound_invariant.aisRun (tableSound_invariant.feedStart hF hG) hr).runs

theorem U1Effect.carried {m : Memory} {F F' : Framer} {A A' : Ais} (h : U1Effect m F A F' A')
    (hF : F.Carrying) : ∃ w, Carried F' w := by
  cases h with
  | kept => exact (carried_exists_iff F).2 hF.carried
  | reset => exact carried_of_idle rfl
  | fed hG hr =>
    exact (carried_exists_iff _).2 (carrying_invariant.aisRun (carrying_invariant.feedStart hF hG) hr).carried

end Sys2Proof.Machine

namespace Sys2Proof.Proofs

open Sys2Proof.Machine

/-- Settles O56: both framers keep a sound table and what they carry under each effect of a step. -/
theorem stepKeepsFieldTables : Obligations.StepKeepsFieldTables := by
  unfold Obligations.StepKeepsFieldTables
  intro s t hs hT0 hT1 hst
  have he := step_effect hst
  have h0 := hs.f0.tableSound hT0
  have h1 := hs.f1.tableSound hT1
  exact ⟨⟨he.u0.tableRuns h0, he.u1.tableRuns h1⟩, fun hw => he.u0.carried (h0.carrying hs.f0_start hw),
    fun hw => he.u1.carried (h1.carrying (.inr hs.f1_start) hw)⟩

end Sys2Proof.Proofs
end

section
/-!
What a host access does (20_memory.md R61 to R66): the bad ones, the bytes a write stores, the number a read
gives, and the addresses where nothing is.
-/

namespace Sys2Proof.Machine

/-! ### Allowed and bad accesses -/

/-- 20_memory.md R63 as one condition over the whole address space. -/
theorem accessOk_iff {a size : Nat} :
    accessOk a size = true ↔ (a < 0x01000 ∧ size = 4 ∧ a % 4 = 0) ∨
      (0x01000 ≤ a ∧ (size = 1 ∨ size = 2 ∨ size = 4) ∧ a % size = 0) := by
  rcases Nat.lt_or_ge a 0x01000 with h | h
  · simp [accessOk_reg h, h, Nat.not_le.2 h]
  · simp [accessOk_window (Nat.not_lt.2 h), h, Nat.not_lt.2 h]

theorem hostAccess_read_bad (s : State) {a : BitVec 20} {size : Nat} (h : ¬ accessOk a.toNat size = true) :
    hostAccess (.read a size) s = .next (s.modelFault (.badAccess a)) := if_pos h

theorem hostAccess_write_bad (s : State) {a : BitVec 20} {size : Nat} (v : Word)
    (h : ¬ accessOk a.toNat size = true) :
    hostAccess (.write a size v) s = .next (s.modelFault (.badAccess a)) := if_pos h

theorem hostAccess_read_ok (s : State) {a : BitVec 20} {size : Nat} (h : accessOk a.toNat size = true) :
    hostAccess (.read a size) s = .next { s with rdata := busRead s a.toNat size } := if_neg (not_not.2 h)

/-- An allowed write that is not to CMD is its store. -/
theorem hostAccess_write_ok (s : State) {a : BitVec 20} {size : Nat} (v : Word)
    (h : accessOk a.toNat size = true) (h0 : a.toNat ≠ 0) :
    hostAccess (.write a size v) s = .next (busStore s a.toNat size v) := by
  rw [hostAccess, if_neg (not_not.2 h), if_neg h0]

theorem busStore_faultMark (s : State) (a size : Nat) (v : Word) :
    (busStore s a size v).faultMark = s.faultMark := by
  rcases busStore_cases s a size v with ⟨-, -, h⟩ | ⟨-, h⟩ | ⟨-, h⟩ | ⟨-, h⟩ | ⟨-, h⟩ | h <;> rw [h]

/-! ### Bytes written -/

theorem busStore_window (s : State) {a : Nat} (size : Nat) (v : Word) (h1 : 0x01000 ≤ a) (h2 : a < 0x05000) :
    busStore s a size v = { s with mem := memWrite s.mem a (valueBytes v size) } := if_pos ⟨h1, h2⟩

/-- Byte `j` of a value is its digit `j` to the base 256 (20_memory.md R64). -/
theorem byteLane_eq_ofNat {w : Nat} (v : BitVec w) (j : Nat) :
    byteLane v j = BitVec.ofNat 8 (v.toNat / 256 ^ j) := by
  rw [byteLane, BitVec.extractLsb', Nat.shiftRight_eq_div_pow, Nat.pow_mul]

/-- A stored value is read back byte by byte, the low one first (20_memory.md R64). -/
theorem memGet_store_inside (m : Memory) (a : Nat) (v : Word) {size j : Nat} (hj : j < size) :
    memGet (memWrite m a (valueBytes v size)) (a + j) = some (BitVec.ofNat 8 (v.toNat / 256 ^ j)) := by
  rw [memGet_memWrite, valueBytes_length, if_pos (by omega), Nat.add_sub_cancel_left, ← byteLane_eq_ofNat]
  simp [valueBytes, hj]

/-- A store leaves every other byte (20_memory.md R65). -/
theorem memGet_store_outside (m : Memory) {a size x : Nat} (v : Word) (hx : x < a ∨ a + size ≤ x) :
    memGet (memWrite m a (valueBytes v size)) x = memGet m x := by
  rw [memGet_memWrite, valueBytes_length, if_neg (by omega)]

/-- The host reads a written input byte as it was written (20_memory.md R66). -/
theorem windowByte_written {s : State} {a : Nat} {b : Byte} (h1 : 0x01000 ≤ a) (h2 : a < 0x05000)
    (h : memGet s.mem a = some b) : windowByte s a = b := by
  rw [windowByte, if_pos ⟨h1, h2⟩, h, Option.getD_some]

/-- The byte the host reads depends on the input windows at its own address alone. -/
theorem windowByte_mem_congr {s : State} {m : Memory} {a : Nat} (h : memGet m a = memGet s.mem a) :
    windowByte { s with mem := m } a = windowByte s a := by
  simp only [windowByte, h]

/-! ### Numbers read -/

/-- A window read of at most four bytes is their little-endian number, none of it cut off. -/
theorem busRead_toNat (s : State) {a n : Nat} (h : 0x01000 ≤ a) (hn : n ≤ 4) :
    (busRead s a n).toNat = leNat ((List.range' a n).map (windowByte s)) := by
  have hlt := leNat_lt ((List.range' a n).map (windowByte s))
  rw [List.length_map, List.length_range'] at hlt
  have hle : 256 ^ n ≤ 2 ^ 32 := Nat.pow_le_pow_right (n := 256) (by decide) hn
  rw [busRead, if_neg (Nat.not_lt.2 h), BitVec.toNat_ofNat, Nat.mod_eq_of_lt (Nat.lt_of_lt_of_le hlt hle)]

theorem busRead_one (s : State) {a : Nat} (h : 0x01000 ≤ a) :
    (busRead s a 1).toNat = (windowByte s a).toNat := by
  rw [busRead_toNat s h (by decide)]
  simp [leNat]

theorem busRead_four (s : State) {a : Nat} (h : 0x01000 ≤ a) :
    (busRead s a 4).toNat = (windowByte s a).toNat + 256 * (windowByte s (a + 1)).toNat +
      65536 * (windowByte s (a + 2)).toNat + 16777216 * (windowByte s (a + 3)).toNat := by
  rw [busRead_toNat s h (by decide), show List.range' a 4 = [a, a + 1, a + 2, a + 3] from rfl]
  simp only [List.map_cons, List.map_nil, leNat]
  omega

/-! ### Addresses where nothing is -/

/-- The window addresses the map of 20_memory.md R61 gives to nothing. -/
def Unmapped (a : Nat) : Prop :=
  (0x05240 ≤ a ∧ a < 0x06000) ∨ (0x07400 ≤ a ∧ a < 0x10000) ∨ 0x18000 ≤ a

theorem windowByte_unmapped (s : State) {a : Nat} (h : Unmapped a) : windowByte s a = 0 := by
  unfold Unmapped at h
  rw [windowByte, if_neg (by omega), if_neg (by omega), if_neg (by omega), if_neg (by omega),
    if_neg (by omega), if_neg (by omega)]

/-- An allowed access that begins at an unmapped address stays in unmapped addresses. -/
theorem unmapped_inside {a size x : Nat} (h : Unmapped a) (hok : accessOk a size = true)
    (h1 : a ≤ x) (h2 : x < a + size) : Unmapped x := by
  unfold Unmapped at h ⊢
  obtain ⟨hs, hal⟩ := (accessOk_window (by omega)).1 hok
  rcases hs with rfl | rfl | rfl <;> omega

/-- A string of zero bytes is the number 0. -/
theorem leNat_eq_zero {bs : List Byte} (h : ∀ b ∈ bs, b = 0) : leNat bs = 0 := by
  induction bs with
  | nil => rfl
  | cons b t ih =>
    rw [leNat_cons, h b (List.mem_cons_self ..), ih (fun c hc => h c (List.mem_cons_of_mem _ hc))]
    rfl

theorem busRead_unmapped (s : State) {a size : Nat} (h : Unmapped a) (hok : accessOk a size = true) :
    busRead s a size = 0 := by
  have hge : ¬ a < 0x01000 := by
    unfold Unmapped at h
    omega
  have hz : leNat ((List.range' a size).map (windowByte s)) = 0 := by
    refine leNat_eq_zero fun b hb => ?_
    obtain ⟨x, hx, rfl⟩ := List.mem_map.1 hb
    obtain ⟨h1, h2⟩ := List.mem_range'_1.1 hx
    exact windowByte_unmapped s (unmapped_inside h hok h1 h2)
  rw [busRead, if_neg hge, hz, BitVec.ofNat_eq_ofNat]

/-- The reserved offsets of the register block (10_state.md R22). -/
def ReservedOffset (a : Nat) : Prop :=
  a = 0x018 ∨ a = 0x01C ∨ a = 0x04C ∨ a = 0x064 ∨ a = 0x068 ∨ a = 0x06C ∨ a = 0x074 ∨ a = 0x078 ∨
    a = 0x07C ∨ 0x090 ≤ a

/-- Every arm of `regRead` but the last, the default, is at an offset that is not reserved. -/
theorem regRead_reserved (s : State) {a : Nat} (h : ReservedOffset a) : regRead s a = 0 := by
  unfold ReservedOffset at h
  unfold regRead
  split
  case h_27 => rfl
  all_goals omega

/-- A write outside the register block and the input windows has no effect (20_memory.md R62). -/
theorem busStore_readOnlyWindow (s : State) {a : Nat} (size : Nat) (v : Word) (h : 0x05000 ≤ a) :
    busStore s a size v = s := by
  rcases busStore_cases s a size v with h' | h' | h' | h' | h' | h'
  case inr.inr.inr.inr.inr => exact h'
  all_goals omega

end Sys2Proof.Machine

namespace Sys2Proof.Proofs

open Sys2Proof.Machine

/-- Settles O8: `accessOk` is the obligation's condition, and each branch of the access is its clause. -/
theorem badAccessIsAModelFault : Obligations.BadAccessIsAModelFault := by
  unfold Obligations.BadAccessIsAModelFault
  intro s a size v allowed
  have hok : accessOk a.toNat size = true ↔ allowed := accessOk_iff
  refine ⟨fun h => ?_, fun h => hostAccess_read_ok s (hok.2 h), fun h h0 => ?_⟩
  · rw [← hok] at h
    exact ⟨hostAccess_read_bad s h, hostAccess_write_bad s v h⟩
  · exact ⟨_, hostAccess_write_ok s v (hok.2 h) h0, busStore_faultMark s a.toNat size v⟩

/-- Settles O9: the store is `memWrite` of the value's bytes, inside and outside its range. -/
theorem hostWritesStore : Obligations.HostWritesStore := by
  unfold Obligations.HostWritesStore
  intro s a size v
  have harg : ∀ {b : BitVec 20}, accessOk b.toNat 4 = true → b.toNat ≠ 0 →
      hostAccess (.write b 4 v) s = .next (busStore s b.toNat 4 v) := hostAccess_write_ok s v
  refine ⟨fun h1 h2 hsize hal => ?_, harg rfl (by decide), harg rfl (by decide), harg rfl (by decide),
    harg rfl (by decide), hostAccess_cmd s v⟩
  have hok : accessOk a.toNat size = true := accessOk_iff.2 (.inr ⟨h1, hsize, hal⟩)
  have hin : a.toNat + size ≤ 0x05000 := store_inside hok h1 h2
  refine ⟨memWrite s.mem a.toNat (valueBytes v size), ?_, fun j hj => ?_, fun x hx => ?_⟩
  · rw [hostAccess_write_ok s v hok (by omega), busStore_window s size v h1 h2]
  · have hget := memGet_store_inside s.mem a.toNat v hj
    exact ⟨hget, windowByte_written (by omega) (by omega) hget⟩
  · have hget := memGet_store_outside s.mem v hx
    exact ⟨hget, windowByte_mem_congr hget⟩

/-- Settles O10: a read is the number of its bytes, and a written input byte is the one a command reads. -/
theorem windowReadsAreLittleEndian : Obligations.WindowReadsAreLittleEndian := by
  unfold Obligations.WindowReadsAreLittleEndian
  intro s a h
  refine ⟨busRead_one s h, busRead_two s h, busRead_four s h, fun b h2 => windowByte_written h h2, ?_⟩
  intro u i b hu hi ha hb
  rw [inByte, inAddr, ← ha] at hb
  exact windowByte_written h (by omega) hb

/-- Settles O11: no register and no window is at these addresses, and no store takes the write. -/
theorem reservedReadsZeroAndReadOnlyIgnores : Obligations.ReservedReadsZeroAndReadOnlyIgnores := by
  unfold Obligations.ReservedReadsZeroAndReadOnlyIgnores
  intro s a size v
  refine ⟨fun hlt hsize h4 hro => ?_, fun hge hsize hal => ?_⟩
  · subst hsize
    have hok : accessOk a.toNat 4 = true := (accessOk_reg hlt).2 ⟨rfl, h4⟩
    refine ⟨write_readOnly s v hlt h4 hro, fun hres => ?_⟩
    rw [hostAccess_read_ok s hok, busRead, if_pos hlt, regRead_reserved s hres]
  · have hok : accessOk a.toNat size = true := accessOk_iff.2 (.inr ⟨by omega, hsize, hal⟩)
    refine ⟨?_, fun hun => ?_⟩
    · rw [hostAccess_write_ok s v hok (by omega), busStore_readOnlyWindow s size v hge]
    · rw [hostAccess_read_ok s hok, busRead_unmapped s hun hok]

end Sys2Proof.Proofs
end

section
/-!
Format C both ways (30_encoding.md R80 to R84): the parts of a word, the command a selector gives, and the
selectors that give none.
-/

namespace Sys2Proof

/-! ### The parts of a word -/

/-- UNIT and OP are the top byte of a word made of its parts (R80). -/
@[simp] theorem selectorOf_append (sel a : Byte) (b : Half) :
    selectorOf ((sel ++ a : BitVec 16) ++ b) = sel := by
  rw [selectorOf, BitVec.extractLsb'_append_eq_of_le (by decide)]
  exact BitVec.extractLsb'_append_eq_left

@[simp] theorem operandA_append (sel a : Byte) (b : Half) :
    operandA ((sel ++ a : BitVec 16) ++ b) = a := by
  rw [operandA, BitVec.extractLsb'_append_eq_of_le (by decide)]
  exact BitVec.extractLsb'_append_eq_right

@[simp] theorem operandB_append (sel a : Byte) (b : Half) :
    operandB ((sel ++ a : BitVec 16) ++ b) = b :=
  BitVec.extractLsb'_append_eq_right

/-- A word is its selector, then A, then B (R80). -/
theorem append_parts (w : Word) : ((selectorOf w ++ operandA w : BitVec 16) ++ operandB w : Word) = w := by
  have hhigh : (selectorOf w ++ operandA w : BitVec 16) = w.extractLsb' 16 16 :=
    BitVec.extractLsb'_append_extractLsb'_eq_extractLsb' rfl
  rw [hhigh]
  exact BitVec.extractLsb'_append_extractLsb'

/-- UNIT, bits 31:28, is the high digit of the selector (R80). -/
theorem unit_digit (w : Word) : w.toNat / 2 ^ 28 = (selectorOf w).toNat / 16 := by
  have hw := w.isLt
  rw [selectorOf, BitVec.extractLsb'_toNat, Nat.shiftRight_eq_div_pow]
  omega

/-- OP, bits 27:24, is the low digit of the selector (R80). -/
theorem op_digit (w : Word) : w.toNat / 2 ^ 24 % 16 = (selectorOf w).toNat % 16 := by
  rw [selectorOf, BitVec.extractLsb'_toNat, Nat.shiftRight_eq_div_pow]
  omega

/-! ### Selectors and commands -/

/-- The selector and the operands of a command give it back; AIS.BITS splits A into a sign and a length
(R81). -/
theorem commandOf_selector (i : Instr) :
    commandOf (selector i).toNat (operands i).1 (operands i).2 = some i := by
  cases i with
  | aisBits sgn len start =>
    have hlen : (BitVec.cons sgn len).extractLsb' 0 7 = len := by
      rw [← BitVec.setWidth_eq_extractLsb' (by decide), BitVec.setWidth_cons]
    show some (Instr.aisBits (BitVec.cons sgn len).msb ((BitVec.cons sgn len).extractLsb' 0 7) start) = _
    rw [BitVec.msb_cons, hlen]
  | _ => rfl

/-- A selector that gives a command is that command's own, and so are the operands; the one arm with work to
do is AIS.BITS, whose sign and length make up A again (R81). -/
theorem parts_of_commandOf {sel : Nat} {a : Byte} {b : Half} {i : Instr} (h : commandOf sel a b = some i) :
    (selector i).toNat = sel ∧ operands i = (a, b) := by
  unfold commandOf at h
  split at h
  case h_12 =>
    obtain rfl := Option.some.inj h
    have ha : BitVec.cons a.msb (a.extractLsb' 0 7) = a := by
      rw [← BitVec.setWidth_eq_extractLsb' (by decide), BitVec.cons_msb_setWidth]
    exact ⟨rfl, congrArg (·, b) ha⟩
  case h_26 => exact absurd h (by simp)
  all_goals
    obtain rfl := Option.some.inj h
    exact ⟨rfl, rfl⟩

/-- The selectors that give no command are the pairs of R84: each arm's literal lies outside the list, and
what is none of the literals lies inside it. -/
theorem commandOf_eq_none_iff {sel : Nat} (hsel : sel < 256) (a : Byte) (b : Half) :
    commandOf sel a b = none ↔ Claims.IllegalPair (sel / 16) (sel % 16) := by
  unfold commandOf Claims.IllegalPair
  split
  case h_26 =>
    refine iff_of_true rfl ?_
    simp only [imp_false] at *
    omega
  all_goals exact iff_of_false (Option.some_ne_none _) (by decide)

/-! ### Decoding -/

theorem decode_eq_ok_iff {w : Word} {i : Instr} :
    decode w = .ok i ↔ commandOf (selectorOf w).toNat (operandA w) (operandB w) = some i := by
  unfold decode
  split <;> rename_i h <;> simp [h]

theorem decode_encode (i : Instr) : decode (encode i) = .ok i := by
  rw [decode_eq_ok_iff, encode, selectorOf_append, operandA_append, operandB_append]
  exact commandOf_selector i

theorem encode_of_decode {w : Word} {i : Instr} (h : decode w = .ok i) : encode i = w := by
  obtain ⟨hsel, hops⟩ := parts_of_commandOf (decode_eq_ok_iff.1 h)
  rw [encode, BitVec.eq_of_toNat_eq hsel, hops]
  exact append_parts w

/-- The words that decode are those whose pair is not in the list of R84. -/
theorem decode_isOk_iff (w : Word) :
    (∃ i, decode w = .ok i) ↔ ¬ Claims.IllegalPair (w.toNat / 2 ^ 28) (w.toNat / 2 ^ 24 % 16) := by
  rw [unit_digit, op_digit, ← commandOf_eq_none_iff (selectorOf w).isLt (operandA w) (operandB w),
    ← ne_eq, Option.ne_none_iff_exists']
  exact exists_congr fun _ => decode_eq_ok_iff

end Sys2Proof

namespace Sys2Proof.Proofs

open Sys2Proof.Machine

/-- Settles O1: the word's parts are the command's selector and operands, which give it back. -/
theorem decodeOfEncode : Obligations.DecodeOfEncode := by
  unfold Obligations.DecodeOfEncode
  exact decode_encode

/-- Settles O2: the command's selector and operands are the parts the word is made of. -/
theorem encodeOfDecode : Obligations.EncodeOfDecode := by
  unfold Obligations.EncodeOfDecode
  exact fun _ _ => encode_of_decode

/-- Settles O3: a word decodes exactly when its pair is not listed. -/
theorem illegalPairsFail : Obligations.IllegalPairsFail := by
  unfold Obligations.IllegalPairsFail
  intro w s
  refine ⟨fun hpair => ?_, fun hpair => ?_⟩
  · rcases hw : decode w with r | i
    · exact cycle_of_reject s hw
    · exact absurd hpair ((decode_isOk_iff w).1 ⟨i, hw⟩)
  · obtain ⟨i, hi⟩ := (decode_isOk_iff w).2 hpair
    exact ⟨i, hi, cycle_of_decode s hi⟩

/-- Settles O4: the first eight words are encoded commands, and the last one's pair is in no row. -/
theorem specWordsDecode : Obligations.SpecWordsDecode := by
  unfold Obligations.SpecWordsDecode
  exact ⟨decode_encode (.nmeaCfg 0x24 0), decode_encode (.nmeaFeedc 0x12 0xFFFF),
    decode_encode (.nmeaIsmsg 7 5), decode_encode (.aisBits true 28 61), decode_encode (.aisBits false 4 165),
    decode_encode (.sigScan 0 28), decode_encode (.crcFeed 0 156), decode_encode (.blkReset 0 0), rfl⟩

end Sys2Proof.Proofs
end

section
/-!
The bits a command's rule does not name (30_encoding.md R81): the operand bits reach nothing but the word a
model fault records, and the ARG bits reach nothing at all.
-/

namespace Sys2Proof.Machine

open Sys2Proof.Claims

/-! ### Operand bits -/

/-- The answers `r` and `r'` of two command words are one answer, or each is the model fault at one index
that records its own word. -/
def SameButWord (s : State) (w w' : Word) (r r' : Result) : Prop :=
  r = r' ∨ ∃ k, r = .next (s.modelFault (.unwrittenInput w k)) ∧
    r' = .next (s.modelFault (.unwrittenInput w' k))

section
variable (s : State) (w w' : Word)

theorem feedU0_sameButWord (F : Framer) : SameButWord s w w' (feedU0 w F s) (feedU0 w' F s) := by
  unfold feedU0
  rcases framerRun s.mem 0 F with k | ⟨F', r⟩
  · exact .inr ⟨k, rfl, rfl⟩
  · exact .inl rfl

theorem feedU1_sameButWord (F : Framer) : SameButWord s w w' (feedU1 w F s) (feedU1 w' F s) := by
  unfold feedU1
  rcases aisRun s.mem F s.ais with k | ⟨F', A', r⟩
  · exact .inr ⟨k, rfl, rfl⟩
  · exact .inl rfl

end

section
variable (s : State) (len : Half) (ua ua' : Byte)

theorem execNmeaFeedn_sameButWord :
    SameButWord s (encode (.nmeaFeedn ua len)) (encode (.nmeaFeedn ua' len))
      (execNmeaFeedn ua len s) (execNmeaFeedn ua' len s) := by
  unfold execNmeaFeedn
  split
  · exact .inl rfl
  · exact feedU0_sameButWord s _ _ _

theorem execAisFeedn_sameButWord :
    SameButWord s (encode (.aisFeedn ua len)) (encode (.aisFeedn ua' len))
      (execAisFeedn ua len s) (execAisFeedn ua' len s) := by
  unfold execAisFeedn
  split
  · exact .inl rfl
  · exact feedU1_sameButWord s _ _ _

theorem execCrcFeed_sameButWord :
    SameButWord s (encode (.crcFeed ua len)) (encode (.crcFeed ua' len))
      (execCrcFeed ua len s) (execCrcFeed ua' len s) := by
  unfold execCrcFeed
  split
  · exact .inl rfl
  · rcases inBytes s.mem 3 0 len.toNat with k | bs
    · exact .inr ⟨k, rfl, rfl⟩
    · exact .inl rfl

theorem execCrcCrc32_sameButWord :
    SameButWord s (encode (.crcCrc32 ua len)) (encode (.crcCrc32 ua' len))
      (execCrcCrc32 ua len s) (execCrcCrc32 ua' len s) := by
  unfold execCrcCrc32
  split
  · exact .inl rfl
  · rcases inBytes s.mem 3 0 len.toNat with k | bs
    · exact .inr ⟨k, rfl, rfl⟩
    · exact .inl rfl

end

/-- Only a command that reads an input window hands its word on, to the fault mark; every other arm of
`exec` drops the ignored bits. -/
theorem exec_canonical (i : Instr) (s : State) :
    SameButWord s (encode i) (encode (canonical i)) (exec i s) (exec (canonical i) s) := by
  cases i with
  | nmeaFeedn ua len => exact execNmeaFeedn_sameButWord s len ua 0
  | nmeaFeedc ua ub => exact feedU0_sameButWord s _ _ _
  | aisFeedn ua len => exact execAisFeedn_sameButWord s len ua 0
  | aisFeedc ua ub => exact feedU1_sameButWord s _ _ _
  | crcFeed ua len => exact execCrcFeed_sameButWord s len ua 0
  | crcCrc32 ua len => exact execCrcCrc32_sameButWord s len ua 0
  | _ => exact .inl rfl

/-! ### ARG bits -/

/-- A byte of two words in a row is a byte of the low one, or else of the high one. -/
theorem byteLane_append {n : Nat} (v : BitVec n) (w : Word) (j : Nat) :
    byteLane (v ++ w) j = if j < 4 then byteLane w j else byteLane v (j - 4) := by
  unfold byteLane
  split
  · exact BitVec.extractLsb'_append_eq_of_add_le (by omega)
  · rw [BitVec.extractLsb'_append_eq_of_le (by omega), Nat.mul_sub]

/-- A byte of the four registers in a row is the byte of its register (R81). -/
theorem argByte_eq_nameByte (x : Args) {j : Nat} (hj : j < 16) : argByte x j = nameByte x j := by
  show byteLane (x.a3 ++ x.a2 ++ x.a1 ++ x.a0) j = byteLane (x.get (j / 4)) (j % 4)
  rw [byteLane_append, byteLane_append, byteLane_append]
  interval_cases j <;> rfl

theorem nameBytes_congr {x y : Args} {len : Nat} (hlen : len ≤ 16)
    (h : ∀ j, j < len → argByte x j = argByte y j) : nameBytes x len = nameBytes y len := by
  refine List.map_congr_left fun j hj => ?_
  have hj := List.mem_range.1 hj
  rw [← argByte_eq_nameByte x (by omega), ← argByte_eq_nameByte y (by omega), h j hj]

/-- The answer with ARG0 to ARG3 of its next state replaced. -/
def withArgs (x : Args) : Result → Result
  | .next t => .next { t with args := x }
  | .fault e => .fault e
  | .refused e => .refused e

section
variable (s : State) (x : Args)

/-! Every command but BLK.RESET leaves ARG, and reads no bit of it that its rule does not name: with other
ARG values it gives the same answer but for those. -/

theorem execNmeaCfg_args (c : Byte) :
    execNmeaCfg c { s with args := x } = withArgs x (execNmeaCfg c s) := by
  unfold execNmeaCfg
  split <;> rfl

theorem feedU0_args (w : Word) (F : Framer) :
    feedU0 w F { s with args := x } = withArgs x (feedU0 w F s) := by
  unfold feedU0
  rcases framerRun s.mem 0 F with k | ⟨F', r⟩ <;> rfl

theorem execNmeaFeedn_args (ua : Byte) (len : Half) :
    execNmeaFeedn ua len { s with args := x } = withArgs x (execNmeaFeedn ua len s) := by
  unfold execNmeaFeedn
  split
  · rfl
  · exact feedU0_args s x _ _

theorem execNmeaNfields_args :
    execNmeaNfields { s with args := x } = withArgs x (execNmeaNfields s) := by
  unfold execNmeaNfields
  split <;> rfl

theorem execNmeaField_args (i : Byte) :
    execNmeaField i { s with args := x } = withArgs x (execNmeaField i s) := by
  unfold execNmeaField
  split
  · rfl
  · split <;> rfl

theorem execNmeaFint_args (i : Byte) :
    execNmeaFint i { s with args := x } = withArgs x (execNmeaFint i s) := by
  unfold execNmeaFint
  split
  · rfl
  · split
    · rfl
    · rcases parseInt (fieldBytes s.f0 i.toNat) with _ | v <;> rfl

theorem execNmeaFdec_args (i : Byte) :
    execNmeaFdec i { s with args := x } = withArgs x (execNmeaFdec i s) := by
  unfold execNmeaFdec
  split
  · rfl
  · split
    · rfl
    · rcases parseDec (fieldBytes s.f0 i.toNat) with _ | ⟨m, q⟩ <;> rfl

theorem execNmeaIsmsg_args (n : Byte) (len : Half)
    (h : ∀ j, j < len.toNat → argByte s.args j = argByte x j) :
    execNmeaIsmsg n len { s with args := x } = withArgs x (execNmeaIsmsg n len s) := by
  unfold execNmeaIsmsg
  split
  · rfl
  · rename_i hlen
    rw [← nameBytes_congr (Nat.not_lt.1 hlen) h]
    split <;> rfl

theorem feedU1_args (w : Word) (F : Framer) :
    feedU1 w F { s with args := x } = withArgs x (feedU1 w F s) := by
  unfold feedU1
  rcases aisRun s.mem F s.ais with k | ⟨F', A', r⟩ <;> rfl

theorem execAisFeedn_args (ua : Byte) (len : Half) :
    execAisFeedn ua len { s with args := x } = withArgs x (execAisFeedn ua len s) := by
  unfold execAisFeedn
  split
  · rfl
  · exact feedU1_args s x _ _

theorem execAisMsglen_args :
    execAisMsglen { s with args := x } = withArgs x (execAisMsglen s) := by
  unfold execAisMsglen
  split <;> rfl

theorem readBitsCommand_args (b n : Nat) (sg : Bool) :
    readBitsCommand b n sg { s with args := x } = withArgs x (readBitsCommand b n sg s) := by
  unfold readBitsCommand
  split
  · rfl
  · rcases readBits s.ais b n sg with _ | v <;> rfl

theorem execAisBits_args (sgn : Bool) (len : BitVec 7) (start : Half) :
    execAisBits sgn len start { s with args := x } = withArgs x (execAisBits sgn len start s) := by
  unfold execAisBits
  split
  · rfl
  · exact readBitsCommand_args s x _ _ _

theorem execAisPos_args : execAisPos { s with args := x } = withArgs x (execAisPos s) := by
  unfold execAisPos
  split
  · rfl
  · rcases readBits s.ais 0 6 false with _ | ty
    · rfl
    · dsimp only
      rcases posOffsets ty with _ | o <;> rfl

theorem execSigReg_args (k : Byte) (size : Half)
    (h : argByte s.args 0 = argByte x 0 ∧ argByte s.args 1 = argByte x 1) :
    execSigReg k size { s with args := x } = withArgs x (execSigReg k size s) := by
  have hname : ∀ y : Args, argByte y 0 = sigName0 y ∧ argByte y 1 = sigName1 y := fun y =>
    ⟨argByte_eq_nameByte y (by decide), argByte_eq_nameByte y (by decide)⟩
  rw [(hname x).1, (hname x).2, (hname s.args).1, (hname s.args).2] at h
  unfold execSigReg
  rw [← h.1, ← h.2]
  split <;> rfl

theorem scanResult_args (k base : Nat) (buf : List Byte) (found : Option Nat) :
    scanResult k base buf found { s with args := x } =
      { scanResult k base buf found s with args := x } := by
  cases found <;> rfl

theorem execSigScan_args (k : Byte) (len : Half) (h : s.args.a0 = x.a0) :
    execSigScan k len { s with args := x } = withArgs x (execSigScan k len s) := by
  have hstart : sigStart s.args = sigStart x := congrArg BitVec.toNat h
  unfold execSigScan
  rw [← hstart]
  split
  · rfl
  · split
    · rfl
    · dsimp only
      rcases inBytes s.mem 2 (sigStart s.args) (len.toNat - sigStart s.args) with i | buf
      · rfl
      · exact congrArg _ (scanResult_args s x _ _ _ _)

theorem execSigLatest_args (k : Byte) (len : Half) :
    execSigLatest k len { s with args := x } = withArgs x (execSigLatest k len s) := by
  unfold execSigLatest
  split
  · rfl
  · split
    · rfl
    · rcases inBytes s.mem 2 0 len.toNat with i | buf
      · rfl
      · exact congrArg _ (scanResult_args s x _ _ _ _)

theorem execSigClr_args (k : Byte) :
    execSigClr k { s with args := x } = withArgs x (execSigClr k s) := by
  unfold execSigClr
  split <;> rfl

theorem execCrcFeed_args (ua : Byte) (len : Half) :
    execCrcFeed ua len { s with args := x } = withArgs x (execCrcFeed ua len s) := by
  unfold execCrcFeed
  split
  · rfl
  · rcases inBytes s.mem 3 0 len.toNat with k | bs <;> rfl

theorem execCrcCrc32_args (ua : Byte) (len : Half) :
    execCrcCrc32 ua len { s with args := x } = withArgs x (execCrcCrc32 ua len s) := by
  unfold execCrcCrc32
  split
  · rfl
  · rcases inBytes s.mem 3 0 len.toNat with k | bs <;> rfl

theorem execCrcField_args (j : Byte) :
    execCrcField j { s with args := x } = withArgs x (execCrcField j s) := by
  unfold execCrcField
  rcases layoutEntry j.toNat with _ | f
  · rfl
  · dsimp only
    split <;> rfl

theorem execCrcNorm_args (j : Byte) :
    execCrcNorm j { s with args := x } = withArgs x (execCrcNorm j s) := by
  unfold execCrcNorm
  split
  · rfl
  · split <;> rfl

/-- With other values in the ARG bits its rule does not name a command gives the same answer but for ARG,
which BLK.RESET alone writes. -/
theorem exec_args (i : Instr) (h : SameNamedArgs i s.args x) :
    ∃ y, exec i { s with args := x } = withArgs y (exec i s) := by
  cases i with
  | nmeaCfg c _ => exact ⟨x, execNmeaCfg_args s x c⟩
  | nmeaFeedn ua len => exact ⟨x, execNmeaFeedn_args s x ua len⟩
  | nmeaFeedc _ _ => exact ⟨x, feedU0_args s x _ _⟩
  | nmeaNfields _ _ => exact ⟨x, execNmeaNfields_args s x⟩
  | nmeaField i _ => exact ⟨x, execNmeaField_args s x i⟩
  | nmeaFint i _ => exact ⟨x, execNmeaFint_args s x i⟩
  | nmeaFdec i _ => exact ⟨x, execNmeaFdec_args s x i⟩
  | nmeaIsmsg n len => exact ⟨x, execNmeaIsmsg_args s x n len h⟩
  | aisFeedn ua len => exact ⟨x, execAisFeedn_args s x ua len⟩
  | aisFeedc _ _ => exact ⟨x, feedU1_args s x _ _⟩
  | aisMsglen _ _ => exact ⟨x, execAisMsglen_args s x⟩
  | aisBits sgn len start => exact ⟨x, execAisBits_args s x sgn len start⟩
  | aisType _ _ => exact ⟨x, readBitsCommand_args s x _ _ _⟩
  | aisMmsi _ _ => exact ⟨x, readBitsCommand_args s x _ _ _⟩
  | aisPos _ _ => exact ⟨x, execAisPos_args s x⟩
  | sigReg k size => exact ⟨x, execSigReg_args s x k size h⟩
  | sigScan k len => exact ⟨x, execSigScan_args s x k len h⟩
  | sigLatest k len => exact ⟨x, execSigLatest_args s x k len⟩
  | sigClr k _ => exact ⟨x, execSigClr_args s x k⟩
  | crcFeed ua len => exact ⟨x, execCrcFeed_args s x ua len⟩
  | crcTake _ _ => exact ⟨x, rfl⟩
  | crcCrc32 ua len => exact ⟨x, execCrcCrc32_args s x ua len⟩
  | crcField j _ => exact ⟨x, execCrcField_args s x j⟩
  | crcNorm j _ => exact ⟨x, execCrcNorm_args s x j⟩
  | blkReset _ _ => exact ⟨State.reset.args, rfl⟩

end

end Sys2Proof.Machine

namespace Sys2Proof.Proofs

open Sys2Proof.Machine

/-- Settles O5: the ignored operand bits reach the fault mark alone, and no arm of `exec` reads other ARG
bits than those its rule names. -/
theorem ignoredBitsChangeNothing : Obligations.IgnoredBitsChangeNothing := by
  unfold Obligations.IgnoredBitsChangeNothing
  intro i s
  refine ⟨exec_canonical i s, fun x t hargs hnext => ?_⟩
  obtain ⟨y, hy⟩ := exec_args s x i hargs
  rw [hnext] at hy
  exact ⟨{ t with args := y }, hy, rfl⟩

end Sys2Proof.Proofs
end

section
/-!
U0's commands on the sentence it holds, and NMEA.CFG (40_nmea_framer.md R121, R124 to R130): each ends in the
first of its failures that applies, in the order of its rule, or in its report.
-/

namespace Sys2Proof.Machine

open Sys2Proof.Claims

/-- A field ends below the largest number its table and its counter can hold. -/
theorem fieldEnd_lt (F : Framer) (i : Nat) : fieldEnd F i < 1024 := by
  unfold fieldEnd
  split
  · exact (bufGet F.fstart (i + 1)).isLt
  · exact F.nc.isLt

theorem toInt_ofNat_of_lt {n : Nat} (h : n < 1024) : (BitVec.ofNat 32 n).toInt = n := by
  rw [BitVec.toInt_ofNat']
  exact Int.bmod_eq_of_le (by omega) (by omega)

/-- The difference of two such numbers, as a register holds it (00_scope.md R7). -/
theorem toInt_ofNat_sub {e b : Nat} (he : e < 1024) (hb : b < 1024) :
    (BitVec.ofNat 32 e - BitVec.ofNat 32 b).toInt = (e : Int) - b := by
  rw [BitVec.toInt_sub, toInt_ofNat_of_lt he, toInt_ofNat_of_lt hb]
  exact Int.bmod_eq_of_le (by omega) (by omega)

/-- The name NMEA.ISMSG compares is the packed ARG bytes (30_encoding.md R81). -/
theorem nameBytes_eq_argBytes (x : Args) {len : Nat} (hlen : len ≤ 16) :
    nameBytes x len = (List.range len).map (argByte x) :=
  List.map_congr_left fun _ hj =>
    (argByte_eq_nameByte x (Nat.lt_of_lt_of_le (List.mem_range.1 hj) hlen)).symm

end Sys2Proof.Machine

namespace Sys2Proof.Proofs

open Sys2Proof.Machine

/-- Settles O15: the two start characters are the ones NMEA.CFG's test lets through. -/
theorem nmeaConfigure : Obligations.NmeaConfigure := by
  unfold Obligations.NmeaConfigure
  exact fun c ub s => ⟨Laws.OpcodeByte.nmeaCfg c ub, fun h => if_neg (by tauto), fun h => if_pos (by tauto)⟩

/-- Settles O20: a field starts and ends below 1024, so its length is the difference its register holds. -/
theorem nmeaFieldQueries : Obligations.NmeaFieldQueries := by
  unfold Obligations.NmeaFieldQueries
  intro i ua ub s
  refine ⟨Laws.OpcodeByte.nmeaNfields ua ub, Laws.OpcodeByte.nmeaField i ub,
    fun hv => if_neg (not_not.2 hv), fun hv hl => ⟨hl.nf_pos (.inr hv), hl.nf_le⟩,
    fun hv => ⟨if_pos (by simp [hv]), if_pos (by simp [hv])⟩,
    fun hv hi => (if_neg (not_not.2 hv)).trans (if_pos hi),
    fun hv hi => ⟨_, (if_neg (not_not.2 hv)).trans (if_neg (Nat.not_le.2 hi)), ?_, fun j hj => ?_⟩⟩
  · exact toInt_ofNat_sub (fieldEnd_lt s.f0 i.toNat) (bufGet s.f0.fstart i.toNat).isLt
  · rw [Nat.add_assoc]
    exact windowByte_chars s hj

/-- Settles O21: past the two failures the answer is what `ParseInt` reads of the field. -/
theorem nmeaIntegerField : Obligations.NmeaIntegerField := by
  unfold Obligations.NmeaIntegerField
  intro i ub s
  refine ⟨Laws.OpcodeByte.nmeaFint i ub, fun hv => if_pos (by simp [hv]),
    fun hv hi => (if_neg (not_not.2 hv)).trans (if_pos hi), fun hv hi hp => ?_, fun v hv hi hp => ?_⟩
  all_goals
    rw [exec_nmeaFint, execNmeaFint, if_neg (not_not.2 hv), if_neg (Nat.not_le.2 hi), hp]
    rfl

/-- Settles O22: past the two failures the answer is what `ParseDec` reads of the field. -/
theorem nmeaDecimalField : Obligations.NmeaDecimalField := by
  unfold Obligations.NmeaDecimalField
  intro i ub s
  refine ⟨Laws.OpcodeByte.nmeaFdec i ub, fun hv => if_pos (by simp [hv]),
    fun hv hi => (if_neg (not_not.2 hv)).trans (if_pos hi), fun hv hi hp => ?_, fun m q hv hi hp => ?_⟩
  all_goals
    rw [exec_nmeaFdec, execNmeaFdec, if_neg (not_not.2 hv), if_neg (Nat.not_le.2 hi), hp]
    rfl

/-- Settles O23: the packed name is the ARG bytes, and the answer the test of count and name. -/
theorem nmeaIsMessage : Obligations.NmeaIsMessage := by
  unfold Obligations.NmeaIsMessage
  intro n len s name
  have hname (hlen : len.toNat ≤ 16) : nameBytes s.args len.toNat = name := nameBytes_eq_argBytes s.args hlen
  refine ⟨Laws.OpcodeByte.nmeaIsmsg n len, fun hlen => if_pos hlen,
    fun hlen hv => (if_neg (Nat.not_lt.2 hlen)).trans (if_pos (by simp [hv])),
    fun hlen hv hit => ?_, fun hlen hv hmiss => ?_⟩
  · rw [exec_nmeaIsmsg, execNmeaIsmsg, if_neg (Nat.not_lt.2 hlen), if_neg (not_not.2 hv), hname hlen,
      decide_eq_true hit]
    rfl
  · rw [exec_nmeaIsmsg, execNmeaIsmsg, if_neg (Nat.not_lt.2 hlen), if_neg (not_not.2 hv), hname hlen,
      decide_eq_false hmiss]
    rfl

end Sys2Proof.Proofs
end

section
/-!
The decimal readers of a field against what they read (40_nmea_framer.md R126, R128): a sign is split off, a
point is split off, and what is left are digits with their decimal value.
-/

namespace Sys2Proof.Machine

open Sys2Proof.Claims

/-! ### Digits -/

theorem all_isDigit_iff {ds : List Byte} : ds.all isDigit = true ↔ Digits ds := by
  simp [isDigit, Digits]

/-- Reading on from a value puts it in front of the digits read. -/
theorem foldl_digits (ds : List Byte) (v : Nat) :
    ds.foldl (fun v b => 10 * v + (b.toNat - 0x30)) v = v * 10 ^ ds.length + decimal ds := by
  induction ds generalizing v with
  | nil => simp [decimal]
  | cons d t ih =>
    rw [List.foldl_cons, ih, decimal, List.length_cons, Nat.pow_succ]
    ring

theorem decValue_eq_decimal (ds : List Byte) : decValue ds = decimal ds := by
  rw [decValue, foldl_digits, Nat.zero_mul, Nat.zero_add]

/-- A string of `n` digits is a number below `10 ^ n`. -/
theorem decimal_lt {ds : List Byte} (h : Digits ds) : decimal ds < 10 ^ ds.length := by
  induction ds with
  | nil => simp [decimal]
  | cons d t ih =>
    obtain ⟨hd, ht⟩ := List.forall_mem_cons.1 h
    have hlt := ih ht
    have hle : (d.toNat - 0x30) * 10 ^ t.length ≤ 9 * 10 ^ t.length := Nat.mul_le_mul_right _ (by omega)
    rw [decimal, List.length_cons, Nat.pow_succ]
    omega

/-! ### Signs -/

/-- What is split off is a sign (R126). -/
theorem splitSign_sound (s : List Byte) : ∃ sg, SignOf sg (splitSign s).1 ∧ s = sg ++ (splitSign s).2 := by
  rcases s with _ | ⟨b, t⟩
  · exact ⟨[], .inl ⟨rfl, rfl⟩, rfl⟩
  · rw [splitSign]
    split
    next hm => exact ⟨[0x2D], .inr (.inr ⟨rfl, rfl⟩), by rw [hm]; rfl⟩
    next =>
      split
      next hp => exact ⟨[0x2B], .inr (.inl ⟨rfl, rfl⟩), by rw [hp]; rfl⟩
      next => exact ⟨[], .inl ⟨rfl, rfl⟩, rfl⟩

/-- A sign before a string that begins with none is split off whole. -/
theorem splitSign_append {sg t : List Byte} {neg : Bool} (hs : SignOf sg neg)
    (ht : ∀ b ∈ t.head?, b ≠ 0x2D ∧ b ≠ 0x2B) : splitSign (sg ++ t) = (neg, t) := by
  rcases hs with ⟨rfl, rfl⟩ | ⟨rfl, rfl⟩ | ⟨rfl, rfl⟩
  · rcases t with _ | ⟨b, t⟩
    · rfl
    · obtain ⟨hm, hp⟩ := ht b rfl
      rw [List.nil_append, splitSign, if_neg hm, if_neg hp]
  · rfl
  · rfl

theorem digit_not_sign {ds : List Byte} (h : Digits ds) : ∀ b ∈ ds.head?, b ≠ 0x2D ∧ b ≠ 0x2B := by
  intro b hb
  have hd := h b (List.mem_of_mem_head? hb)
  constructor <;> rintro rfl <;> simp at hd

/-! ### `ParseInt` -/

/-- `ParseInt` reads the rest behind the sign when it is a string of 1 to 18 digits (R126). -/
theorem parseInt_eq_some_iff {s t : List Byte} {neg : Bool} (h : splitSign s = (neg, t)) {v : Int} :
    parseInt s = some v ↔
      Digits t ∧ 1 ≤ t.length ∧ t.length ≤ 18 ∧ v = signedValue neg (decimal t) := by
  rw [← all_isDigit_iff, ← decValue_eq_decimal]
  simp only [parseInt, h, Config.numMaxDigits]
  by_cases hl : t.length < 1 ∨ t.length > 18
  · rw [if_pos hl]
    exact iff_of_false (Option.some_ne_none v).symm (by omega)
  · rw [if_neg hl, Option.ite_none_right_eq_some, Option.some.injEq]
    exact ⟨fun ⟨hd, hv⟩ => ⟨hd, by omega, by omega, hv.symm⟩, fun ⟨hd, _, _, hv⟩ => ⟨hd, hv.symm⟩⟩

/-- A number of at most 18 digits fits an `i64`, and either sign keeps it there. -/
theorem signedValue_bounds {t : List Byte} (hd : Digits t) (hl : t.length ≤ 18) (neg : Bool) :
    -(10 ^ 18 - 1) ≤ signedValue neg (decimal t) ∧ signedValue neg (decimal t) ≤ 10 ^ 18 - 1 := by
  have hlt : decimal t < 10 ^ 18 := Nat.lt_of_lt_of_le (decimal_lt hd) (Nat.pow_le_pow_right (by decide) hl)
  cases neg <;> simp only [signedValue] <;> omega

/-! ### `ParseDec` -/

/-- The point between two parts, or nothing, the second part then empty (R128). -/
def PointBetween (pt d2 : List Byte) : Prop := pt = [0x2E] ∨ (pt = [] ∧ d2 = [])

/-- The first point ends the first part. -/
theorem splitPoint_append {d1 pt d2 : List Byte} (h : 0x2E ∉ d1) (hpt : PointBetween pt d2) :
    splitPoint (d1 ++ pt ++ d2) = (d1, d2) := by
  have hp : ∀ b ∈ d1, decide (b ≠ 0x2E) = true := fun b hb => decide_eq_true (ne_of_mem_of_not_mem hb h)
  rw [splitPoint, List.append_assoc, List.takeWhile_append_of_pos hp, List.dropWhile_append_of_pos hp]
  rcases hpt with rfl | ⟨rfl, rfl⟩ <;> simp

theorem splitPoint_cases (t : List Byte) :
    ∃ d1 pt d2, t = d1 ++ pt ++ d2 ∧ PointBetween pt d2 ∧ splitPoint t = (d1, d2) := by
  by_cases h : 0x2E ∈ t
  · obtain ⟨d1, d2, ht, hd1⟩ := List.eq_append_cons_of_mem h
    have hpt : PointBetween [0x2E] d2 := .inl rfl
    have ht : t = d1 ++ [0x2E] ++ d2 := by simpa using ht
    exact ⟨d1, _, d2, ht, hpt, ht ▸ splitPoint_append hd1 hpt⟩
  · have hpt : PointBetween [] [] := .inr ⟨rfl, rfl⟩
    have ht : t = t ++ [] ++ [] := by simp
    exact ⟨t, _, _, ht, hpt, (congrArg splitPoint ht).trans (splitPoint_append h hpt)⟩

/-- `ParseDec` reads the two parts behind the sign when they are 1 to 18 digits in all (R128). -/
theorem parseDec_eq_some_iff {s t d1 d2 : List Byte} {neg : Bool} (h : splitSign s = (neg, t))
    (hp : splitPoint t = (d1, d2)) {m : Int} {q : Nat} :
    parseDec s = some (m, q) ↔ Digits (d1 ++ d2) ∧ 1 ≤ d1.length + d2.length ∧
      d1.length + d2.length ≤ 18 ∧ q = d2.length ∧ m = signedValue neg (decimal (d1 ++ d2)) := by
  rw [← all_isDigit_iff, ← decValue_eq_decimal]
  simp only [parseDec, h, hp, Config.numMaxDigits]
  by_cases hl : d1.length + d2.length < 1 ∨ d1.length + d2.length > 18
  · rw [if_pos hl, ite_self]
    exact iff_of_false (Option.some_ne_none _).symm (by omega)
  · rw [if_neg hl, ite_not, Option.ite_none_right_eq_some, Option.some.injEq, Prod.mk.injEq]
    exact ⟨fun ⟨hd, hm, hq⟩ => ⟨hd, by omega, by omega, hq.symm, hm.symm⟩,
      fun ⟨hd, _, _, hq, hm⟩ => ⟨hd, hm.symm, hq.symm⟩⟩

/-- A number with a digit begins with a digit or with its point. -/
theorem number_not_sign {d1 pt d2 : List Byte} (hpt : PointBetween pt d2) (hd : Digits (d1 ++ d2)) :
    ∀ b ∈ (d1 ++ pt ++ d2).head?, b ≠ 0x2D ∧ b ≠ 0x2B := by
  rcases d1 with _ | ⟨d, t⟩
  · rcases hpt with rfl | ⟨rfl, rfl⟩ <;> simp
  · intro b hb
    exact digit_not_sign hd b hb

theorem point_notMem {d1 : List Byte} (hd : Digits d1) : 0x2E ∉ d1 := fun h => by
  have := hd _ h
  simp at this

end Sys2Proof.Machine

namespace Sys2Proof.Proofs

open Sys2Proof.Machine Sys2Proof.Claims

/-- Settles O24: the sign is what is split off, and the rest is read as its decimal value. -/
theorem parseIntSyntax : Obligations.ParseIntSyntax := by
  unfold Obligations.ParseIntSyntax
  intro s v
  obtain ⟨sg, hsg, hs⟩ := splitSign_sound s
  have hread := parseInt_eq_some_iff (s := s) (v := v) rfl
  refine ⟨⟨fun h => ?_, ?_⟩, fun h => ?_⟩
  · obtain ⟨hd, h1, h18, hv⟩ := hread.1 h
    exact ⟨sg, _, _, hs, hsg, hd, h1, h18, hv⟩
  · rintro ⟨sg, ds, neg, rfl, hsg, hd, h1, h18, hv⟩
    exact (parseInt_eq_some_iff (splitSign_append hsg (digit_not_sign hd))).2 ⟨hd, h1, h18, hv⟩
  · obtain ⟨hd, -, h18, rfl⟩ := hread.1 h
    exact signedValue_bounds hd h18 _

/-- Settles O25: sign and point are what is split off, and the two parts are read as one decimal value. -/
theorem parseDecSyntax : Obligations.ParseDecSyntax := by
  unfold Obligations.ParseDecSyntax
  intro s m q
  constructor
  · intro h
    obtain ⟨sg, hsg, hs⟩ := splitSign_sound s
    obtain ⟨d1, pt, d2, ht, hpt, hp⟩ := splitPoint_cases (splitSign s).2
    obtain ⟨hd, h1, h18, hq, hm⟩ := (parseDec_eq_some_iff rfl hp).1 h
    exact ⟨sg, d1, d2, pt, _, hs.trans (by rw [ht]; simp), hsg, hpt, hd, h1, h18, hq, hm⟩
  · rintro ⟨sg, d1, d2, pt, neg, rfl, hsg, hpt, hd, h1, h18, hq, hm⟩
    have hd1 : Digits d1 := fun b hb => hd b (List.mem_append_left _ hb)
    have hsign := splitSign_append hsg (number_not_sign hpt hd)
    rw [← List.append_assoc, ← List.append_assoc] at hsign
    exact (parseDec_eq_some_iff hsign (splitPoint_append (point_notMem hd1) hpt)).2 ⟨hd, h1, h18, hq, hm⟩

end Sys2Proof.Proofs
end

section
/-!
What the framer does with a string of bytes (40_nmea_framer.md R110 to R120): each kind of byte, the checksum
digits, and, from any state, the start character and the body of a valid sentence, read into its fields.
-/

namespace Sys2Proof.Machine

open Sys2Proof.Claims

/-! ### Strings in a window -/

section

variable {m : Memory} {u i : Nat}

theorem holds_nil : Holds m u i [] := fun j hj => absurd hj (Nat.not_lt_zero j)

theorem holds_append {x y : List Byte} :
    Holds m u i (x ++ y) ↔ Holds m u i x ∧ Holds m u (i + x.length) y := by
  constructor
  · intro h
    refine ⟨fun j hj => ?_, fun j hj => ?_⟩
    · rw [h j (by rw [List.length_append]; omega), List.getElem?_append_left hj]
    · rw [Nat.add_assoc, h _ (by rw [List.length_append]; omega), List.getElem?_append_right (by omega),
        Nat.add_sub_cancel_left]
  · rintro ⟨hx, hy⟩ j hj
    rw [List.length_append] at hj
    rcases Nat.lt_or_ge j x.length with h | h
    · rw [hx j h, List.getElem?_append_left h]
    · rw [List.getElem?_append_right h, ← hy _ (by omega), Nat.add_assoc, Nat.add_sub_cancel' h]

theorem holds_singleton {b : Byte} : Holds m u i [b] ↔ inByte m u i = some b := by
  simp [Holds]

theorem holds_cons {b : Byte} {bs : List Byte} :
    Holds m u i (b :: bs) ↔ inByte m u i = some b ∧ Holds m u (i + 1) bs := by
  rw [← List.singleton_append, holds_append, holds_singleton, List.length_singleton]

end

/-! ### One byte -/

section

variable {F : Framer}

/-- Where the framer stands in its buffer is nothing to a byte step (R110 to R118). -/
theorem framerStep_placed (F : Framer) (p l : BitVec 13) (b : Byte) :
    framerStep { F with pos := p, len := l } b =
      ({ (framerStep F b).1 with pos := p, len := l }, (framerStep F b).2) := by
  obtain ⟨start, st, cs, nf, nc, chars, fstart, valid, pos, len⟩ := F
  unfold framerStep
  split
  · rfl
  · dsimp only
    split
    · rfl
    · cases st with
      | body =>
        dsimp only
        split
        · unfold framerComma
          split <;> rfl
        · split
          · rfl
          · unfold framerStore
            split <;> rfl
      | _ => rfl

theorem framerStep_pos (F : Framer) (p : BitVec 13) (b : Byte) :
    framerStep { F with pos := p } b = ({ (framerStep F b).1 with pos := p }, (framerStep F b).2) :=
  (framerStep_placed F p F.len b).trans (by dsimp only; rw [(framerStep_keeps F b).2.2.1])

theorem printable_start (hs : F.start = 0x24 ∨ F.start = 0x21) : printable F.start = true := by
  rcases hs with h | h <;> rw [h] <;> decide

theorem framerStep_start (hs : F.start = 0x24 ∨ F.start = 0x21) :
    framerStep F F.start = (framerOpen F, false) := by
  rw [framerStep, if_neg (not_not.2 (printable_start hs)), if_pos rfl]

theorem framerStep_char (hst : F.st = .body) {b : Byte} (hb : FieldChar F.start b) :
    framerStep F b = (framerStore F b, false) := by
  obtain ⟨hlo, hhi, hcomma, hstar, hstart⟩ := hb
  have hp : printable b = true := decide_eq_true ⟨hlo, hhi⟩
  rw [framerStep, if_neg (not_not.2 hp), if_neg hstart, hst]
  exact (if_neg hcomma).trans (if_neg hstar)

theorem framerStep_comma (hst : F.st = .body) (hs : F.start ≠ 0x2C) :
    framerStep F 0x2C = (framerComma F, false) := by
  rw [framerStep, if_neg (by decide), if_neg hs.symm, hst]
  exact if_pos rfl

theorem framerStep_star (hst : F.st = .body) (hs : F.start ≠ 0x2A) :
    framerStep F 0x2A = ({ F with st := .ck1 }, false) := by
  rw [framerStep, if_neg (by decide), if_neg hs.symm, hst]
  exact (if_neg (by decide)).trans (if_pos rfl)

/-- A byte that begins no sentence does nothing out of one (R111, R113). -/
theorem framerStep_idle (hst : F.st = .idle) {b : Byte} (hb : b ≠ F.start) :
    framerStep F b = (F, false) := by
  rw [framerStep, if_neg hb, hst]
  split
  · rw [← hst]
  · rfl

/-! The checksum digits (30_encoding.md R91). -/

theorem hexDigit_eq_hexChar (n : BitVec 4) : hexDigit n = hexChar n.toNat := by
  revert n
  decide

theorem printable_hexDigit (n : BitVec 4) : printable (hexDigit n) = true := by
  revert n
  decide

theorem hexDigit_ne_start (hs : F.start = 0x24 ∨ F.start = 0x21) (n : BitVec 4) : hexDigit n ≠ F.start := by
  have h : ∀ n : BitVec 4, hexDigit n ≠ 0x24 ∧ hexDigit n ≠ 0x21 := by decide
  rcases hs with hs | hs <;> rw [hs]
  · exact (h n).1
  · exact (h n).2

theorem hexHi_xorOf (bs : List Byte) : hexHi (xorOf bs) = check1 bs := by
  have hlt := (xorOf bs).isLt
  rw [hexHi, hexDigit_eq_hexChar, check1, BitVec.extractLsb'_toNat, Nat.shiftRight_eq_div_pow]
  exact congrArg hexChar (Nat.mod_eq_of_lt (by omega))

theorem hexLo_xorOf (bs : List Byte) : hexLo (xorOf bs) = check0 bs := by
  rw [hexLo, hexDigit_eq_hexChar, check0, BitVec.extractLsb'_toNat, Nat.shiftRight_zero]

/-- Any byte but a start character in the place of the first digit (R111, R117). -/
theorem framerStep_ck1 (hst : F.st = .ck1) {b : Byte} (hb : b ≠ F.start) :
    framerStep F b = ({ F with st := if b = hexHi F.cs then .ck2 else .idle }, false) := by
  rw [framerStep, if_neg hb, hst]
  split
  next hp =>
    have hne : b ≠ hexHi F.cs := fun h => hp (h ▸ printable_hexDigit _)
    rw [if_neg hne]
  next => rfl

/-- Any byte but a start character in the place of the second digit (R111, R118). -/
theorem framerStep_ck2 (hst : F.st = .ck2) {b : Byte} (hb : b ≠ F.start) :
    framerStep F b = ({ F with st := .idle }, decide (b = hexLo F.cs)) := by
  rw [framerStep, if_neg hb, hst]
  split
  next hp =>
    have hne : b ≠ hexLo F.cs := fun h => hp (h ▸ printable_hexDigit _)
    rw [decide_eq_false hne]
  next => rfl

end

/-! ### The body of a sentence -/

/-- The framer is in the body of a sentence and has read the fields `fs` since its start character. -/
structure InBody (F : Framer) (fs : List (List Byte)) : Prop extends SentenceRead F fs where
  st : F.st = .body
  runs : F.TableRuns

theorem inBody_open {F : Framer} (hs : F.start = 0x24 ∨ F.start = 0x21) : InBody (framerOpen F) [[]] :=
  ⟨sentenceRead_open hs, rfl, framerOpen_tableRuns F⟩

/-- The fields read are the ones the field table gives, and no others. -/
theorem hasFields_unique {F : Framer} {fs gs : List (List Byte)} (hf : HasFields F fs) (hg : HasFields F gs) :
    fs = gs := by
  have hlen : fs.length = gs.length := hf.1.symm.trans hg.1
  refine List.ext_getElem? fun i => ?_
  rcases Nat.lt_or_ge i fs.length with hi | hi
  · rw [← hf.2 i hi, ← hg.2 i (hlen ▸ hi)]
  · rw [List.getElem?_eq_none hi, List.getElem?_eq_none (hlen ▸ hi)]

section

variable {F : Framer}

/-- With room for it a comma keeps the field table running forward, whatever lies beyond the table's end. -/
theorem Framer.TableRuns.comma_room (h : F.TableRuns) (hpos : 1 ≤ F.nf.toNat) (hroom : F.nf.toNat < 32) :
    (framerComma F).TableRuns := by
  have hsucc := toNat_succ F.nf (by omega)
  have hget (i : Nat) :
      bufGet (framerComma F).fstart i = if i = F.nf.toNat then F.nc else bufGet F.fstart i := by
    rw [framerComma_room hroom, bufGet_bufWrite_one]
  have hnf : (framerComma F).nf.toNat = F.nf.toNat + 1 := by rw [framerComma_room hroom, hsucc]
  have hnc : (framerComma F).nc = F.nc := by rw [framerComma_room hroom]
  refine ⟨.inl ?_, fun i hi => ?_, fun i hi => ?_⟩
  · rw [hget, if_neg (by omega)]
    exact h.first.resolve_right (fun h0 => by simp [h0] at hpos)
  · rw [hget, hget, if_neg (by omega)]
    split
    next hlast => exact h.last i hlast
    next => exact h.rises i (by omega)
  · rw [hget, if_pos (by omega), hnc]

/-- A character is one more of the last field read (R116). -/
theorem hasFields_store {init : List (List Byte)} {f : List Byte} (h : HasFields F (init ++ [f]))
    (hT : F.TableRuns) (hroom : F.nc.toNat < 512) (b : Byte) :
    HasFields (framerStore F b) (init ++ [f ++ [b]]) := by
  obtain ⟨hnf, hfield⟩ := h
  simp only [List.length_append, List.length_singleton] at hnf hfield
  refine ⟨by rw [framerStore_room hroom]; simpa using hnf, fun i hi => ?_⟩
  rw [List.length_append, List.length_singleton] at hi
  have hfi := hfield i hi
  rw [fieldBytes_store hT hroom b (by omega)]
  rcases Nat.lt_or_eq_of_le (Nat.le_of_lt_succ hi) with hin | rfl
  · rw [if_pos (by omega), hfi, List.getElem?_append_left hin, List.getElem?_append_left hin]
  · rw [if_neg (by omega)]
    simpa using hfi

/-- A comma with room for it opens one more field, empty (R114). -/
theorem InBody.comma {fs : List (List Byte)} (h : InBody F fs) (hroom : F.nf.toNat < 32) :
    InBody (framerComma F) (fs ++ [[]]) := by
  have hst : (framerComma F).st = .body := by rw [framerComma_room hroom]; exact h.st
  have hpos : 1 ≤ F.nf.toNat := h.fields.1 ▸ h.valid.some_field
  exact ⟨h.toSentenceRead.comma.resolve_left (by simp [hst]), hst, h.runs.comma_room hpos hroom⟩

/-- A field character with room for it is one more of the last field (R116). -/
theorem InBody.store {init : List (List Byte)} {f : List Byte} (h : InBody F (init ++ [f]))
    (hroom : F.nc.toNat < 512) {b : Byte} (hb : FieldChar F.start b) :
    InBody (framerStore F b) (init ++ [f ++ [b]]) := by
  have hstore := framerStore_room (b := b) hroom
  have hst : (framerStore F b).st = .body := by rw [hstore]; exact h.st
  obtain ⟨gs, hgs⟩ := (h.toSentenceRead.store h.runs hb).resolve_left (by simp [hst])
  obtain rfl := hasFields_unique hgs.fields (hasFields_store h.fields h.runs hroom b)
  refine ⟨hgs, hst, h.runs.congr ?_ ?_ ?_⟩ <;> rw [hstore]
  rw [toNat_succ F.nc (by omega)]
  exact Nat.le_succ _

end

/-! ### Strings read -/

/-- The framer after the bytes of a string, if none of them completes a sentence (R120). -/
def framerPass : Framer → List Byte → Option Framer
  | F, [] => some F
  | F, b :: bs => if (framerStep F b).2 then none else framerPass (framerStep F b).1 bs

theorem framerPass_cons {F G : Framer} {b : Byte} (h : framerStep F b = (G, false)) (bs : List Byte) :
    framerPass F (b :: bs) = framerPass G bs := by
  simp [framerPass, h]

theorem framerPass_append (F : Framer) (x y : List Byte) :
    framerPass F (x ++ y) = (framerPass F x).bind (framerPass · y) := by
  induction x generalizing F with
  | nil => rfl
  | cons b t ih =>
    rw [List.cons_append, framerPass, framerPass]
    split
    · rfl
    · exact ih _

theorem framerPass_append_of {F G : Framer} {x : List Byte} (h : framerPass F x = some G) (y : List Byte) :
    framerPass F (x ++ y) = framerPass G y := by
  rw [framerPass_append, h, Option.bind_some]

/-- The bytes of a string leave the start character, the buffer length and the validity flag. -/
theorem framerPass_keeps {F G : Framer} {bs : List Byte} (h : framerPass F bs = some G) :
    G.start = F.start ∧ G.len = F.len ∧ G.valid = F.valid := by
  induction bs generalizing F with
  | nil =>
    obtain rfl := Option.some.inj h
    exact ⟨rfl, rfl, rfl⟩
  | cons b t ih =>
    obtain ⟨hs, -, hl, hv⟩ := framerStep_keeps F b
    rw [framerPass] at h
    split at h
    · exact absurd h (Option.some_ne_none G).symm
    · rw [← hs, ← hl, ← hv]
      exact ih h

/-- Bytes that begin no sentence leave the framer in IDLE (R111, R113). -/
theorem framerPass_gap {F : Framer} (hst : F.st = .idle) {gap : List Byte} (h : F.start ∉ gap) :
    framerPass F gap = some F := by
  induction gap with
  | nil => rfl
  | cons b t ih =>
    obtain ⟨hb, ht⟩ := not_or.1 (List.mem_cons.not.1 h)
    rw [framerPass_cons (framerStep_idle hst (Ne.symm hb)), ih ht]

/-! The body of a valid sentence, field by field and each field byte by byte. -/

theorem validFields_left {c : Byte} {fs gs : List (List Byte)} (h : ValidFields c (fs ++ gs))
    (hne : 1 ≤ fs.length) : ValidFields c fs := by
  obtain ⟨hs, -, hlen, hchars, hok⟩ := h
  simp only [List.length_append, List.map_append, List.sum_append] at hlen hchars
  exact ⟨hs, hne, by omega, by omega, fun f hf => hok f (List.mem_append_left gs hf)⟩

theorem framerPass_field {F : Framer} {init : List (List Byte)} {f t : List Byte} (h : InBody F (init ++ [f]))
    (hv : ValidFields F.start (init ++ [f ++ t])) :
    ∃ G, framerPass F t = some G ∧ InBody G (init ++ [f ++ t]) := by
  induction t generalizing F f with
  | nil => exact ⟨F, rfl, by rwa [List.append_nil]⟩
  | cons b t ih =>
    have hb : FieldChar F.start b := hv.chars_ok (f ++ b :: t) (by simp) b (by simp)
    have hroom : F.nc.toNat < 512 := by
      have hle := hv.chars_le
      have hnc := h.chars
      simp at hle hnc
      omega
    have hsplit : f ++ b :: t = f ++ [b] ++ t := by simp
    have hstart : (framerStore F b).start = F.start := by rw [framerStore_room hroom]
    obtain ⟨G, hG, hin⟩ := ih (h.store hroom hb) (by rwa [hstart, ← hsplit])
    exact ⟨G, by rw [framerPass_cons (framerStep_char h.st hb), hG], by rwa [hsplit]⟩

theorem framerPass_fields {F : Framer} {fs gs : List (List Byte)} (h : InBody F fs)
    (hv : ValidFields F.start (fs ++ gs)) :
    ∃ G, framerPass F (gs.flatMap (0x2C :: ·)) = some G ∧ InBody G (fs ++ gs) := by
  induction gs generalizing F fs with
  | nil => exact ⟨F, rfl, by rwa [List.append_nil]⟩
  | cons g gs ih =>
    have hsplit : fs ++ g :: gs = fs ++ [g] ++ gs := by simp
    have hroom : F.nf.toNat < 32 := by
      have hle := hv.fields_le
      rw [List.length_append, List.length_cons, ← h.fields.1] at hle
      omega
    have hne : F.start ≠ 0x2C := by rcases hv.start_ok with hs | hs <;> rw [hs] <;> decide
    have hstart : (framerComma F).start = F.start := by rw [framerComma_room hroom]
    rw [hsplit] at hv ⊢
    have hvg : ValidFields (framerComma F).start (fs ++ [g]) := hstart ▸ validFields_left hv (by simp)
    obtain ⟨G, hG, hin⟩ := framerPass_field (t := g) (h.comma hroom) hvg
    have hGs : G.start = F.start := (framerPass_keeps hG).1.trans hstart
    obtain ⟨H, hH, hinH⟩ := ih hin (by rwa [hGs])
    refine ⟨H, ?_, hinH⟩
    rw [List.flatMap_cons, List.cons_append, framerPass_cons (framerStep_comma h.st hne),
      framerPass_append_of hG, hH]

theorem body_cons (f : List Byte) (gs : List (List Byte)) :
    body (f :: gs) = f ++ gs.flatMap (0x2C :: ·) := by
  induction gs generalizing f with
  | nil => simp [body, List.intercalate]
  | cons g gs ih =>
    have := ih g
    simp only [body, List.intercalate_cons_cons, List.flatMap_cons] at this ⊢
    rw [this]
    simp

/-- From any state the start character and the body of a valid sentence are read into its fields. -/
theorem framerPass_body {F : Framer} {fs : List (List Byte)} (hv : ValidFields F.start fs) :
    ∃ G, framerPass F (F.start :: body fs) = some G ∧ InBody G fs := by
  obtain ⟨f, gs, rfl⟩ := List.exists_cons_of_length_pos hv.some_field
  obtain ⟨G, hG, hin⟩ := framerPass_field (init := []) (f := []) (t := f) (inBody_open hv.start_ok)
    (validFields_left (fs := [f]) hv (Nat.le_refl 1))
  have hGs : G.start = F.start := (framerPass_keeps hG).1
  obtain ⟨H, hH, hinH⟩ := framerPass_fields (gs := gs) hin (by rwa [hGs])
  refine ⟨H, ?_, hinH⟩
  rw [framerPass_cons (framerStep_start hv.start_ok), body_cons, framerPass_append_of hG, hH]

end Sys2Proof.Machine
end

section
/-!
The feeds of U0 over a buffer that holds a valid sentence, or one with a wrong digit (40_nmea_framer.md R122,
R123, R132, R133).
-/

namespace Sys2Proof.Machine

open Sys2Proof.Claims

/-! ### The digits of a sentence -/

section

variable {F : Framer} {fs : List (List Byte)}

theorem check1_ne_start (hs : F.start = 0x24 ∨ F.start = 0x21) (bs : List Byte) : check1 bs ≠ F.start :=
  hexHi_xorOf bs ▸ hexDigit_ne_start hs _

theorem check0_ne_start (hs : F.start = 0x24 ∨ F.start = 0x21) (bs : List Byte) : check0 bs ≠ F.start :=
  hexLo_xorOf bs ▸ hexDigit_ne_start hs _

/-- The framer waits for the first digit of a sentence with the fields `fs`. -/
structure AtDigits (F : Framer) (fs : List (List Byte)) : Prop extends SentenceRead F fs where
  st : F.st = .ck1

/-- From any state a valid sentence is read up to its `*`. -/
theorem framerPass_star (hv : ValidFields F.start fs) :
    ∃ G, framerPass F ([F.start] ++ body fs ++ [0x2A]) = some G ∧ AtDigits G fs := by
  obtain ⟨G, hG, hin⟩ := framerPass_body hv
  have hne : G.start ≠ 0x2A := by rcases hin.valid.start_ok with hs | hs <;> rw [hs] <;> decide
  refine ⟨{ G with st := .ck1 }, ?_, hin.toSentenceRead.moved _ _ _ _, rfl⟩
  rw [List.singleton_append, framerPass_append_of hG, framerPass_cons (framerStep_star hin.st hne)]
  rfl

/-- The right first digit is followed by the second (R117). -/
theorem AtDigits.first (h : AtDigits F fs) :
    framerStep F (check1 (body fs)) = ({ F with st := .ck2 }, false) := by
  rw [framerStep_ck1 h.st (check1_ne_start h.valid.start_ok _), if_pos (by rw [h.sum, hexHi_xorOf])]

/-- Digits with a mismatch end in IDLE, at the first one that mismatches (R117, R118). -/
theorem AtDigits.mismatch (h : AtDigits F fs) {ds : List Byte} (hd : MismatchedDigits F.start (body fs) ds) :
    framerPass F ds = some { F with st := .idle } := by
  rcases hd with ⟨d, rfl, hne, hs⟩ | ⟨d, rfl, hne, hs⟩
  · rw [← hexHi_xorOf, ← h.sum] at hne
    rw [framerPass_cons (framerStep_ck1 h.st hs), if_neg hne, framerPass]
  · rw [← hexLo_xorOf, ← h.sum] at hne
    have hstep : framerStep { F with st := .ck2 } d = ({ F with st := .idle }, false) := by
      rw [framerStep_ck2 (F := { F with st := .ck2 }) rfl hs, decide_eq_false hne]
    rw [framerPass_cons h.first, framerPass_cons hstep, framerPass]

/-- From any state a valid sentence is read up to its last digit, which completes it (R118). -/
theorem framerPass_sentence (hv : ValidFields F.start fs) :
    ∃ G, framerPass F ([F.start] ++ body fs ++ [0x2A] ++ [check1 (body fs)]) = some G ∧ SentenceRead G fs ∧
      framerStep G (check0 (body fs)) = ({ G with st := .idle }, true) := by
  obtain ⟨G, hG, hat⟩ := framerPass_star hv
  refine ⟨{ G with st := .ck2 }, ?_, hat.toSentenceRead.moved _ _ _ _, ?_⟩
  · rw [framerPass_append_of hG, framerPass_cons hat.first, framerPass]
  · rw [framerStep_ck2 (F := { G with st := .ck2 }) rfl (check0_ne_start hat.valid.start_ok _)]
    exact Prod.ext rfl (decide_eq_true (by rw [hat.sum, hexLo_xorOf]))

theorem sentence_eq (c : Byte) (fs : List (List Byte)) :
    sentence c fs = [c] ++ body fs ++ [0x2A] ++ [check1 (body fs)] ++ [check0 (body fs)] := by
  simp [sentence, wire]

/-- From any state a sentence with a mismatched digit, and bytes behind it that begin no sentence, leave the
framer in IDLE (R133). -/
theorem framerPass_bad (hv : ValidFields F.start fs) {ds gap : List Byte}
    (hd : MismatchedDigits F.start (body fs) ds) (hgap : F.start ∉ gap) :
    ∃ G, framerPass F ([F.start] ++ body fs ++ [0x2A] ++ ds ++ gap) = some G ∧ G.st = .idle := by
  obtain ⟨G, hG, hat⟩ := framerPass_star hv
  obtain ⟨hs, -⟩ := framerPass_keeps hG
  rw [← hs] at hd hgap
  refine ⟨{ G with st := .idle }, ?_, rfl⟩
  rw [List.append_assoc, framerPass_append_of hG, framerPass_append_of (hat.mismatch hd),
    framerPass_gap (F := { G with st := .idle }) rfl hgap]

/-- Before the place of a digit nothing completes (R117). -/
theorem framerPass_cut (hv : ValidFields F.start fs) {ds : List Byte}
    (hd : ds = [] ∨ ds = [check1 (body fs)]) :
    ∃ G, framerPass F ([F.start] ++ body fs ++ [0x2A] ++ ds ++ []) = some G := by
  rw [List.append_nil]
  rcases hd with rfl | rfl
  · obtain ⟨G, hG, -⟩ := framerPass_star hv
    exact ⟨G, by rw [List.append_nil, hG]⟩
  · obtain ⟨G, hG, -⟩ := framerPass_sentence hv
    exact ⟨G, hG⟩

end

/-! ### The loop over a string -/

theorem ofNat_succ {w : Nat} (i : Nat) : BitVec.ofNat w i + 1 = BitVec.ofNat w (i + 1) :=
  (BitVec.ofNat_add i 1).symm

section

variable {m : Memory} {u : Nat} {F G : Framer} {bs : List Byte}

/-- The loop over a string that completes nothing goes on behind it (R120). -/
theorem framerScan_pass {i n : Nat} (hpass : framerPass F bs = some G) (hb : Holds m u i bs)
    (hi : i + bs.length < 8192) :
    framerScan m u (bs.length + n) { F with pos := BitVec.ofNat 13 i } =
      framerScan m u n { G with pos := BitVec.ofNat 13 (i + bs.length) } := by
  induction bs generalizing F i with
  | nil =>
    obtain rfl := Option.some.inj hpass
    rw [List.length_nil, Nat.zero_add, Nat.add_zero]
  | cons b t ih =>
    obtain ⟨hbyte, ht⟩ := holds_cons.1 hb
    rw [List.length_cons] at hi ⊢
    rw [framerPass] at hpass
    split at hpass
    · exact absurd hpass (Option.some_ne_none G).symm
    next hno =>
      have hstep := framerStep_pos F (BitVec.ofNat 13 (i + 1)) b
      rw [Bool.not_eq_true] at hno
      rw [hno] at hstep
      rw [Nat.add_right_comm, framerScan]
      simp only [toNat_ofNat_of_lt (show i < 2 ^ 13 by omega), hbyte, ofNat_succ, hstep]
      rw [ih hpass ht (by omega), Nat.add_right_comm, Nat.add_assoc]

/-- The loop stops at the byte that completes a sentence (R120). -/
theorem framerScan_complete {H : Framer} {b : Byte} {i n : Nat} (hpass : framerPass F bs = some G)
    (hstep : framerStep G b = (H, true)) (hb : Holds m u i (bs ++ [b])) (hi : i + bs.length < 8192) :
    framerScan m u (bs.length + (n + 1)) { F with pos := BitVec.ofNat 13 i } =
      .ok ({ H with pos := BitVec.ofNat 13 (i + bs.length + 1), valid := true }, true) := by
  obtain ⟨hbs, hlast⟩ := holds_append.1 hb
  have hpos := framerStep_pos G (BitVec.ofNat 13 (i + bs.length + 1)) b
  rw [hstep] at hpos
  rw [framerScan_pass hpass hbs hi, framerScan]
  simp only [toNat_ofNat_of_lt (show i + bs.length < 2 ^ 13 by omega), holds_singleton.1 hlast, ofNat_succ,
    hpos]

/-- A run over a buffer's rest that completes nothing (R120). -/
theorem framerRun_pass (hpass : framerPass { F with valid := false } bs = some G)
    (hb : Holds m u F.pos.toNat bs) (hlen : F.pos.toNat + bs.length = F.len.toNat) :
    framerRun m u F = .ok ({ G with pos := F.len }, false) := by
  have hscan := framerScan_pass (n := 0) hpass hb (hlen ▸ F.len.isLt)
  rw [hlen, Nat.add_zero, BitVec.ofNat_toNat, BitVec.ofNat_toNat, BitVec.setWidth_eq,
    BitVec.setWidth_eq] at hscan
  rw [framerRun, show F.len.toNat - F.pos.toNat = bs.length by omega]
  exact hscan

/-- A run over a string whose last byte completes a sentence (R120). -/
theorem framerRun_complete {H : Framer} {b : Byte} (hpass : framerPass { F with valid := false } bs = some G)
    (hstep : framerStep G b = (H, true)) (hb : Holds m u F.pos.toNat (bs ++ [b]))
    (hlen : F.pos.toNat + bs.length + 1 ≤ F.len.toNat) :
    framerRun m u F =
      .ok ({ H with pos := BitVec.ofNat 13 (F.pos.toNat + bs.length + 1), valid := true }, true) := by
  have hlt := F.len.isLt
  obtain ⟨n, hn⟩ : ∃ n, F.len.toNat - F.pos.toNat = bs.length + (n + 1) :=
    ⟨F.len.toNat - F.pos.toNat - bs.length - 1, by omega⟩
  have hscan := framerScan_complete (n := n) hpass hstep hb (by omega)
  rw [BitVec.ofNat_toNat, BitVec.setWidth_eq] at hscan
  rw [framerRun, hn]
  exact hscan

/-- Behind a string that completes nothing, a run completes exactly the valid sentence that stands there
(R132). -/
theorem framerRun_sentence {pre : List Byte} {fs : List (List Byte)} {e : Nat}
    (hpass : framerPass { F with valid := false } pre = some G) (hv : ValidFields F.start fs)
    (hb : Holds m u F.pos.toNat (pre ++ sentence F.start fs))
    (he : F.pos.toNat + (pre ++ sentence F.start fs).length = e) (hle : e ≤ F.len.toNat) :
    ∃ F', framerRun m u F = .ok (F', true) ∧ F'.valid = true ∧ F'.pos.toNat = e ∧ HasFields F' fs := by
  have hlt := F.len.isLt
  have hs : G.start = F.start := (framerPass_keeps hpass).1
  rw [← hs] at hv hb he
  obtain ⟨H, hH, hread, hlast⟩ := framerPass_sentence hv
  rw [sentence_eq, ← List.append_assoc] at hb he
  rw [List.length_append, List.length_singleton, ← Nat.add_assoc] at he
  subst he
  exact ⟨_, framerRun_complete ((framerPass_append_of hpass _).trans hH) hlast hb hle, rfl,
    toNat_ofNat_of_lt (by omega), (hread.moved .idle true _ H.len).fields⟩

end

/-! ### The feeds -/

section

variable {s : State} {w : Word} {G H : Framer}

theorem feedU0_of_run {F : Framer} {r : Bool} (h : framerRun s.mem 0 G = .ok (F, r)) :
    feedU0 w G s = .next { s with
      f0 := F, res := { s.res with r0 := F.pos.setWidth 32 }, status := ⟨.ok, r, false⟩ } := by
  rw [feedU0, h]
  rfl

/-- A feed completes the valid sentence behind a string that completes nothing. -/
theorem feedU0_sentence {pre : List Byte} {fs : List (List Byte)} {e : Nat}
    (hpass : framerPass { G with valid := false } pre = some H) (hv : ValidFields G.start fs)
    (hb : Holds s.mem 0 G.pos.toNat (pre ++ sentence G.start fs))
    (he : G.pos.toNat + (pre ++ sentence G.start fs).length = e) (hle : e ≤ G.len.toNat) :
    ∃ F, feedU0 w G s = .next { s with
        f0 := F, res := { s.res with r0 := BitVec.ofNat 32 e }, status := ⟨.ok, true, false⟩ } ∧
      F.valid = true ∧ F.pos.toNat = e ∧ HasFields F fs := by
  obtain ⟨F, hrun, hvalid, hpos, hf⟩ := framerRun_sentence hpass hv hb he hle
  refine ⟨F, ?_, hvalid, hpos, hf⟩
  rw [feedU0_of_run hrun, ← BitVec.ofNat_toNat, hpos]

/-- A feed of a string that completes nothing reads it to its end. -/
theorem feedU0_pass {bs : List Byte} (hpass : framerPass { G with valid := false } bs = some H)
    (hb : Holds s.mem 0 G.pos.toNat bs) (hlen : G.pos.toNat + bs.length = G.len.toNat) :
    ∃ F, feedU0 w G s = .next { s with
        f0 := F, res := { s.res with r0 := G.len.setWidth 32 }, status := ⟨.ok, false, false⟩ } ∧
      F.valid = false ∧ F.st = H.st ∧ F.pos = G.len ∧ F.len = G.len := by
  obtain ⟨-, hl, hv⟩ := framerPass_keeps hpass
  exact ⟨_, feedU0_of_run (framerRun_pass hpass hb hlen), hv, rfl, rfl, hl⟩

section

variable {fs gs : List (List Byte)} {ds gap : List Byte} (hv : ValidFields G.start fs)
include hv

/-- A feed of a sentence with a mismatched digit, and of bytes behind it that begin none, ends in IDLE. -/
theorem feedU0_bad (hd : MismatchedDigits G.start (body fs) ds) (hgap : G.start ∉ gap)
    (hb : Holds s.mem 0 G.pos.toNat ([G.start] ++ body fs ++ [0x2A] ++ ds ++ gap))
    (hlen : G.pos.toNat + ([G.start] ++ body fs ++ [0x2A] ++ ds ++ gap).length = G.len.toNat) :
    ∃ F, feedU0 w G s = .next { s with
        f0 := F, res := { s.res with r0 := G.len.setWidth 32 }, status := ⟨.ok, false, false⟩ } ∧
      F.valid = false ∧ F.st = .idle ∧ F.pos = G.len ∧ F.len = G.len := by
  obtain ⟨H, hH, hst⟩ := framerPass_bad (F := { G with valid := false }) hv hd hgap
  obtain ⟨F, hF, hvalid, hidle, hrest⟩ := feedU0_pass hH hb hlen
  exact ⟨F, hF, hvalid, hidle.trans hst, hrest⟩

/-- Behind a bad sentence, or one cut by a start character, a feed completes the next one. -/
theorem feedU0_resumes {e : Nat} (hgs : ValidFields G.start gs)
    (hds : (MismatchedDigits G.start (body fs) ds ∧ G.start ∉ gap) ∨
      ((ds = [] ∨ ds = [check1 (body fs)]) ∧ gap = []))
    (hb : Holds s.mem 0 G.pos.toNat
      ([G.start] ++ body fs ++ [0x2A] ++ ds ++ gap ++ sentence G.start gs))
    (he : G.pos.toNat + ([G.start] ++ body fs ++ [0x2A] ++ ds ++ gap ++ sentence G.start gs).length = e)
    (hle : e ≤ G.len.toNat) :
    ∃ F, feedU0 w G s = .next { s with
        f0 := F, res := { s.res with r0 := BitVec.ofNat 32 e }, status := ⟨.ok, true, false⟩ } ∧
      F.valid = true ∧ F.pos.toNat = e ∧ HasFields F gs := by
  have hpass : ∃ H,
      framerPass { G with valid := false } ([G.start] ++ body fs ++ [0x2A] ++ ds ++ gap) = some H := by
    rcases hds with ⟨hd, hgap⟩ | ⟨hd, rfl⟩
    · exact (framerPass_bad (F := { G with valid := false }) hv hd hgap).imp fun _ h => h.1
    · exact framerPass_cut (F := { G with valid := false }) hv hd
  obtain ⟨H, hH⟩ := hpass
  exact feedU0_sentence hH hgs hb he hle

end

/-! NMEA.FEEDN is the feed from a new buffer (R122). -/

variable {len : Half} (hlen : len.toNat ≤ 4096)
include hlen

theorem execNmeaFeedn_ok (ua : Byte) (s : State) :
    execNmeaFeedn ua len s =
      feedU0 (encode (.nmeaFeedn ua len)) (framerNewBuffer s.f0 len Config.nmeaResetOnNewBuffer) s :=
  if_neg (Nat.not_lt.2 hlen)

theorem newBuffer_len (F : Framer) (r : Bool) : (framerNewBuffer F len r).len.toNat = len.toNat := by
  rw [framerNewBuffer, BitVec.toNat_setWidth, Nat.mod_eq_of_lt (by omega)]

end

end Sys2Proof.Machine

namespace Sys2Proof.Proofs

open Sys2Proof.Machine Sys2Proof.Claims

/-- Settles O17: the sentence is read from whatever state the feed starts in. -/
theorem validSentenceCompletes : Obligations.ValidSentenceCompletes := by
  unfold Obligations.ValidSentenceCompletes
  intro s ua ub len fs hv n
  refine ⟨fun hb hle => feedU0_sentence (pre := []) rfl hv hb rfl hle, fun hb hle hlen => ?_⟩
  rw [exec_nmeaFeedn, execNmeaFeedn_ok hlen]
  exact feedU0_sentence (pre := []) rfl hv hb (Nat.zero_add n) (by rwa [newBuffer_len hlen])

/-- Settles O18: the bad sentence is a string that completes nothing, and leaves IDLE where a digit
mismatches. -/
theorem badChecksumResumes : Obligations.BadChecksumResumes := by
  unfold Obligations.BadChecksumResumes
  intro s ua ub len fs ds gap c bad p hv
  refine ⟨fun hd hgap => ⟨fun hb hle => ?_, fun hb hle hlen => ?_⟩,
    fun gs hgs hds => ⟨fun hb hle => ?_, fun hb hle hlen => ?_⟩⟩
  · obtain ⟨F, hF, hvalid, hst, hpos, -⟩ := feedU0_bad hv hd hgap hb hle
    exact ⟨F, hF, hvalid, hst, hpos⟩
  · have hG := newBuffer_len hlen s.f0 Config.nmeaResetOnNewBuffer
    obtain ⟨F, hF, hvalid, hst, hpos, hl⟩ :=
      feedU0_bad (s := s) (w := encode (.nmeaFeedn ua len))
        (G := framerNewBuffer s.f0 len Config.nmeaResetOnNewBuffer) hv hd hgap hb
        ((Nat.zero_add _).trans (hle.trans hG.symm))
    refine ⟨F, ?_, hvalid, hst, hpos.trans hl.symm⟩
    rw [exec_nmeaFeedn, execNmeaFeedn_ok hlen, hF, ← BitVec.ofNat_toNat, hG, BitVec.ofNat_toNat]
  · exact feedU0_resumes hv hgs hds hb rfl hle
  · rw [exec_nmeaFeedn, execNmeaFeedn_ok hlen]
    exact feedU0_resumes (G := framerNewBuffer s.f0 len Config.nmeaResetOnNewBuffer) hv hgs hds hb
      (Nat.zero_add _) (by rwa [newBuffer_len hlen])

end Sys2Proof.Proofs
end

section
/-!
The feeds of U0 over written bytes, and over a buffer with an unwritten one (40_nmea_framer.md R120, R122,
R123): the loop reads bytes in order, so up to an unwritten byte it does what it does over a buffer that ends
there.
-/

namespace Sys2Proof.Machine

open Sys2Proof.Claims

section

variable {m : Memory} {u : Nat}

/-- The buffer length is nothing to the loop, which its count bounds (R120). -/
theorem framerScan_len (n : Nat) (F : Framer) (l : BitVec 13) :
    framerScan m u n { F with len := l } =
      (framerScan m u n F).map fun x => ({ x.1 with len := l }, x.2) := by
  induction n generalizing F with
  | zero => rfl
  | succ n ih =>
    have hstep := framerStep_placed F (F.pos + 1) l
    have hpos := framerStep_pos F (F.pos + 1)
    rw [framerScan, framerScan]
    rcases hb : inByte m u F.pos.toNat with _ | b
    · rfl
    · simp only [hstep, hpos]
      rcases (framerStep F b).2 with _ | _
      · exact ih { (framerStep F b).1 with pos := F.pos + 1 }
      · rfl

/-- The loop over `n + j` bytes is the loop over `n`, and over `j` more if that completes nothing (R120). -/
theorem framerScan_add (n j : Nat) (F : Framer) :
    framerScan m u (n + j) F =
      (framerScan m u n F).bind fun x => if x.2 then .ok x else framerScan m u j x.1 := by
  induction n generalizing F with
  | zero => rw [Nat.zero_add]; rfl
  | succ n ih =>
    rw [Nat.add_right_comm, framerScan, framerScan]
    rcases hb : inByte m u F.pos.toNat with _ | b
    · rfl
    · rcases hs : framerStep { F with pos := F.pos + 1 } b with ⟨G, _ | _⟩
      · simp only [hs]
        exact ih G
      · simp only [hs]
        rfl

/-- A run up to its first unwritten byte `k` is the run over a buffer of `k` bytes, if that completes a
sentence; if not, it meets `k` (R120). -/
theorem framerRun_firstUnwritten {F : Framer} {k : Nat}
    (hk : FirstUnwritten m u F.pos.toNat F.len.toNat k) :
    ∃ G r, framerRun m u { F with len := BitVec.ofNat 13 k } = .ok (G, r) ∧
      framerRun m u F = if r then .ok ({ G with len := F.len }, true) else .error k := by
  obtain ⟨hlo, hhi, hnone, hwritten⟩ := hk
  have hlt := F.len.isLt
  have hcut : (BitVec.ofNat 13 k).toNat = k := toNat_ofNat_of_lt (by omega)
  have hle : F.pos.toNat ≤ (BitVec.ofNat 13 k).toNat := hcut.symm ▸ hlo
  obtain ⟨G, r, hrun⟩ := framerRun_of_written (F := { F with len := BitVec.ofNat 13 k }) hle
    (by rw [hcut]; exact hwritten)
  have hspec := framerRun_spec m u { F with len := BitVec.ofNat 13 k } hle
  rw [hrun] at hspec
  obtain ⟨-, -, -, -, -, hend, -⟩ := hspec
  refine ⟨G, r, hrun, ?_⟩
  obtain ⟨j, hj⟩ : ∃ j, F.len.toNat - F.pos.toNat = k - F.pos.toNat + (j + 1) :=
    ⟨F.len.toNat - k - 1, by omega⟩
  have hscan : framerScan m u (k - F.pos.toNat) { F with valid := false } =
      .ok ({ G with len := F.len }, r) := by
    have h := framerScan_len (m := m) (u := u) (k - F.pos.toNat)
      { F with valid := false, len := BitVec.ofNat 13 k } F.len
    rw [framerRun, hcut] at hrun
    rw [hrun] at h
    exact h
  rw [framerRun, hj, framerScan_add, hscan]
  cases r with
  | true => rfl
  | false =>
    have hpos : G.pos.toNat = k := by rw [hend rfl, hcut]
    show framerScan m u (j + 1) { G with len := F.len } = .error k
    rw [framerScan]
    simp only [hpos, hnone]

end

section

variable {s : State} {w : Word} {F : Framer}

/-- A feed over written bytes completes (R120, R122). -/
theorem feedU0_written (hp : F.pos.toNat ≤ F.len.toNat) (hw : Written s.mem 0 F.pos.toNat F.len.toNat) :
    ∃ G r, feedU0 w F s = .next { s with
        f0 := G, res := { s.res with r0 := G.pos.setWidth 32 }, status := ⟨.ok, r, false⟩ } ∧
      G.valid = r ∧ G.start = F.start ∧ G.len = F.len ∧ F.pos.toNat ≤ G.pos.toNat ∧
      G.pos.toNat ≤ G.len.toNat ∧ (r = false → G.pos = G.len) ∧
      (r = true → G.st = .idle ∧ F.pos.toNat < G.pos.toNat) := by
  obtain ⟨G, r, hrun⟩ := framerRun_of_written hp hw
  have hspec := framerRun_spec s.mem 0 F hp
  rw [hrun] at hspec
  obtain ⟨hstart, hlen, hvalid, hge, hle, hend, hfound, -⟩ := hspec
  exact ⟨G, r, feedU0_of_run hrun, hvalid, hstart, hlen, hge, hlen ▸ hle, hlen ▸ hend,
    fun h => (hfound h).symm⟩

/-- A feed up to its first unwritten byte `k` is the feed of a buffer of `k` bytes, if that completes a
sentence; if not, it is a model fault at `k` (R120, R122). -/
theorem feedU0_firstUnwritten {k : Nat} {w' : Word} {F' : Framer} {t : State}
    (hk : FirstUnwritten s.mem 0 F.pos.toNat F.len.toNat k)
    (ht : feedU0 w' { F with len := BitVec.ofNat 13 k } { s with f0 := F' } = .next t) :
    feedU0 w F s =
      if t.status.res then .next { t with f0 := { t.f0 with len := F.len } }
      else .next { s with faultMark := some (.unwrittenInput w k) } := by
  obtain ⟨G, r, hcut, hrun⟩ := framerRun_firstUnwritten hk
  rw [feedU0_of_run (s := { s with f0 := F' }) hcut] at ht
  obtain rfl := Host.Outcome.next.inj ht
  cases r with
  | true => exact feedU0_of_run hrun
  | false =>
    rw [feedU0, hrun]
    rfl

end

end Sys2Proof.Machine

namespace Sys2Proof.Proofs

open Sys2Proof.Machine Sys2Proof.Claims

/-- Settles O16: both feeds are one run, from a new buffer and from the position in the old one. -/
theorem nmeaFeedsComplete : Obligations.NmeaFeedsComplete := by
  unfold Obligations.NmeaFeedsComplete
  intro s ua ub len
  refine ⟨fun hlen hw => ?_, fun hp hw => feedU0_written hp hw, ?_, fun hlen => if_pos hlen,
    fun k t hlen hk ht => ?_, fun k t hk ht => ?_⟩
  · have hG := newBuffer_len hlen s.f0 Config.nmeaResetOnNewBuffer
    obtain ⟨F, r, hF, hvalid, hstart, hl, -, hle, hend, hfound⟩ :=
      feedU0_written (s := s) (w := encode (.nmeaFeedn ua len))
        (F := framerNewBuffer s.f0 len Config.nmeaResetOnNewBuffer) (Nat.zero_le _) (by rwa [hG])
    refine ⟨F, r, ?_, hvalid, hstart, by rw [hl, hG], hle, hend, hfound⟩
    rw [exec_nmeaFeedn, execNmeaFeedn_ok hlen, hF]
  · rfl
  · have hlt : k < len.toNat := hk.2.1
    have hk16 : (BitVec.ofNat 16 k).toNat = k := toNat_ofNat_of_lt (by omega)
    have hk13 : (BitVec.ofNat 16 k).setWidth 13 = BitVec.ofNat 13 k :=
      BitVec.setWidth_ofNat_of_le (by decide) k
    rw [exec_nmeaFeedn, execNmeaFeedn_ok (by omega), framerNewBuffer, hk13] at ht
    rw [exec_nmeaFeedn, execNmeaFeedn_ok hlen]
    refine feedU0_firstUnwritten (F := framerNewBuffer s.f0 len Config.nmeaResetOnNewBuffer)
      (F' := s.f0) ?_ ht
    rw [newBuffer_len hlen]
    exact hk
  · exact feedU0_firstUnwritten hk ht

end Sys2Proof.Proofs
end

section
/-!
What a run completes is a valid sentence, and what it carries over is the beginning of one (40_nmea_framer.md
R120, R131): at every byte the framer carries a string whose last bytes are the ones just read.
-/

namespace Sys2Proof.Machine

open Sys2Proof.Claims

/-! ### What the framer carries, byte by byte -/

/-- The framer carries `w`, in a field table that runs forward. -/
structure Carries (F : Framer) (w : List Byte) : Prop where
  runs : F.TableRuns
  carried : Carried F w

/-- What is carried after a byte: nothing, that byte alone, or what was carried and that byte. -/
def Grows (w : List Byte) (b : Byte) (w' : List Byte) : Prop := w' = [] ∨ w' = [b] ∨ w' = w ++ [b]

/-- What the framer has read of a sentence behind its body: nothing, the `*`, or that and the first digit
(R115, R117). -/
def behindBody : FramerSt → List (List Byte) → List Byte
  | .idle, _ => []
  | .body, _ => []
  | .ck1, _ => [0x2A]
  | .ck2, fs => [0x2A, check1 (body fs)]

section

variable {F : Framer} {fs : List (List Byte)} {w : List Byte}

theorem carries_idle (hT : F.TableRuns) : Carries { F with st := .idle } [] :=
  ⟨hT.congr rfl rfl (Nat.le_refl _), .inl ⟨rfl, rfl⟩⟩

/-- Where the framer stands in its buffer, and its validity flag, are nothing to what it carries. -/
theorem Carries.placed (h : Carries F w) (v : Bool) (p : BitVec 13) :
    Carries { F with valid := v, pos := p } w :=
  ⟨h.runs.congr rfl rfl (Nat.le_refl _), h.carried⟩

/-- Out of IDLE the framer carries the fields of a valid sentence, and what it has read behind them. -/
theorem Carries.read (h : Carries F w) (hst : F.st ≠ .idle) :
    ∃ fs, SentenceRead F fs ∧ w = [F.start] ++ body fs ++ behindBody F.st fs := by
  rcases h.carried with ⟨hi, -⟩ | ⟨fs, hv, hf, hn, hc, ⟨hs, rfl⟩ | ⟨hs, rfl⟩ | ⟨hs, rfl⟩⟩
  case inl => exact absurd hi hst
  all_goals exact ⟨fs, ⟨hv, hf, hn, hc⟩, by rw [hs]; simp [behindBody]⟩

theorem SentenceRead.carries (h : SentenceRead F fs) (hT : F.TableRuns) (hst : F.st ≠ .idle) :
    Carries F ([F.start] ++ body fs ++ behindBody F.st fs) := by
  refine ⟨hT, .inr ⟨fs, h.valid, h.fields, h.chars, h.sum, ?_⟩⟩
  rcases hs : F.st with _ | _ | _ | _
  · exact absurd hs hst
  · exact .inl ⟨rfl, List.append_nil _⟩
  · exact .inr (.inl ⟨rfl, rfl⟩)
  · exact .inr (.inr ⟨rfl, rfl⟩)

theorem InBody.carries (h : InBody F fs) : Carries F ([F.start] ++ body fs) := by
  have hF := h.toSentenceRead.carries h.runs (by simp [h.st])
  rwa [h.st, behindBody, List.append_nil] at hF

theorem Carries.inBody (h : Carries F w) (hst : F.st = .body) :
    ∃ fs, InBody F fs ∧ w = [F.start] ++ body fs := by
  obtain ⟨fs, hread, rfl⟩ := h.read (by simp [hst])
  rw [hst, behindBody, List.append_nil]
  exact ⟨fs, ⟨hread, hst, h.runs⟩, rfl⟩

/-- The sentence goes on behind its body (R115, R117). -/
theorem SentenceRead.carries_behind (h : SentenceRead F fs) (hT : F.TableRuns) {st : FramerSt}
    (hst : st ≠ .idle) : Carries { F with st := st } ([F.start] ++ body fs ++ behindBody st fs) :=
  (h.moved st F.valid F.pos F.len).carries (hT.congr rfl rfl (Nat.le_refl _)) hst

/-- A comma carries on with one more field, or ends in IDLE with the fields used up (R114). -/
theorem Carries.comma (h : Carries F w) (hst : F.st = .body) :
    ∃ w', Grows w 0x2C w' ∧ Carries (framerComma F) w' := by
  obtain ⟨fs, hin, rfl⟩ := h.inBody hst
  rcases Nat.lt_or_eq_of_le (hin.fields.1 ▸ hin.valid.fields_le : F.nf.toNat ≤ 32) with hroom | hfull
  · have hnext := (hin.comma hroom).carries
    rw [body_concat (List.ne_nil_of_length_pos hin.valid.some_field), framerComma_room hroom] at hnext
    exact ⟨_, .inr (.inr (List.append_assoc ..).symm), framerComma_room hroom ▸ hnext⟩
  · exact ⟨[], .inl rfl, framerComma_full hfull ▸ carries_idle h.runs⟩

/-- A field character carries on with the last field, or ends in IDLE with the characters used up (R116). -/
theorem Carries.store (h : Carries F w) (hst : F.st = .body) {b : Byte} (hb : FieldChar F.start b) :
    ∃ w', Grows w b w' ∧ Carries (framerStore F b) w' := by
  obtain ⟨fs, hin, rfl⟩ := h.inBody hst
  rcases Nat.lt_or_eq_of_le (hin.chars ▸ hin.valid.chars_le : F.nc.toNat ≤ 512) with hroom | hfull
  · obtain rfl | ⟨init, f, rfl⟩ := List.eq_nil_or_concat' fs
    · exact absurd hin.valid.some_field (by simp)
    have hnext := (hin.store hroom hb).carries
    rw [body_push, framerStore_room hroom] at hnext
    exact ⟨_, .inr (.inr (List.append_assoc ..).symm), framerStore_room hroom ▸ hnext⟩
  · exact ⟨[], .inl rfl, framerStore_full hfull ▸ carries_idle h.runs⟩

/-- After any byte the framer carries nothing, that byte alone, or what it carried and that byte (R110 to
R118). -/
theorem Carries.step (h : Carries F w) (hs : F.start = 0x24 ∨ F.start = 0x21) (b : Byte) :
    ∃ w', Grows w b w' ∧ Carries (framerStep F b).1 w' := by
  rcases framerStep_cases F b with ⟨-, e⟩ | ⟨-, rfl, e⟩ | ⟨-, -, hst, e⟩ | ⟨-, -, hst, rfl, e⟩ |
    ⟨-, -, hst, rfl, e⟩ | ⟨hp, hne, hst, hcomma, hstar, e⟩ | ⟨-, -, hst, e⟩ | ⟨-, -, -, e⟩ <;> rw [e]
  · exact ⟨[], .inl rfl, carries_idle h.runs⟩
  · exact ⟨_, .inr (.inl rfl), (inBody_open hs).carries⟩
  · exact ⟨[], .inl rfl, h.runs, .inl ⟨hst, rfl⟩⟩
  · exact h.comma hst
  · obtain ⟨fs, hin, rfl⟩ := h.inBody hst
    exact ⟨_, .inr (.inr rfl), hin.carries_behind h.runs (st := .ck1) (by decide)⟩
  · exact h.store hst (fieldChar_of_printable hp hne hcomma hstar)
  · obtain ⟨fs, hread, rfl⟩ := h.read (by simp [hst])
    by_cases hb : b = hexHi F.cs
    · rw [if_pos hb, hb, hread.sum, hexHi_xorOf, ← hread.sum]
      exact ⟨_, .inr (.inr (by simp [hst, behindBody])), hread.carries_behind h.runs (st := .ck2) (by decide)⟩
    · rw [if_neg hb]
      exact ⟨[], .inl rfl, carries_idle h.runs⟩
  · exact ⟨[], .inl rfl, carries_idle h.runs⟩

/-- The byte that completes a sentence is the last one of what was carried (R118). -/
theorem Carries.complete (h : Carries F w) {b : Byte} (hb : (framerStep F b).2 = true) :
    ∃ fs, SentenceRead F fs ∧ w ++ [b] = sentence F.start fs := by
  obtain ⟨hst, hlast, -⟩ := framerStep_complete hb
  obtain ⟨fs, hread, rfl⟩ := h.read (by simp [hst])
  refine ⟨fs, hread, ?_⟩
  rw [hlast, hread.sum, hexLo_xorOf, sentence_eq, hst]
  simp [behindBody]

end

/-! ### Where it stands -/

/-- The string `w` ends before index `p`: it stands in the window at or behind `p0`, or it is `w0`, which was
carried to `p0`, and the bytes from there on. -/
def Stands (m : Memory) (u p0 : Nat) (w0 : List Byte) (p : Nat) (w : List Byte) : Prop :=
  (∃ a, p0 ≤ a ∧ a + w.length = p ∧ Holds m u a w) ∨
    ∃ v, w = w0 ++ v ∧ p0 + v.length = p ∧ Holds m u p0 v

section

variable {m : Memory} {u p0 p : Nat} {w0 w w' : List Byte} {b : Byte}

theorem Stands.append (h : Stands m u p0 w0 p w) (hb : inByte m u p = some b) :
    Stands m u p0 w0 (p + 1) (w ++ [b]) := by
  rcases h with ⟨a, ha, rfl, hw⟩ | ⟨v, rfl, rfl, hv⟩
  · exact .inl ⟨a, ha, by simp [Nat.add_assoc], holds_append.2 ⟨hw, holds_singleton.2 hb⟩⟩
  · exact .inr ⟨v ++ [b], List.append_assoc .., by simp [Nat.add_assoc],
      holds_append.2 ⟨hv, holds_singleton.2 hb⟩⟩

theorem Stands.ge (h : Stands m u p0 w0 p w) : p0 ≤ p := by
  rcases h with ⟨a, ha, rfl, -⟩ | ⟨v, -, rfl, -⟩ <;> omega

theorem Stands.grows (h : Stands m u p0 w0 p w) (hb : inByte m u p = some b) (hw : Grows w b w') :
    Stands m u p0 w0 (p + 1) w' := by
  have hge := h.ge
  rcases hw with rfl | rfl | rfl
  · exact .inl ⟨p + 1, by omega, rfl, holds_nil⟩
  · exact .inl ⟨p, hge, rfl, holds_singleton.2 hb⟩
  · exact h.append hb

/-- The loop carries on what it is given, and completes a sentence that it carried but for its last byte. -/
theorem framerScan_carries {n : Nat} {F F' : Framer} {r : Bool} (hs : F.start = 0x24 ∨ F.start = 0x21)
    (hn : F.pos.toNat + n < 8192) (hF : Carries F w) (hw : Stands m u p0 w0 F.pos.toNat w)
    (h : framerScan m u n F = .ok (F', r)) :
    (r = true → ∃ fs, SentenceRead F' fs ∧ Stands m u p0 w0 F'.pos.toNat (sentence F.start fs)) ∧
      (r = false → ∃ w', Carried F' w' ∧ Stands m u p0 w0 F'.pos.toNat w') := by
  induction n generalizing F w with
  | zero =>
    obtain ⟨rfl, rfl⟩ := Prod.mk.inj (Except.ok.inj h)
    exact ⟨fun hr => absurd hr Bool.false_ne_true, fun _ => ⟨w, hF.carried, hw⟩⟩
  | succ n ih =>
    rw [framerScan] at h
    rcases hb : inByte m u F.pos.toNat with _ | b
    · simp [hb] at h
    · simp only [hb] at h
      have hpos : (F.pos + 1).toNat = F.pos.toNat + 1 := toNat_succ F.pos (by omega)
      have hG := hF.placed F.valid (F.pos + 1)
      have hk := framerStep_keeps { F with pos := F.pos + 1 } b
      rcases hstep : framerStep { F with pos := F.pos + 1 } b with ⟨H, _ | _⟩
      · obtain ⟨w', hgrow, hH⟩ := hG.step hs b
        rw [hstep] at h hk hH
        obtain ⟨hks, hkp, -, -⟩ := hk
        simp only at hks hkp
        have hH' : H.pos.toNat = F.pos.toNat + 1 := by rw [hkp, hpos]
        rw [← hks] at hs ⊢
        exact ih hs (by omega) hH (hH' ▸ hw.grows hb hgrow) h
      · have hc : (framerStep { F with pos := F.pos + 1 } b).2 = true := by rw [hstep]
        obtain ⟨-, -, hidle⟩ := framerStep_complete hc
        obtain ⟨fs, hread, hfs⟩ := hG.complete hc
        rw [hstep] at h hidle
        obtain ⟨rfl, rfl⟩ := Prod.mk.inj (Except.ok.inj h)
        obtain rfl : H = _ := hidle
        refine ⟨fun _ => ⟨fs, hread.moved .idle true _ _, ?_⟩, fun hr => absurd hr.symm Bool.false_ne_true⟩
        have hst := hw.append hb
        rw [hfs] at hst
        exact hpos ▸ hst

end

end Sys2Proof.Machine

namespace Sys2Proof.Proofs

open Sys2Proof.Machine Sys2Proof.Claims

/-- Settles O19: the run carries `w` from the position on, and what it completes is what it carried. -/
theorem completedSentenceIsValid : Obligations.CompletedSentenceIsValid := by
  unfold Obligations.CompletedSentenceIsValid
  intro m u F F' w hs hT hw hp
  have hlt := F.len.isLt
  have hF : Carries { F with valid := false } w := Carries.placed ⟨hT, hw⟩ false F.pos
  have hstands : Stands m u F.pos.toNat w F.pos.toNat w :=
    .inr ⟨[], (List.append_nil w).symm, rfl, holds_nil⟩
  have hcarry {r : Bool} (h : framerRun m u F = .ok (F', r)) :=
    framerScan_carries (F := { F with valid := false }) hs (by simp only; omega) hF hstands h
  have hspec := framerRun_spec m u F hp
  refine ⟨fun h => ?_, fun h => ?_⟩ <;> rw [h] at hspec
  · obtain ⟨hstart, -⟩ := hspec
    obtain ⟨fs, hread, hst⟩ := (hcarry h).1 rfl
    refine ⟨fs, hstart ▸ hread.valid, hread.fields, hread.sum, ?_⟩
    rcases hst with hin | ⟨v, hv, hend, hhold⟩
    · exact .inl hin
    · rcases eq_or_ne w [] with rfl | hne
      · rw [List.nil_append] at hv
        subst hv
        exact .inl ⟨_, Nat.le_refl _, hend, hhold⟩
      · exact .inr ⟨v, hne, hv.symm, hend, hhold⟩
  · obtain ⟨-, -, -, -, -, hend, -⟩ := hspec
    obtain ⟨w', hw', hst⟩ := (hcarry h).2 rfl
    rw [hend rfl] at hst
    exact ⟨w', hw', hst⟩

end Sys2Proof.Proofs
end

section
/-!
U1's queries of the message it holds (41_ais.md R153, R155 to R160): the number a bit read collects has the
message bits as its bits, and its sign-extended or zero-extended word is what the results hold.
-/

namespace Sys2Proof.Machine

open Sys2Proof.Claims

/-! ### Message bits -/

/-- The two ranges of armored characters as numbers below 64 (30_encoding.md R93). -/
theorem sixBit_toNat (c : Byte) : (sixBit c).toNat = sixValue c := by
  rw [sixBit, BitVec.toNat_ofInt, sixValue]
  split <;> split <;> omega

/-- A message bit is a bit of its character's six-bit value, the most significant first
(30_encoding.md R94). -/
theorem bitAt_eq_testBit (m : Buf 8) (b : Nat) :
    bitAt m b = (sixValue (bufGet m (b / 6))).testBit (5 - b % 6) := by
  have hb : b % 6 < 6 := Nat.mod_lt b (by decide)
  rw [bitAt, BitVec.getMsbD_eq_getLsbD, decide_eq_true hb, Bool.true_and, BitVec.getLsbD, sixBit_toNat]

theorem bitAt_eq_messageBit (A : Ais) (b : Nat) : bitAt A.msg b = messageBit A b := by
  rw [bitAt_eq_testBit, messageBit, Nat.testBit_eq_decide_div_mod_eq]

theorem rawBits_succ (m : Buf 8) (b n : Nat) :
    rawBits m b (n + 1) = 2 * rawBits m b n + (bitAt m (b + n)).toNat := by
  rw [rawBits, List.range_succ, List.foldl_append]
  rfl

/-- The last bit read is the lowest one of the number (R155). -/
theorem testBit_rawBits (m : Buf 8) (b n j : Nat) :
    (rawBits m b n).testBit j = (decide (j < n) && bitAt m (b + n - 1 - j)) := by
  induction n generalizing j with
  | zero => simp [rawBits]
  | succ n ih =>
    have hbit := Bool.toNat_le (bitAt m (b + n))
    rw [rawBits_succ]
    cases j with
    | zero =>
      rw [Nat.testBit_zero, Nat.mul_add_mod]
      rw [decide_eq_true (Nat.succ_pos n), Bool.true_and, Nat.sub_zero, Nat.add_sub_assoc (Nat.succ_pos n),
        Nat.succ_sub_one]
      cases bitAt m (b + n) <;> rfl
    | succ j =>
      have hhalf : (2 * rawBits m b n + (bitAt m (b + n)).toNat) / 2 = rawBits m b n := by omega
      rw [Nat.testBit_succ, hhalf, ih, show b + (n + 1) - 1 - (j + 1) = b + n - 1 - j by omega]
      simp

/-! ### Bit reads -/

/-- The `n` bits of a message from bit `b` on, the first one the most significant. -/
def readWord (A : Ais) (b n : Nat) : BitVec n := BitVec.ofNat n (rawBits A.msg b n)

theorem readWord_toNat (A : Ais) (b n : Nat) : (readWord A b n).toNat = rawBits A.msg b n :=
  Nat.mod_eq_of_lt (rawBits_lt A.msg b n)

theorem getLsbD_readWord (A : Ais) (b n j : Nat) :
    (readWord A b n).getLsbD j = (decide (j < n) && messageBit A (b + n - 1 - j)) := by
  rw [BitVec.getLsbD, readWord_toNat, testBit_rawBits, bitAt_eq_messageBit]

/-- The first bit read is the sign bit of the field (R155). -/
theorem msb_readWord (A : Ais) (b n : Nat) :
    (readWord A b n).msb = (decide (1 ≤ n) && messageBit A b) := by
  rw [BitVec.msb_eq_getLsbD_last, getLsbD_readWord]
  rcases n with _ | n
  · rfl
  · simp

/-- A read with data is the field's two's-complement value when signed, and its plain value when not
(R155). -/
theorem readBits_eq {A : Ais} {b n : Nat} (h : b + n ≤ 6 * A.msglen.toNat) (sg : Bool) :
    readBits A b n sg = some (if sg then (readWord A b n).toInt else (readWord A b n).toNat) := by
  rw [readBits, if_neg (Nat.not_lt.2 h), BitVec.toInt_eq_msb_cond, msb_readWord, readWord_toNat,
    ← bitAt_eq_messageBit]
  cases sg with
  | false => simp
  | true => simp [apply_ite some]

theorem readBits_eq_none_iff {A : Ais} {b n : Nat} {sg : Bool} :
    readBits A b n sg = none ↔ 6 * A.msglen.toNat < b + n := by
  rw [← Option.not_isSome_iff_eq_none, readBits_isSome, decide_eq_true_iff, Nat.not_le]

/-- The 64-bit form of a read: its field, extended by its sign when it is signed (R156). -/
def readDWord (A : Ais) (b n : Nat) (sg : Bool) : DWord :=
  if sg then (readWord A b n).signExtend 64 else (readWord A b n).setWidth 64

theorem getLsbD_readDWord (A : Ais) (b n : Nat) (sg : Bool) {j : Nat} (hj : j < 64) :
    (readDWord A b n sg).getLsbD j =
      if j < n then messageBit A (b + n - 1 - j) else (sg && decide (1 ≤ n) && messageBit A b) := by
  cases sg with
  | false =>
    rw [readDWord, if_neg (by decide), BitVec.getLsbD_setWidth, getLsbD_readWord]
    by_cases hn : j < n <;> simp [hj, hn]
  | true =>
    rw [readDWord, if_pos rfl, BitVec.getLsbD_signExtend, getLsbD_readWord, msb_readWord]
    by_cases hn : j < n <;> simp [hj, hn]

section

variable {s : State} (hv : s.ais.msgvalid = true)
include hv

/-- Past the message's end a bit read reports that there is no data (R156). -/
theorem readBitsCommand_noData {b n : Nat} (h : 6 * s.ais.msglen.toNat < b + n) (sg : Bool) :
    readBitsCommand b n sg s =
      .next { s with res := { s.res with r0 := 0, r1 := 0 }, status := ⟨.ok, false, true⟩ } := by
  rw [readBitsCommand, if_neg (not_not.2 hv), readBits_eq_none_iff.2 h]
  rfl

/-- Inside the message a bit read reports its 64-bit form in RES0 and RES1 (R156). -/
theorem readBitsCommand_data {b n : Nat} (h : b + n ≤ 6 * s.ais.msglen.toNat) (sg : Bool) :
    readBitsCommand b n sg s = .next { s with
      res := { s.res with
        r0 := (readDWord s.ais b n sg).extractLsb' 0 32
        r1 := (readDWord s.ais b n sg).extractLsb' 32 32 }
      status := ⟨.ok, true, false⟩ } := by
  have hword : BitVec.ofInt 64 (if sg then (readWord s.ais b n).toInt else (readWord s.ais b n).toNat) =
      readDWord s.ais b n sg := by
    cases sg with
    | false => exact (BitVec.ofInt_natCast 64 (readWord s.ais b n).toNat).trans (BitVec.ofNat_toNat 64 _)
    | true => rfl
  rw [readBitsCommand, if_neg (not_not.2 hv), readBits_eq h, ← hword]
  rfl

/-- An unsigned read of at most 32 bits leaves RES1 0 (R156). -/
theorem readBitsCommand_short {b n : Nat} (h : b + n ≤ 6 * s.ais.msglen.toNat) (hn : n ≤ 32) :
    readBitsCommand b n false s = .next { s with
      res := { s.res with r0 := (readWord s.ais b n).setWidth 32, r1 := 0 }
      status := ⟨.ok, true, false⟩ } := by
  have hlow : (readDWord s.ais b n false).extractLsb' 0 32 = (readWord s.ais b n).setWidth 32 :=
    BitVec.eq_of_getLsbD_eq fun j hj => by
      rw [readDWord, if_neg (by decide), BitVec.getLsbD_extractLsb', BitVec.getLsbD_setWidth,
        BitVec.getLsbD_setWidth, Nat.zero_add, decide_eq_true (show j < 64 by omega), Bool.true_and]
  have hhigh : (readDWord s.ais b n false).extractLsb' 32 32 = 0 :=
    BitVec.eq_of_getLsbD_eq fun j hj => by
      rw [BitVec.getLsbD_extractLsb', getLsbD_readDWord _ _ _ _ (by omega), if_neg (by omega)]
      simp
  rw [readBitsCommand_data hv h, hlow, hhigh]

end

/-- The message type is the six-bit value of the first character (R157). -/
theorem readWord_type (A : Ais) :
    (readWord A 0 6).setWidth 32 = BitVec.ofNat 32 (sixValue (bufGet A.msg 0)) := by
  refine BitVec.eq_of_getLsbD_eq fun j hj => ?_
  rw [BitVec.getLsbD_setWidth, BitVec.getLsbD_ofNat, BitVec.getLsbD, readWord_toNat, testBit_rawBits,
    bitAt_eq_testBit]
  by_cases h : j < 6
  · rw [show (0 + 6 - 1 - j) / 6 = 0 by omega, show 5 - (0 + 6 - 1 - j) % 6 = j by omega, decide_eq_true h,
      Bool.true_and]
  · have hlt : (sixValue (bufGet A.msg 0)) < 2 ^ j :=
      Nat.lt_of_lt_of_le (sixBit_toNat _ ▸ (sixBit (bufGet A.msg 0)).isLt)
        (Nat.pow_le_pow_right (by decide) (Nat.not_lt.1 h))
    rw [Nat.testBit_lt_two_pow hlt, decide_eq_false h, Bool.false_and]

/-! ### The position report -/

/-- Each of the five flags is its own bit (R160). -/
theorem fiveFlags_eq : ∀ a b c d e : Bool, fiveFlags a b c d e =
    flag a <<< 0 ||| flag b <<< 1 ||| flag c <<< 2 ||| flag d <<< 3 ||| flag e <<< 4 := by
  decide

theorem getLsbD_fiveFlags (a b c d e : Bool) (k : Nat) :
    (fiveFlags a b c d e).getLsbD k = [a, b, c, d, e].getD k false := by
  simp only [fiveFlags_eq, BitVec.getLsbD_or, getLsbD_flag_shiftLeft, Nat.reduceLT]
  rcases k with _ | _ | _ | _ | _ | k <;> simp

/-- The five fields of a position report in the order of their results (R159, R160). -/
def reportField (o : AisOffsets) : Nat → AisField
  | 0 => Config.aisSog o
  | 1 => Config.aisLon o
  | 2 => Config.aisLat o
  | 3 => Config.aisCog o
  | _ => Config.aisHdg o

section

variable (A : Ais) (ty : Int) (o : AisOffsets)

theorem posResults_present (k : Nat) : (posResults A ty o).r0.getLsbD k =
    (decide (k < 5) && (posField A (reportField o k)).present) := by
  rw [posResults, getLsbD_fiveFlags]
  rcases k with _ | _ | _ | _ | _ | k <;> simp [reportField]

theorem posResults_noData (k : Nat) : (posResults A ty o).r7.getLsbD k =
    (decide (k < 5) && (posField A (reportField o k)).value.isNone) := by
  rw [posResults, getLsbD_fiveFlags]
  rcases k with _ | _ | _ | _ | _ | k <;> simp [reportField]

theorem posResults_value {k : Nat} (hk : k < 5) :
    (posResults A ty o).get (k + 1) = (posField A (reportField o k)).word := by
  rcases k with _ | _ | _ | _ | _ | k
  case succ.succ.succ.succ.succ => omega
  all_goals rfl

end

section

variable {s : State} (hv : s.ais.msgvalid = true)
include hv

/-- A message too short for a type (R160). -/
theorem execAisPos_noType (h : readBits s.ais 0 6 false = none) : execAisPos s =
    .next { s with res := ⟨0, 0, 0, 0, 0, 0, 0xFFFFFFFF, 0⟩, status := ⟨.ok, false, true⟩ } := by
  rw [execAisPos, if_neg (not_not.2 hv), h]
  rfl

/-- A message of a type that is no position report (R160). -/
theorem execAisPos_otherType {y : Int} (h : readBits s.ais 0 6 false = some y) (ho : posOffsets y = none) :
    execAisPos s = .next { s with
      res := ⟨0, 0, 0, 0, 0, 0, BitVec.ofInt 32 y, 0⟩, status := ⟨.ok, false, false⟩ } := by
  rw [execAisPos, if_neg (not_not.2 hv), h]
  simp only [ho]
  rfl

/-- A position report (R160). -/
theorem execAisPos_report {y : Int} {o : AisOffsets} (h : readBits s.ais 0 6 false = some y)
    (ho : posOffsets y = some o) :
    execAisPos s = .next { s with res := posResults s.ais y o, status := ⟨.ok, true, false⟩ } := by
  rw [execAisPos, if_neg (not_not.2 hv), h]
  simp only [ho]
  rfl

end

/-- A field without data has the result 0 (R160). -/
theorem PosField.word_eq (f : PosField) : f.word = (f.value.map (BitVec.ofInt 32)).getD 0 := by
  rw [PosField.word]
  cases f.value <;> rfl

theorem posField_present (A : Ais) (f : AisField) : (posField A f).present =
    ((readBits A f.off f.len f.signed).isSome &&
      decide (readBits A f.off f.len f.signed ≠ some f.sentinel)) := by
  simp [posField, bne, Bool.beq_eq_decide_eq]

/-- The table of 30_encoding.md R95 with the two sets of offsets, and the types of each (R159). -/
theorem posOffsets_table {y : Int} (h : y ∈ ([1, 2, 3, 18, 19] : List Int)) :
    ∃ o, posOffsets y = some o ∧ ∀ k < 5, reportField o k =
      { off := (if y ∈ ([1, 2, 3] : List Int) then [50, 61, 89, 116, 128]
          else [46, 57, 85, 112, 124]).getD k 0
        len := [10, 28, 27, 12, 9].getD k 0
        signed := decide (k = 1 ∨ k = 2)
        sentinel := [1023, 0x6791AC0, 0x3412140, 3600, 511].getD k 0 } := by
  by_cases hA : y ∈ ([1, 2, 3] : List Int)
  · refine ⟨Config.aisOffA, if_pos (by simpa using hA), ?_⟩
    rw [if_pos hA]
    decide
  · refine ⟨Config.aisOffB, ?_, ?_⟩
    · simp only [List.mem_cons, List.not_mem_nil, or_false] at h hA
      rw [posOffsets, if_neg (by omega), if_pos (by omega)]
    · rw [if_neg hA]
      decide

end Sys2Proof.Machine

namespace Sys2Proof.Proofs

open Sys2Proof.Machine

/-- Settles O32: six times a 13-bit length is computed alike before and after widening. -/
theorem aisMessageLength : Obligations.AisMessageLength := by
  unfold Obligations.AisMessageLength
  intro ua ub s
  refine ⟨Laws.OpcodeByte.aisMsglen ua ub, fun hv => ?_, fun hv => if_pos (by simp [hv])⟩
  have hbits : BitVec.ofNat 32 (6 * s.ais.msglen.toNat) = 6 * s.ais.msglen.setWidth 32 := by
    rw [BitVec.ofNat_mul, BitVec.ofNat_toNat]
    rfl
  rw [exec_aisMsglen, execAisMsglen, if_neg (not_not.2 hv), hbits]
  rfl

/-- Settles O34: the raw bits are a word whose sign bit is the first bit read. -/
theorem signedReadIsTwosComplement : Obligations.SignedReadIsTwosComplement := by
  unfold Obligations.SignedReadIsTwosComplement
  exact fun A b n h => ⟨readBits_eq h true, readBits_eq h false⟩

/-- Settles O33: past the failures the results hold the field's 64-bit form, whose bits are message bits. -/
theorem aisBitsValue : Obligations.AisBitsValue := by
  unfold Obligations.AisBitsValue
  intro sgn len start s b n
  have hexec (hn : n ≤ 64) : exec (.aisBits sgn len start) s = readBitsCommand b n sgn s :=
    if_neg (Nat.not_lt.2 hn)
  refine ⟨Laws.OpcodeByte.aisBits sgn len start, fun hn => if_pos hn, fun hn hv => ?_, fun hn hv h => ?_,
    fun hn hv h => ⟨readDWord s.ais b n sgn, ?_, fun j hj => getLsbD_readDWord _ _ _ _ hj⟩⟩
  · rw [hexec hn]
    exact if_pos (by simp [hv])
  · rw [hexec hn]
    exact readBitsCommand_noData hv h sgn
  · rw [hexec hn]
    exact readBitsCommand_data hv h sgn

/-- Settles O35: both are short unsigned reads, of the first character and of 30 bits from bit 8 on. -/
theorem aisTypeAndMmsi : Obligations.AisTypeAndMmsi := by
  unfold Obligations.AisTypeAndMmsi
  intro ua ub s
  refine ⟨Laws.OpcodeByte.aisType ua ub, Laws.OpcodeByte.aisMmsi ua ub, rfl, rfl, fun hv hlen => ?_,
    fun hv hlen => ⟨(readWord s.ais 8 30).setWidth 32, ?_, fun j hj => ?_⟩⟩
  · rw [exec_aisType, execAisType, readBitsCommand_short hv (by omega) (by decide), readWord_type]
  · exact readBitsCommand_short hv (by omega) (by decide)
  · rw [BitVec.getLsbD_setWidth, getLsbD_readWord, decide_eq_true hj, Bool.true_and]

/-- Settles O36: the report's fields are read by the table of 30_encoding.md R95. -/
theorem aisPositionReport : Obligations.AisPositionReport := by
  unfold Obligations.AisPositionReport
  intro ua ub s ty
  refine ⟨Laws.OpcodeByte.aisPos ua ub, fun hv => if_pos (by simp [hv]),
    fun hv hty => execAisPos_noType hv hty, fun y hv hty hy => execAisPos_otherType hv hty ?_,
    fun y hv hty hy => ?_⟩
  · simp only [List.mem_cons, List.not_mem_nil, or_false] at hy
    rw [posOffsets, if_neg (by omega), if_neg (by omega)]
  · obtain ⟨o, ho, hfield⟩ := posOffsets_table hy
    refine ⟨posResults s.ais y o, execAisPos_report hv hty ho, rfl, fun k _ => ?_, fun k _ => ?_,
      fun k hk => ?_⟩
    · rw [posResults_present, posField_present]
      by_cases hk : k < 5
      · rw [hfield k hk, Bool.and_assoc]
      · rw [decide_eq_false hk, Bool.false_and, Bool.false_and, Bool.false_and]
    · rw [posResults_noData]
      by_cases hk : k < 5
      · rw [hfield k hk]
        rfl
      · rw [decide_eq_false hk, Bool.false_and, Bool.false_and]
    · rw [posResults_value _ _ _ hk, PosField.word_eq, hfield k hk]
      rfl

end Sys2Proof.Proofs
end

section
/-!
Reassembly of one sentence (41_ais.md R141 to R149): each way out of R142 with what it leaves of the fragment
state and the message.
-/

namespace Sys2Proof.Machine

open Sys2Proof.Claims

/-! ### Messages and accumulated payloads -/

/-- The message is what was emitted last (R149). -/
theorem aisMessage_emit (A : Ais) {p : List Byte} (hp : p.length ≤ 4096) : aisMessage (aisEmit A p) = p := by
  rw [aisMessage, aisEmit, toNat_ofNat_of_lt (show p.length < 2 ^ 13 by omega)]
  exact bufRead_bufWrite_self A.msg 0 p

/-- What is written behind the entries read is read behind them (R142). -/
theorem bufRead_bufWrite_behind {w : Nat} (b : Buf w) (n : Nat) (vs : List (BitVec w)) :
    bufRead (bufWrite b n vs) 0 (n + vs.length) = bufRead b 0 n ++ vs := by
  have hbefore : bufRead (bufWrite b n vs) 0 n = bufRead b 0 n :=
    bufRead_congr fun j hj => by rw [bufGet_bufWrite, if_neg (by omega)]
  rw [bufRead_add, hbefore, Nat.zero_add, bufRead_bufWrite_self]

/-- The accumulated payload with one more fragment's (R142). -/
theorem aisAppend_payload {A : Ais} {p : List Byte} (hfit : A.acclen.toNat + p.length ≤ 4096) :
    bufRead (aisAppend A p).acc 0 (aisAppend A p).acclen.toNat = bufRead A.acc 0 A.acclen.toNat ++ p := by
  rw [aisAppend, toNat_ofNat_of_lt (show A.acclen.toNat + p.length < 2 ^ 13 by omega)]
  exact bufRead_bufWrite_behind A.acc A.acclen.toNat p

/-- A first fragment that fits is held, whatever was in progress (R143). -/
theorem firstHeld_aisFirst (A : Ais) {p q : List Byte} (hp : p.length ≤ 512) (hq : q.length ≤ 512) :
    FirstHeld (aisFirst A p q) q p := by
  refine ⟨rfl, rfl, ?_, ?_⟩
  · rw [aisFirst, toNat_ofNat_of_lt (show q.length < 2 ^ 10 by omega)]
    exact bufRead_bufWrite_self A.seq 0 q
  · rw [aisFirst, toNat_ofNat_of_lt (show p.length < 2 ^ 13 by omega)]
    exact bufRead_bufWrite_self A.acc 0 p

/-! ### A fragment of index other than 1 -/

section

variable {A : Ais} {t x : Int} {p q : List Byte}

/-- Each break clears the fragment state and drops the fragment (R145, R146, R147). -/
theorem aisNext_broken (h : A.inprog = false ∨ x ≠ A.expect.toInt ∨ q ≠ bufRead A.seq 0 A.seqlen.toNat ∨
    x > t ∨ A.acclen.toNat + p.length > 4096) : aisNext A t x p q = (aisClear A, false) := by
  rw [aisNext]
  split
  · rfl
  next hseq =>
    split
    · rfl
    next hindex => exact if_pos (show _ > 4096 by tauto)

section

variable (hon : A.inprog = true) (hx : x = A.expect.toInt) (hq : q = bufRead A.seq 0 A.seqlen.toNat)
  (hfit : A.acclen.toNat + p.length ≤ 4096)
include hon hx hq hfit

/-- A fragment in sequence that fits is appended, and the last one emits the accumulated payload and clears
the state (R142, R148). -/
theorem aisNext_inSequence (hle : x ≤ t) :
    aisNext A t x p q =
      if x < t then ({ aisAppend A p with expect := A.expect + 1 }, false)
      else (aisClear (aisEmit (aisAppend A p) (bufRead A.acc 0 A.acclen.toNat ++ p)), true) := by
  rw [aisNext, if_neg (by simp [hon, ← hx, ← hq]), if_neg (by omega),
    if_neg (show ¬ _ > Config.aisCap from Nat.not_lt.2 hfit), ← aisAppend_payload hfit]
  rfl

theorem aisNext_more (hlt : x < t) :
    aisNext A t x p q = ({ aisAppend A p with expect := A.expect + 1 }, false) :=
  (aisNext_inSequence hon hx hq hfit (Int.le_of_lt hlt)).trans (if_pos hlt)

theorem aisNext_last (hlast : x = t) :
    aisNext A t x p q =
      (aisClear (aisEmit (aisAppend A p) (bufRead A.acc 0 A.acclen.toNat ++ p)), true) :=
  (aisNext_inSequence hon hx hq hfit (Int.le_of_eq hlast)).trans (if_neg (Int.not_lt.2 (Int.ge_of_eq hlast)))

end

end

/-! ### A sentence -/

section

variable {F : Framer} {A : Ais} {t x : Int}

theorem reassemble_noTotal (ht : parseInt (fieldBytes F 1) = none) : reassemble F A = (A, false) := by
  rw [reassemble, ht]

theorem reassemble_single (ht : parseInt (fieldBytes F 1) = some 1) :
    reassemble F A = (aisEmit A (fieldBytes F 5), true) := by
  rw [reassemble, ht]
  exact if_pos rfl

section

variable (ht : parseInt (fieldBytes F 1) = some t) (ht1 : t ≠ 1)
include ht ht1

theorem reassemble_noIndex (hx : parseInt (fieldBytes F 2) = none) : reassemble F A = (A, false) := by
  rw [reassemble, ht, hx]
  exact if_neg ht1

theorem reassemble_first (hx : parseInt (fieldBytes F 2) = some 1) :
    reassemble F A = (aisFirst A (fieldBytes F 5) (fieldBytes F 3), false) := by
  rw [reassemble, ht, hx]
  exact (if_neg ht1).trans (if_pos rfl)

theorem reassemble_next (hx : parseInt (fieldBytes F 2) = some x) (hx1 : x ≠ 1) :
    reassemble F A = aisNext A t x (fieldBytes F 5) (fieldBytes F 3) := by
  rw [reassemble, ht, hx]
  exact (if_neg ht1).trans (if_neg hx1)

end

theorem isAivdm_iff :
    isAivdm F = true ↔ F.nf.toNat = 7 ∧ fieldBytes F 0 = [0x41, 0x49, 0x56, 0x44, 0x4D] := decide_eq_true_iff

/-- A sentence that is no AIVDM sentence of 7 fields is not offered (R141). -/
theorem aisOffer_other (h : F.nf.toNat ≠ 7 ∨ fieldBytes F 0 ≠ [0x41, 0x49, 0x56, 0x44, 0x4D]) :
    aisOffer F A = (A, false) :=
  if_neg (isAivdm_iff.not.2 (by tauto))

end

end Sys2Proof.Machine

namespace Sys2Proof.Proofs

open Sys2Proof.Machine Sys2Proof.Claims

/-- Settles O29: a total of 1 only emits, and what is not read as a fragment changes nothing. -/
theorem singleFragmentLeavesSequence : Obligations.SingleFragmentLeavesSequence := by
  unfold Obligations.SingleFragmentLeavesSequence
  exact fun F A => ⟨fun ht hp => ⟨_, reassemble_single ht, aisMessage_emit A hp, rfl⟩, aisOffer_other,
    reassemble_noTotal, fun t ht1 ht hx => reassemble_noIndex ht ht1 hx⟩

/-- Settles O30: a first fragment is held, a middle one appended, and the last one emitted with what was
accumulated. -/
theorem fragmentsInSequenceAccumulate : Obligations.FragmentsInSequenceAccumulate := by
  unfold Obligations.FragmentsInSequenceAccumulate
  intro F A t x p q ht ht1 hx
  refine ⟨fun hx1 hp hq => ?_, fun hx1 hon hexp hseq hfit => ⟨fun hlt => ?_, fun hlast => ?_⟩⟩
  · subst hx1
    obtain ⟨hon, hexp, hid, hacc⟩ := firstHeld_aisFirst A hp hq
    exact ⟨_, reassemble_first ht ht1 hx, hon, by rw [hexp]; rfl, hacc, hid, rfl, rfl⟩
  · exact ⟨_, (reassemble_next ht ht1 hx hx1).trans (aisNext_more hon hexp hseq hfit hlt), hon, rfl,
      aisAppend_payload hfit, hseq.symm, rfl, rfl⟩
  · refine ⟨_, (reassemble_next ht ht1 hx hx1).trans (aisNext_last hon hexp hseq hfit hlast),
      aisMessage_emit _ ?_, rfl, rfl, rfl⟩
    rwa [List.length_append, bufRead_length]

/-- Settles O31: every break is one of the ways out of R142 that clear. -/
theorem brokenSequenceIsDropped : Obligations.BrokenSequenceIsDropped := by
  unfold Obligations.BrokenSequenceIsDropped
  exact fun F A t x ht ht1 hx hx1 hbreak => (reassemble_next ht ht1 hx hx1).trans (aisNext_broken hbreak)

end Sys2Proof.Proofs
end

section
/-!
The feeds of U1 over sentences (41_ais.md R141, R142, R144, R150 to R152, R163): each valid sentence is
offered to reassembly with its own fields, and what lies between sentences is nothing to U1.
-/

namespace Sys2Proof.Machine

open Sys2Proof.Claims

/-! ### What is offered -/

section

variable {F : Framer} {A : Ais} {fs : List (List Byte)}

theorem hasFields_field {i : Nat} {f : List Byte} (h : HasFields F fs) (hf : fs[i]? = some f) :
    fieldBytes F i = f := by
  have hi : i < fs.length := (List.getElem?_eq_some_iff.1 hf).1
  exact Option.some.inj ((h.2 i hi).trans hf)

/-- A sentence that is no AIVDM sentence of 7 fields is passed over (R141). -/
theorem aisOffer_passed (h : HasFields F fs) (hfs : ¬ IsAivdm fs) : aisOffer F A = (A, false) := by
  refine if_neg (isAivdm_iff.not.2 fun ⟨hnf, hname⟩ => hfs ?_)
  have hlen : fs.length = 7 := h.1.symm.trans hnf
  exact ⟨hlen, (h.2 0 (by omega)).symm.trans (congrArg some hname)⟩

section

variable {f1 f2 f3 f4 p f6 : List Byte}
  (h : HasFields F [[0x41, 0x49, 0x56, 0x44, 0x4D], f1, f2, f3, f4, p, f6])
include h

/-- An AIVDM sentence of 7 fields is reassembled (R141). -/
theorem aisOffer_aivdm : aisOffer F A = reassemble F A :=
  if_pos (isAivdm_iff.2 ⟨h.1, hasFields_field h rfl⟩)

/-- The fields reassembly reads (R142). -/
theorem aivdm_fields :
    fieldBytes F 1 = f1 ∧ fieldBytes F 2 = f2 ∧ fieldBytes F 3 = f3 ∧ fieldBytes F 5 = p :=
  ⟨hasFields_field h rfl, hasFields_field h rfl, hasFields_field h rfl, hasFields_field h rfl⟩

theorem aisOffer_single (ht : parseInt f1 = some 1) : aisOffer F A = (aisEmit A p, true) := by
  obtain ⟨rfl, rfl, rfl, rfl⟩ := aivdm_fields h
  rw [aisOffer_aivdm h, reassemble_single ht]

section

variable {t : Int} (ht : parseInt f1 = some t) (ht1 : t ≠ 1)
include ht ht1

theorem aisOffer_first (hx : parseInt f2 = some 1) : aisOffer F A = (aisFirst A p f3, false) := by
  obtain ⟨rfl, rfl, rfl, rfl⟩ := aivdm_fields h
  rw [aisOffer_aivdm h, reassemble_first ht ht1 hx]

theorem aisOffer_next {x : Int} (hx : parseInt f2 = some x) (hx1 : x ≠ 1) :
    aisOffer F A = aisNext A t x p f3 := by
  obtain ⟨rfl, rfl, rfl, rfl⟩ := aivdm_fields h
  rw [aisOffer_aivdm h, reassemble_next ht ht1 hx hx1]

end

end

end

/-- The fields of a valid sentence are no longer than the stored characters can be. -/
theorem validFields_length_le {c : Byte} {fs : List (List Byte)} {f : List Byte} (h : ValidFields c fs)
    (hf : f ∈ fs) : f.length ≤ 512 :=
  Nat.le_trans (List.le_sum_of_mem (List.mem_map_of_mem hf)) h.chars_le

/-! ### A drain over sentences -/

/-- The framer `F'` has gone on from `F` and completed a sentence of the fields `fs` that ends before `e`. -/
structure Completes (F F' : Framer) (fs : List (List Byte)) (e : Nat) : Prop where
  start : F'.start = F.start
  len : F'.len = F.len
  st : F'.st = .idle
  pos : F'.pos.toNat = e
  fields : HasFields F' fs

section

variable {m : Memory} {F G : Framer} {pre : List Byte} {fs : List (List Byte)}

/-- Behind a string that completes nothing, a drain offers the valid sentence that stands there, and goes on
behind it unless it was emitted (R150). -/
theorem aisRun_sentence (A : Ais) (hpass : framerPass { F with valid := false } pre = some G)
    (hv : ValidFields F.start fs) (hb : Holds m 1 F.pos.toNat (pre ++ sentence F.start fs))
    (hle : F.pos.toNat + (pre ++ sentence F.start fs).length ≤ F.len.toNat) :
    ∃ F', Completes F F' fs (F.pos.toNat + (pre ++ sentence F.start fs).length) ∧
      aisRun m F A =
        if (aisOffer F' A).2 then .ok (F', (aisOffer F' A).1, true)
        else aisRun m F' (aisOffer F' A).1 := by
  have hp : F.pos.toNat ≤ F.len.toNat := by omega
  obtain ⟨F', hrun, -, hpos, hfields⟩ := framerRun_sentence hpass hv hb rfl hle
  have hspec := framerRun_spec m 1 F hp
  rw [hrun] at hspec
  obtain ⟨hstart, hlen, -, -, -, -, hidle, -⟩ := hspec
  refine ⟨F', ⟨hstart, hlen, (hidle rfl).2, hpos, hfields⟩, ?_⟩
  rw [aisRun_eq m F A hp, hrun]
  dsimp only
  rcases aisOffer F' A with ⟨A', _ | _⟩
  · rfl
  · rfl

/-- A drain of a string that completes nothing reads it to its end (R150). -/
theorem aisRun_pass (A : Ais) (hpass : framerPass { F with valid := false } pre = some G)
    (hb : Holds m 1 F.pos.toNat pre) (hlen : F.pos.toNat + pre.length = F.len.toNat) :
    aisRun m F A = .ok ({ G with pos := F.len }, A, false) := by
  rw [aisRun_eq m F A (by omega), framerRun_pass hpass hb hlen]

/-- Nothing, or a sentence passed over with the bytes behind it, leads a drain to a place before `rest` with
nothing but a string that completes nothing between (R141). -/
theorem aisRun_passedOver (A : Ais) {before rest : List Byte} (hs : F.start = 0x21)
    (hbefore : before = [] ∨ PassedOver before) (hb : Holds m 1 F.pos.toNat (before ++ rest))
    (hle : F.pos.toNat + (before ++ rest).length ≤ F.len.toNat) :
    ∃ F' pre H, F'.start = F.start ∧ F'.len = F.len ∧ framerPass { F' with valid := false } pre = some H ∧
      Holds m 1 F'.pos.toNat (pre ++ rest) ∧ F'.pos.toNat + pre.length = F.pos.toNat + before.length ∧
      aisRun m F A = aisRun m F' A := by
  rcases hbefore with rfl | ⟨gs, gap, hgs, hother, hgap, rfl⟩
  · exact ⟨F, [], _, rfl, rfl, rfl, hb, rfl, rfl⟩
  · rw [← hs] at hgs hgap hb hle ⊢
    rw [List.append_assoc, holds_append] at hb
    simp only [List.length_append] at hle
    obtain ⟨F', hF', hrun⟩ := aisRun_sentence (pre := []) A rfl hgs hb.1 (by rw [List.nil_append]; omega)
    rw [aisOffer_passed hF'.fields hother] at hrun
    refine ⟨F', gap, _, hF'.start, hF'.len,
      framerPass_gap (F := { F' with valid := false }) hF'.st (by rwa [hF'.start]), ?_, ?_, hrun⟩
    · rw [hF'.pos]
      exact hb.2
    · rw [hF'.pos, List.nil_append, List.length_append, Nat.add_assoc]

end

/-! ### Fragments one and two -/

section

variable {m : Memory} {F F' G : Framer} {A : Ais} {pre gap tail : List Byte} {fs gs : List (List Byte)}

/-- Behind a completed sentence, bytes that begin none are drained to the buffer's end. -/
theorem Completes.drained {e : Nat} (h : Completes F F' fs e) (A : Ais) (htail : F.start ∉ tail)
    (hb : Holds m 1 e tail) (hlen : e + tail.length = F.len.toNat) :
    ∃ H, aisRun m F' A = .ok (H, A, false) ∧ H.pos = F.len := by
  have hpass := framerPass_gap (F := { F' with valid := false }) h.st (by rwa [h.start])
  exact ⟨_, aisRun_pass A hpass (h.pos ▸ hb) (by rw [h.pos, h.len, hlen]), h.len⟩

variable {q c p x q' c' p' x' : List Byte}

/-- The first of two fragments is held, and the drain goes on behind it (R143). -/
theorem aisRun_first (A : Ais) (hfs : fs = [[0x41, 0x49, 0x56, 0x44, 0x4D], [0x32], [0x31], q, c, p, x])
    (hv : ValidFields F.start fs) (hb : Holds m 1 F.pos.toNat (sentence F.start fs))
    (hle : F.pos.toNat + (sentence F.start fs).length ≤ F.len.toNat) :
    ∃ F', Completes F F' fs (F.pos.toNat + (sentence F.start fs).length) ∧
      FirstHeld (aisFirst A p q) q p ∧ aisRun m F A = aisRun m F' (aisFirst A p q) := by
  obtain ⟨F', hF', hrun⟩ := aisRun_sentence (pre := []) A rfl hv hb hle
  have hoffer : aisOffer F' A = (aisFirst A p q, false) :=
    aisOffer_first (t := 2) (hfs ▸ hF'.fields) (by decide) (by decide) (by decide)
  rw [hoffer] at hrun
  have hp : p.length ≤ 512 := validFields_length_le hv (by simp [hfs])
  have hq : q.length ≤ 512 := validFields_length_le hv (by simp [hfs])
  exact ⟨F', hF', firstHeld_aisFirst A hp hq, hrun⟩

/-- A drain of `F` that ends the sequence of a first fragment with payload `p` and sequence id `q`, the second
one having `p'` and `q'`: an emission, the position then being `n`, or a break that leaves the message
(R163). -/
def EndsSequence (m : Memory) (F : Framer) (A : Ais) (q p q' p' : List Byte) (n : Nat) : Prop :=
  (q = q' → ∃ F' A', aisRun m F A = .ok (F', A', true) ∧ F'.pos.toNat = n ∧ aisMessage A' = p ++ p' ∧
    A'.msgvalid = true ∧ A'.inprog = false) ∧
  (q ≠ q' → ∃ F' A', aisRun m F A = .ok (F', A', false) ∧ F'.pos = F.len ∧ aisMessage A' = aisMessage A ∧
    A'.msgvalid = A.msgvalid ∧ A'.inprog = false)

section

variable (hgs : gs = [[0x41, 0x49, 0x56, 0x44, 0x4D], [0x32], [0x32], q', c', p', x'])
  (hp : p.length ≤ 512) (hv : ValidFields F.start gs) (htail : F.start ∉ tail)
include hgs hp hv htail

/-- The second of two fragments, behind a string that completes nothing, with the first one held (R145,
R148). -/
theorem aisRun_second (hheld : FirstHeld A q p) (hpass : framerPass { F with valid := false } pre = some G)
    (hb : Holds m 1 F.pos.toNat (pre ++ sentence F.start gs ++ tail))
    (hlen : F.pos.toNat + (pre ++ sentence F.start gs ++ tail).length = F.len.toNat) :
    EndsSequence m F A q p q' p' (F.pos.toNat + (pre ++ sentence F.start gs).length) := by
  obtain ⟨hon, hexp, hid, hacc⟩ := hheld
  rw [holds_append] at hb
  rw [List.length_append, ← Nat.add_assoc] at hlen
  obtain ⟨F', hF', hrun⟩ := aisRun_sentence A hpass hv hb.1 (by omega)
  have hoffer : aisOffer F' A = aisNext A 2 2 p' q' :=
    aisOffer_next (hgs ▸ hF'.fields) (by decide) (by decide) (by decide) (by decide)
  have hp' : p'.length ≤ 512 := validFields_length_le hv (by simp [hgs])
  have hfit : A.acclen.toNat + p'.length ≤ 4096 := by
    rw [← hacc, bufRead_length] at hp
    omega
  rw [hoffer] at hrun
  refine ⟨fun heq => ?_, fun hne => ?_⟩
  · rw [aisNext_last hon (by rw [hexp]; rfl) (heq.symm.trans hid.symm) hfit rfl, hacc] at hrun
    refine ⟨F', _, hrun, hF'.pos, aisMessage_emit _ ?_, rfl, rfl⟩
    rw [List.length_append]
    omega
  · rw [aisNext_broken (.inr (.inr (.inl (fun h => hne (hid.symm.trans h.symm)))))] at hrun
    obtain ⟨H, hrest, hpos⟩ := hF'.drained (aisClear A) htail hb.2 hlen
    exact ⟨H, _, hrun.trans hrest, hpos, rfl, rfl, rfl⟩

/-- Both fragments in one drain (R163). -/
theorem aisRun_two (A : Ais) (hfs : fs = [[0x41, 0x49, 0x56, 0x44, 0x4D], [0x32], [0x31], q, c, p, x])
    (hvfs : ValidFields F.start fs) (hgap : F.start ∉ gap)
    (hb : Holds m 1 F.pos.toNat (sentence F.start fs ++ gap ++ sentence F.start gs ++ tail))
    (hlen : F.pos.toNat + (sentence F.start fs ++ gap ++ sentence F.start gs ++ tail).length = F.len.toNat) :
    EndsSequence m F A q p q' p'
      (F.pos.toNat + (sentence F.start fs ++ gap ++ sentence F.start gs).length) := by
  have hsplit (r : List Byte) : F.pos.toNat + (sentence F.start fs ++ r).length =
      F.pos.toNat + (sentence F.start fs).length + r.length := by rw [List.length_append, Nat.add_assoc]
  rw [List.append_assoc, List.append_assoc, holds_append, ← List.append_assoc] at hb
  rw [List.append_assoc, List.append_assoc, hsplit, ← List.append_assoc] at hlen
  obtain ⟨F', hF', hheld, hrun⟩ := aisRun_first A hfs hvfs hb.1 (by omega)
  have hpass := framerPass_gap (F := { F' with valid := false }) hF'.st (hF'.start.symm ▸ hgap)
  have hends := aisRun_second hgs hp (hF'.start.symm ▸ hv) (hF'.start.symm ▸ htail) hheld hpass
    (hF'.pos.symm ▸ hF'.start.symm ▸ hb.2) (by rw [hF'.pos, hF'.start, hF'.len, hlen])
  rw [List.append_assoc, hsplit]
  rwa [EndsSequence, ← hrun, hF'.pos, hF'.start, hF'.len] at hends

end

end

/-! ### The feeds -/

theorem feedU1_of_run {s : State} {w : Word} {F G : Framer} {A : Ais} {r : Bool}
    (h : aisRun s.mem G s.ais = .ok (F, A, r)) :
    feedU1 w G s = .next { s with
      f1 := F, ais := A, res := { s.res with r0 := F.pos.setWidth 32 }, status := ⟨.ok, r, false⟩ } := by
  rw [feedU1, h]
  rfl

theorem execAisFeedn_ok (ua : Byte) {len : Half} (s : State) (hlen : len.toNat ≤ 4096) :
    execAisFeedn ua len s =
      feedU1 (encode (.aisFeedn ua len)) (framerNewBuffer s.f1 len Config.nmeaResetOnNewBuffer) s :=
  if_neg (Nat.not_lt.2 hlen)

/-- Either feed is a drain of the bytes it feeds, from a framer in any state (R151, R152). -/
theorem feedsU1_drain {i : Instr} {s : State} {a e : Nat} (h : FeedsU1 i s a e) :
    ∃ G, G.start = s.f1.start ∧ G.pos.toNat = a ∧ G.len.toNat = e ∧
      ∀ {F A r n}, aisRun s.mem G s.ais = .ok (F, A, r) → F.pos.toNat = n →
        exec i s = .next { s with
          f1 := F, ais := A, res := { s.res with r0 := BitVec.ofNat 32 n }, status := ⟨.ok, r, false⟩ } := by
  have hfeed {w : Word} {G F : Framer} {A : Ais} {r : Bool} {n : Nat}
      (hrun : aisRun s.mem G s.ais = .ok (F, A, r)) (hn : F.pos.toNat = n) : feedU1 w G s = .next { s with
        f1 := F, ais := A, res := { s.res with r0 := BitVec.ofNat 32 n }, status := ⟨.ok, r, false⟩ } := by
    rw [feedU1_of_run hrun, ← hn, BitVec.ofNat_toNat]
  rcases h with ⟨ua, len, rfl, rfl, rfl, hle⟩ | ⟨ua, ub, rfl, rfl, rfl⟩
  · refine ⟨framerNewBuffer s.f1 len Config.nmeaResetOnNewBuffer, rfl, rfl, newBuffer_len hle _ _,
      fun hrun hn => ?_⟩
    rw [exec_aisFeedn, execAisFeedn_ok ua s hle]
    exact hfeed hrun hn
  · exact ⟨s.f1, rfl, rfl, rfl, fun hrun hn => hfeed hrun hn⟩

end Sys2Proof.Machine

namespace Sys2Proof.Proofs

open Sys2Proof.Machine Sys2Proof.Claims

/-- Settles O27: the sentence is offered with a total of 1, a sentence before it being passed over. -/
theorem aisSingleSentenceEmits : Obligations.AisSingleSentenceEmits := by
  unfold Obligations.AisSingleSentenceEmits
  intro i s a e hs hfeeds
  obtain ⟨G, hstart, rfl, rfl, hexec⟩ := feedsU1_drain hfeeds
  rw [hs] at hstart
  constructor
  · intro f1 f2 f3 f4 p f6 before fs fed hv ht hbefore hb hle
    obtain ⟨G', pre, H, hstart', hlen', hpass, hb', hpos', hrun⟩ :=
      aisRun_passedOver s.ais hstart hbefore hb hle
    rw [hstart] at hstart'
    have hend : G'.pos.toNat + (pre ++ sentence 0x21 fs).length = G.pos.toNat + fed.length := by
      simp only [fed, List.length_append]
      omega
    rw [← hstart'] at hv hb' hend
    obtain ⟨F, hF, hrun'⟩ := aisRun_sentence s.ais hpass hv hb' (by rwa [hend, hlen'])
    rw [aisOffer_single hF.fields ht] at hrun'
    have hpos : F.pos.toNat = G.pos.toNat + fed.length := hF.pos.trans hend
    refine ⟨F, aisEmit s.ais p, hexec (hrun.trans hrun') hpos, hF.start.trans hstart', hpos, ?_,
      aisMessage_emit _ ?_, rfl⟩
    · rw [hF.len, hlen']
    · exact Nat.le_trans (validFields_length_le hv (by simp [fs])) (by decide)
  · intro fed hover hb hlen
    obtain ⟨G', pre, H, -, hlen', hpass, hb', hpos', hrun⟩ :=
      aisRun_passedOver (rest := []) s.ais hstart (.inr hover) (by rwa [List.append_nil])
        (by rw [List.append_nil, hlen])
    rw [List.append_nil] at hb'
    have hrest := aisRun_pass s.ais hpass hb' (by rw [hpos', hlen', hlen])
    have hl : H.len.toNat = G.len.toNat := by
      rw [(framerPass_keeps hpass).2.1, hlen']
    exact ⟨_, hexec (hrun.trans hrest) (by rw [hlen']), by rw [hlen'], hl⟩

/-- Settles O28: the first fragment is held, and the second one then ends the sequence. -/
theorem aisTwoFragmentBuffer : Obligations.AisTwoFragmentBuffer := by
  unfold Obligations.AisTwoFragmentBuffer
  intro i s a e q q' c c' p p' x x' gap tail aivdm fs gs fed joined silent two hs hfeeds hfs hgs hgap htail
  obtain ⟨G, hstart, rfl, rfl, hexec⟩ := feedsU1_drain hfeeds
  rw [hs] at hstart
  have hp : p.length ≤ 512 := validFields_length_le hfs (by simp [fs])
  rw [← hstart] at hfs hgs hgap htail
  have hends {bs : List Byte} (h : EndsSequence s.mem G s.ais q p q' p' (G.pos.toNat + bs.length)) :
      (q = q' → joined bs) ∧ (q ≠ q' → silent (fun A => A.inprog = false)) := by
    refine ⟨fun heq => ?_, fun hne => ?_⟩
    · obtain ⟨F, A, hrun, hpos, hjoined⟩ := h.1 heq
      exact ⟨F, A, hexec hrun hpos, hpos, hjoined⟩
    · obtain ⟨F, A, hrun, hpos, hkept⟩ := h.2 hne
      exact ⟨F, A, hexec hrun (by rw [hpos]), hkept⟩
  refine ⟨fun ⟨hb, hlen⟩ => hends ?_, fun ⟨hb, hlen⟩ => ?_, fun ⟨hb, hlen⟩ hheld => hends ?_⟩
  · simp only [two, ← hstart] at hb hlen ⊢
    exact aisRun_two rfl hp hgs htail s.ais rfl hfs hgap hb hlen
  · rw [← hstart, holds_append] at hb
    rw [← hstart, List.length_append, ← Nat.add_assoc] at hlen
    obtain ⟨F, hF, hheld, hrun⟩ := aisRun_first (fs := fs) s.ais rfl hfs hb.1 (by omega)
    obtain ⟨H, hrest, hpos⟩ := hF.drained (aisFirst s.ais p q) htail hb.2 hlen
    exact ⟨H, _, hexec (hrun.trans hrest) (by rw [hpos]), rfl, rfl, hheld⟩
  · rw [← hstart] at hb hlen ⊢
    exact aisRun_second (pre := []) rfl hp hgs htail hheld rfl hb hlen

end Sys2Proof.Proofs
end

section
/-!
The feeds of U1 over written bytes, and over a buffer with an unwritten one (41_ais.md R150 to R152): a drain
changes the message only by an emission, and up to an unwritten byte it is the drain of a buffer that ends
there.
-/

namespace Sys2Proof.Machine

open Sys2Proof.Claims

/-! ### The message through a drain -/

/-- The message of `A'` is that of `A`. -/
structure SameMessage (A A' : Ais) : Prop where
  msg : A'.msg = A.msg
  msglen : A'.msglen = A.msglen
  msgvalid : A'.msgvalid = A.msgvalid

theorem SameMessage.trans {A B C : Ais} (h : SameMessage A B) (h' : SameMessage B C) : SameMessage A C :=
  ⟨h'.msg.trans h.msg, h'.msglen.trans h.msglen, h'.msgvalid.trans h.msgvalid⟩

/-- What `r`, the answer of a sentence or a drain, says of the message: emitted, or left (R149). -/
def MessageAfter (A A' : Ais) (r : Bool) : Prop := if r then A'.msgvalid = true else SameMessage A A'

theorem aisNext_message (A : Ais) (t x : Int) (p q : List Byte) :
    MessageAfter A (aisNext A t x p q).1 (aisNext A t x p q).2 := by
  rcases aisNext_cases A t x p q with h | ⟨-, h⟩ | ⟨-, h⟩ <;> rw [h]
  · exact ⟨rfl, rfl, rfl⟩
  · exact ⟨rfl, rfl, rfl⟩
  · exact rfl

theorem aisOffer_message (F : Framer) (A : Ais) : MessageAfter A (aisOffer F A).1 (aisOffer F A).2 := by
  unfold aisOffer
  split
  · rcases reassemble_cases F A with h | h | h | ⟨t, x, -, h⟩ <;> rw [h]
    · exact ⟨rfl, rfl, rfl⟩
    · exact rfl
    · exact ⟨rfl, rfl, rfl⟩
    · exact aisNext_message A t x _ _
  · exact ⟨rfl, rfl, rfl⟩

theorem aisLoop_message {m : Memory} {n : Nat} {F F' : Framer} {A A' : Ais} {r : Bool}
    (h : aisLoop m n F A = .ok (F', A', r)) : MessageAfter A A' r := by
  induction n generalizing F A with
  | zero =>
    simp only [aisLoop, Except.ok.injEq, Prod.mk.injEq] at h
    obtain ⟨-, rfl, rfl⟩ := h
    exact ⟨rfl, rfl, rfl⟩
  | succ n ih =>
    rw [aisLoop] at h
    rcases hrun : framerRun m 1 F with k | ⟨G, _ | _⟩
    · simp [hrun] at h
    · simp only [hrun, Except.ok.injEq, Prod.mk.injEq] at h
      obtain ⟨-, rfl, rfl⟩ := h
      exact ⟨rfl, rfl, rfl⟩
    · have hoffer := aisOffer_message G A
      simp only [hrun] at h
      rcases ho : aisOffer G A with ⟨B, _ | _⟩ <;> rw [ho] at h hoffer
      · have hrest := ih h
        cases r with
        | false => exact SameMessage.trans hoffer hrest
        | true => exact hrest
      · simp only [Except.ok.injEq, Prod.mk.injEq] at h
        obtain ⟨-, rfl, rfl⟩ := h
        exact hoffer

/-! ### Up to an unwritten byte -/

/-- A drain up to its first unwritten byte `k` is the drain of a buffer of `k` bytes, if that emits a message;
if not, it meets `k` (R150). -/
theorem aisRun_firstUnwritten {m : Memory} {F : Framer} (A : Ais) {k : Nat}
    (hk : FirstUnwritten m 1 F.pos.toNat F.len.toNat k) :
    ∃ G B r, aisRun m { F with len := BitVec.ofNat 13 k } A = .ok (G, B, r) ∧
      aisRun m F A = if r then .ok ({ G with len := F.len }, B, true) else .error k := by
  induction hd : F.len.toNat - F.pos.toNat using Nat.strong_induction_on generalizing F A with
  | _ d ih =>
    obtain ⟨G, r, hcut, hrun⟩ := framerRun_firstUnwritten hk
    obtain ⟨hlo, hhi, hnone, hwritten⟩ := hk
    have hlt := F.len.isLt
    have hcutlen : (BitVec.ofNat 13 k).toNat = k := toNat_ofNat_of_lt (by omega)
    have hspec := framerRun_spec m 1 { F with len := BitVec.ofNat 13 k } (hcutlen.symm ▸ hlo)
    rw [hcut] at hspec
    obtain ⟨-, hlen, -, -, hle, -, hfound, -⟩ := hspec
    rw [hcutlen] at hle
    rw [aisRun_eq m F A (by omega), aisRun_eq m { F with len := BitVec.ofNat 13 k } A (hcutlen.symm ▸ hlo),
      hcut, hrun]
    cases r with
    | false => exact ⟨G, A, false, rfl, rfl⟩
    | true =>
      have hgt : F.pos.toNat < G.pos.toNat := (hfound rfl).1
      have hsame : aisOffer { G with len := F.len } A = aisOffer G A := rfl
      simp only [if_true, hsame]
      rcases aisOffer G A with ⟨B, _ | _⟩
      · have hG : ({ G with len := BitVec.ofNat 13 k } : Framer) = G := by
          rw [show BitVec.ofNat 13 k = G.len from hlen.symm]
        obtain ⟨H, C, r, hcut', hrun'⟩ := ih (F.len.toNat - G.pos.toNat) (by omega)
          (F := { G with len := F.len }) B
          ⟨hle, hhi, hnone, fun j hj => hwritten j (Nat.le_trans hgt.le hj)⟩ rfl
        exact ⟨H, C, r, (congrArg (aisRun m · B) hG).symm.trans hcut', hrun'⟩
      · exact ⟨G, B, true, rfl, rfl⟩

/-! ### The feeds -/

/-- A new buffer that ends at `k` is one of any length cut there (R151). -/
theorem newBuffer_ofNat (F : Framer) (k : Nat) (len : Half) (r : Bool) :
    framerNewBuffer F (BitVec.ofNat 16 k) r =
      { framerNewBuffer F len r with len := BitVec.ofNat 13 k } := by
  rw [framerNewBuffer, BitVec.setWidth_ofNat_of_le (by decide)]
  rfl

section

variable {s : State} {w : Word} {F : Framer}

/-- A feed over written bytes completes (R150, R151). -/
theorem feedU1_written (hp : F.pos.toNat ≤ F.len.toNat) (hw : Written s.mem 1 F.pos.toNat F.len.toNat) :
    ∃ G A r, feedU1 w F s = .next { s with
        f1 := G, ais := A, res := { s.res with r0 := G.pos.setWidth 32 }, status := ⟨.ok, r, false⟩ } ∧
      G.valid = r ∧ G.start = F.start ∧ G.len = F.len ∧ F.pos.toNat ≤ G.pos.toNat ∧
      G.pos.toNat ≤ G.len.toNat ∧ (r = false → G.pos = G.len ∧ A.msg = s.ais.msg ∧
        A.msglen = s.ais.msglen ∧ A.msgvalid = s.ais.msgvalid) ∧ (r = true → A.msgvalid = true) := by
  obtain ⟨G, A, r, hrun⟩ := aisRun_of_written s.ais hp hw
  have hspec := aisLoop_spec s.mem (F.len.toNat - F.pos.toNat + 1) F s.ais hp (Nat.lt_succ_self _)
  rw [show aisLoop s.mem (F.len.toNat - F.pos.toNat + 1) F s.ais = .ok (G, A, r) from hrun] at hspec
  obtain ⟨hstart, hlen, hvalid, hge, hle, hend⟩ := hspec
  have hmsg : MessageAfter s.ais A r := aisLoop_message hrun
  refine ⟨G, A, r, feedU1_of_run hrun, hvalid, hstart, hlen, hge, hlen ▸ hle, fun hr => ?_, fun hr => ?_⟩
  · subst hr
    obtain ⟨h1, h2, h3⟩ := (show SameMessage s.ais A from hmsg)
    exact ⟨(hend rfl).trans hlen.symm, h1, h2, h3⟩
  · subst hr
    exact hmsg

/-- A feed up to its first unwritten byte `k` is the feed of a buffer of `k` bytes, if that emits a message;
if not, it is a model fault at `k` (R150, R151). -/
theorem feedU1_firstUnwritten {k : Nat} {w' : Word} {F' : Framer} {t : State}
    (hk : FirstUnwritten s.mem 1 F.pos.toNat F.len.toNat k)
    (ht : feedU1 w' { F with len := BitVec.ofNat 13 k } { s with f1 := F' } = .next t) :
    feedU1 w F s =
      if t.status.res then .next { t with f1 := { t.f1 with len := F.len } }
      else .next { s with faultMark := some (.unwrittenInput w k) } := by
  obtain ⟨G, B, r, hcut, hrun⟩ := aisRun_firstUnwritten s.ais hk
  rw [feedU1_of_run (s := { s with f1 := F' }) hcut] at ht
  obtain rfl := Host.Outcome.next.inj ht
  cases r with
  | true => exact feedU1_of_run hrun
  | false =>
    rw [feedU1, hrun]
    rfl

end

end Sys2Proof.Machine

namespace Sys2Proof.Proofs

open Sys2Proof.Machine Sys2Proof.Claims

/-- Settles O26: both feeds are one drain, from a new buffer and from the position in the old one. -/
theorem aisFeedsComplete : Obligations.AisFeedsComplete := by
  unfold Obligations.AisFeedsComplete
  intro s ua ub len
  refine ⟨fun hlen hw => ?_, fun hp hw => feedU1_written hp hw, rfl, fun hlen => if_pos hlen,
    fun k t hlen hk ht => ?_, fun k t hk ht => feedU1_firstUnwritten hk ht⟩
  · have hG := newBuffer_len hlen s.f1 Config.nmeaResetOnNewBuffer
    rw [exec_aisFeedn, execAisFeedn_ok ua s hlen]
    obtain ⟨F, A, r, hF, hvalid, hstart, hl, -, hle, hmsg⟩ :=
      feedU1_written (s := s) (w := encode (.aisFeedn ua len))
        (F := framerNewBuffer s.f1 len Config.nmeaResetOnNewBuffer) (Nat.zero_le _) (by rwa [hG])
    exact ⟨F, A, r, hF, hvalid, hstart, by rw [hl, hG], hle, hmsg⟩
  · have hlt : k < len.toNat := hk.2.1
    have hcut : (BitVec.ofNat 16 k).toNat ≤ 4096 := by
      rw [toNat_ofNat_of_lt (by omega)]
      omega
    rw [exec_aisFeedn, execAisFeedn_ok ua s hcut, newBuffer_ofNat s.f1 k len] at ht
    rw [exec_aisFeedn, execAisFeedn_ok ua s hlen]
    refine feedU1_firstUnwritten (F' := s.f1) ?_ ht
    rw [newBuffer_len hlen]
    exact hk

end Sys2Proof.Proofs
end

section
/-!
The rotate-XOR checksum of U2 (42_sigcsum.md R180, R190): rotations of a byte add up, so the checksum has its
closed form, and each byte enters through a bijection, so no change of one byte goes unseen.
-/

namespace Sys2Proof.Machine

open Sys2Proof.Claims

/-! ### Rotations of a byte -/

/-- Bit `i` of a rotated byte is the bit `r` places below, counted round the byte. -/
theorem getElem_rotateLeft_mod (x : Byte) (r : Nat) {i : Nat} (hi : i < 8) :
    (x.rotateLeft r)[i] = x[(i + 8 - r % 8) % 8] := by
  rw [BitVec.getElem_rotateLeft]
  split <;> (congr 1; omega)

theorem rotateLeft_rotateLeft (x : Byte) (a b : Nat) :
    (x.rotateLeft a).rotateLeft b = x.rotateLeft (a + b) := by
  ext i hi
  simp only [getElem_rotateLeft_mod]
  congr 1
  omega

theorem rotl2_eq_rotateLeft (x : Byte) : rotl2 x = x.rotateLeft 2 := rfl

theorem rotl2_rotateLeft (x : Byte) (n : Nat) : rotl2 (x.rotateLeft n) = x.rotateLeft (n + 2) :=
  rotateLeft_rotateLeft x n 2

theorem rotl2_xor (x y : Byte) : rotl2 (x ^^^ y) = rotl2 x ^^^ rotl2 y := by
  simp only [rotl2_eq_rotateLeft]
  ext i hi
  simp only [getElem_rotateLeft_mod, BitVec.getElem_xor]

/-- A rotated XOR of bytes is the XOR of the rotated bytes. -/
theorem rotl2_foldl_xor (f : Nat → Byte) (l : List Nat) :
    rotl2 (l.foldl (fun a j => a ^^^ f j) 0) = l.foldl (fun a j => a ^^^ rotl2 (f j)) 0 :=
  (List.foldl_hom (init := 0) rotl2 fun a j => (rotl2_xor a (f j)).symm).symm

/-- A full turn of a byte is the byte. -/
theorem rotateLeft_eight (x : Byte) : x.rotateLeft 8 = x := by
  ext i hi
  simp [BitVec.getElem_rotateLeft]

/-- Three more rotations undo `rotl2_8`. -/
theorem rotl2_injective : Function.Injective rotl2 :=
  Function.LeftInverse.injective (g := fun x => x.rotateLeft 6)
    fun x => (rotateLeft_rotateLeft x 2 6).trans (rotateLeft_eight x)

/-! ### The closed form -/

theorem rotXorAcc_append (a : Byte) (x y : List Byte) :
    rotXorAcc a (x ++ y) = rotXorAcc (rotXorAcc a x) y := List.foldl_append

/-- The closed form with its rotations not reduced modulo 8. -/
theorem rotXorClosed_eq (s : List Byte) : rotXorClosed s = (List.range s.length).foldl
    (fun a j => a ^^^ (s.getD j 0).rotateLeft (2 * (s.length - j))) 0 :=
  List.foldl_ext _ _ _ fun a _ _ => congrArg (a ^^^ ·) BitVec.rotateLeft_mod_eq_rotateLeft

/-- One byte more rotates every byte before it once more. -/
theorem rotXorClosed_concat (s : List Byte) (b : Byte) :
    rotXorClosed (s ++ [b]) = rotl2 (rotXorClosed s ^^^ b) := by
  have hbefore : (List.range s.length).foldl
      (fun a j => a ^^^ ((s ++ [b]).getD j 0).rotateLeft (2 * (s.length + 1 - j))) 0 =
      rotl2 (rotXorClosed s) := by
    rw [rotXorClosed_eq, rotl2_foldl_xor]
    refine List.foldl_ext _ _ _ fun a j hj => ?_
    have hlt : j < s.length := List.mem_range.1 hj
    rw [rotl2_rotateLeft, List.getD_append _ _ _ _ hlt,
      show 2 * (s.length + 1 - j) = 2 * (s.length - j) + 2 by omega]
  rw [rotXorClosed_eq, List.length_append, List.length_singleton, List.range_succ, List.foldl_append, hbefore,
    rotl2_xor]
  simp [rotl2_eq_rotateLeft]

/-- The accumulator with its last rotation is the closed form. -/
theorem rotl2_rotXorAcc (s : List Byte) : rotl2 (rotXorAcc 0 s) = rotXorClosed s := by
  induction s using List.reverseRecOn with
  | nil => rfl
  | append_singleton s b ih =>
    rw [rotXorClosed_concat, ← ih, rotXorAcc_append]
    rfl

theorem sigOf_eq_signature (S : Slot) : sigOf S = signature S := by
  have htop : S.size.toNat / 256 % 16 = S.size.toNat / 256 := Nat.mod_eq_of_lt (by omega)
  simp [sigOf, signature, hexDigit_eq_hexChar, Nat.shiftRight_eq_div_pow, htop]

theorem rotXor_eq_closed (S : Slot) (p : List Byte) : rotXor S p = rotXorClosed (signature S ++ p) := by
  rw [← sigOf_eq_signature]
  exact rotl2_rotXorAcc _

/-! ### A changed byte -/

/-- Each step of the accumulator keeps a difference. -/
theorem rotXorAcc_injective (s : List Byte) : Function.Injective (rotXorAcc · s) := by
  induction s with
  | nil => exact Function.injective_id
  | cons b s ih => exact fun a a' h => rotl2_injective ((BitVec.xor_left_inj b).1 (ih h))

/-- The checksum depends on each payload byte by a bijection (R190). -/
theorem rotXor_changed (S : Slot) (p p' : List Byte) {b b' : Byte} (h : b ≠ b') :
    rotXor S (p ++ b :: p') ≠ rotXor S (p ++ b' :: p') := by
  intro heq
  have hacc := rotl2_injective heq
  simp only [← List.append_assoc, rotXorAcc_append _ (sigOf S ++ p)] at hacc
  exact h ((BitVec.xor_right_inj _).1 (rotXorAcc_injective p' hacc))

theorem rotXor_set (S : Slot) {p : List Byte} {j : Nat} {b : Byte} (hj : j < p.length) (hb : p[j]? ≠ some b) :
    rotXor S (p.set j b) ≠ rotXor S p := by
  have hp : p = p.take j ++ p[j] :: p.drop (j + 1) := by simp
  have hset : p.set j b = p.take j ++ b :: p.drop (j + 1) := by simp [List.set_eq_take_append_cons_drop, hj]
  rw [hset]
  conv_rhs => rw [hp]
  exact rotXor_changed S _ _ fun h => hb (by rw [List.getElem?_eq_getElem hj, h])

/-- A frame with one payload byte changed is no valid frame (R190). -/
theorem frameAtHead_set {S : Slot} {buf : List Byte} {j : Nat} {b : Byte} (h : frameAtHead S buf = true)
    (h5 : 5 ≤ j) (hj : j < 5 + S.size.toNat) (hb : buf[j]? ≠ some b) : frameAtHead S (buf.set j b) = false := by
  obtain ⟨hlen, -, hcs⟩ := (frameAtHead_iff S buf).1 h
  unfold frameLen at hlen
  refine Bool.eq_false_iff.2 fun h' => ?_
  obtain ⟨-, -, hcs'⟩ := (frameAtHead_iff S _).1 h'
  rw [List.getElem?_set_ne (by omega), hcs, List.drop_set, if_neg (by omega), List.take_set] at hcs'
  refine rotXor_set S (b := b) (j := j - 5) ?_ ?_ (Option.some.inj hcs').symm
  · rw [List.length_take, List.length_drop]
    omega
  · rwa [List.getElem?_take_of_lt (by omega), List.getElem?_drop, Nat.add_sub_cancel' h5]

end Sys2Proof.Machine

namespace Sys2Proof.Proofs

open Sys2Proof.Machine

/-- Settles O40: the accumulator unrolls to the closed form, and each of its steps is injective. -/
theorem rotXorClosedFormDetects : Obligations.RotXorClosedFormDetects := by
  unfold Obligations.RotXorClosedFormDetects
  exact ⟨rotXor_eq_closed, fun S p p' _ _ => rotXor_changed S p p', fun _ _ _ _ => frameAtHead_set⟩

end Sys2Proof.Proofs
end

section
/-!
U2's commands (42_sigcsum.md R181 to R187): the frame test against the frame in the window, what both scans
answer on written and on unwritten bytes, and the slot each command leaves.
-/

namespace Sys2Proof.Machine

open Sys2Proof.Claims

/-! ### Slots -/

theorem slotGet_slotSet_self (v : Vector Slot 8) {k : Nat} (hk : k < 8) (S : Slot) :
    slotGet (slotSet v k S) k = S := by
  rw [slotGet_slotSet, if_pos ⟨rfl, hk⟩]

theorem slotGet_slotSet_ne (v : Vector Slot 8) {k j : Nat} (hj : j ≠ k) (S : Slot) :
    slotGet (slotSet v k S) j = slotGet v j := by
  rw [slotGet_slotSet, if_neg fun h => hj h.1]

/-- The record takes the payload from its first byte on and keeps what lies behind it (R183). -/
theorem accepted_sigAccept (S : Slot) (p : List Byte) : Accepted S (sigAccept S p) p :=
  ⟨rfl, bufRead_bufWrite_self S.record 0 p, fun j hj => by
    rw [sigAccept, bufGet_bufWrite, if_neg (by omega)]⟩

theorem slotsAccepted_slotSet (v : Vector Slot 8) {k : Nat} (hk : k < 8) (p : List Byte) :
    SlotsAccepted v (slotSet v k (sigAccept (slotGet v k) p)) k p := by
  refine ⟨?_, fun j hj => slotGet_slotSet_ne v hj _⟩
  rw [slotGet_slotSet_self v hk]
  exact accepted_sigAccept _ p

/-! ### A frame in the window -/

section

variable {m : Memory} {u i : Nat} {t : List Byte}

theorem holds_drop (h : Holds m u i t) (j : Nat) : Holds m u (i + j) (t.drop j) := fun k hk => by
  rw [List.length_drop] at hk
  rw [Nat.add_assoc, h (j + k) (by omega), List.getElem?_drop]

/-- A string no longer than the one the window holds is held too exactly when it begins that one. -/
theorem holds_iff_take (h : Holds m u i t) {x : List Byte} (hx : x.length ≤ t.length) :
    Holds m u i x ↔ t.take x.length = x := by
  constructor
  · intro hxs
    refine List.ext_getElem? fun j => ?_
    rw [List.getElem?_take]
    split
    · rename_i hj
      rw [← h j (by omega), hxs j hj]
    · exact (List.getElem?_eq_none (by omega)).symm
  · intro hxs j hj
    rw [h j (by omega), ← hxs, List.getElem?_take_of_lt hj]

/-- The frame test on what the window holds from offset `i` to its end is the frame at `i` (R181). -/
theorem frameAt_iff_head {S : Slot} {L : Nat} {p : List Byte} (ht : Holds m 2 i t) (hlen : t.length = L - i) :
    FrameAt m S L i p ↔ frameAtHead S t = true ∧ p = (t.drop 5).take S.size.toNat := by
  rw [frameAtHead_iff, frameLen, sigOf_eq_signature, FrameAt]
  by_cases hfit : i + S.size.toNat + 6 ≤ L
  case neg =>
    have hshort : ¬ S.size.toNat + 6 ≤ t.length := by omega
    simp only [hfit, hshort, false_and]
  case pos =>
    have hbyte : inByte m 2 (i + 5 + S.size.toNat) = t[5 + S.size.toNat]? := by
      rw [Nat.add_assoc, ht _ (by omega)]
    have hsig : Holds m 2 i (signature S) ↔ t.take 5 = signature S :=
      holds_iff_take ht (show 5 ≤ t.length by omega)
    have hpay (hp : p.length = S.size.toNat) :
        Holds m 2 (i + 5) p ↔ (t.drop 5).take S.size.toNat = p := by
      rw [← hp]
      exact holds_iff_take (holds_drop ht 5) (by rw [List.length_drop]; omega)
    rw [hsig, hbyte]
    constructor
    · rintro ⟨-, hp, hs, hh, hc⟩
      have hpt := (hpay hp).1 hh
      exact ⟨⟨by omega, hs, by rw [hpt, rotXor_eq_closed, hc]⟩, hpt.symm⟩
    · rintro ⟨⟨-, hs, hc⟩, hpt⟩
      have hp : p.length = S.size.toNat := by
        rw [hpt, List.length_take, List.length_drop]
        omega
      exact ⟨hfit, hp, hs, (hpay hp).2 hpt.symm, by rw [hc, ← hpt, rotXor_eq_closed]⟩

/-- The frame test at any place of a string the window holds from `i` to its end. -/
theorem frameAt_iff {S : Slot} {L j : Nat} {p : List Byte} (ht : Holds m 2 i t) (hlen : t.length = L - i)
    (hj : i ≤ j) : FrameAt m S L j p ↔
      frameAtHead S (t.drop (j - i)) = true ∧ p = (t.drop (j - i + 5)).take S.size.toNat := by
  have htail : Holds m 2 j (t.drop (j - i)) := by simpa [hj] using holds_drop ht (j - i)
  rw [frameAt_iff_head htail (by rw [List.length_drop]; omega), List.drop_drop]

theorem frameAtHead_eq_false {S : Slot} {L j : Nat} (ht : Holds m 2 i t) (hlen : t.length = L - i)
    (hj : i ≤ j) (hno : ∀ p, ¬ FrameAt m S L j p) : frameAtHead S (t.drop (j - i)) = false :=
  Bool.eq_false_iff.2 fun h => hno _ ((frameAt_iff ht hlen hj).2 ⟨h, rfl⟩)

end

/-! ### The two searches -/

section

variable {S : Slot} {base i : Nat} {buf : List Byte}

theorem firstFrame_eq_none (h : ∀ j, frameAtHead S (buf.drop j) = false) : firstFrame S base buf = none := by
  have hspec := firstFrame_spec S base buf
  rcases hr : firstFrame S base buf with _ | i
  · rfl
  · rw [hr] at hspec
    exact absurd hspec.2.1 (by rw [h]; decide)

theorem firstFrame_eq_some (hi : base ≤ i) (hframe : frameAtHead S (buf.drop (i - base)) = true)
    (hmin : ∀ j, base ≤ j → j < i → frameAtHead S (buf.drop (j - base)) = false) :
    firstFrame S base buf = some i := by
  have hspec := firstFrame_spec S base buf
  rcases hr : firstFrame S base buf with _ | i'
  · rw [hr] at hspec
    exact absurd hframe (by rw [hspec]; decide)
  · rw [hr] at hspec
    obtain ⟨hle, hframe', hmin'⟩ := hspec
    rcases Nat.lt_trichotomy i i' with hlt | rfl | hlt
    · exact absurd hframe (by rw [hmin' i hi hlt]; decide)
    · rfl
    · exact absurd hframe' (by rw [hmin i' hle hlt]; decide)

theorem lastFrame_eq_none (h : ∀ j, frameAtHead S (buf.drop j) = false) : lastFrame S base buf = none := by
  have hspec := lastFrame_spec S base buf
  rcases hr : lastFrame S base buf with _ | i
  · rfl
  · rw [hr] at hspec
    exact absurd hspec.2.1 (by rw [h]; decide)

theorem lastFrame_eq_some (hframe : frameAtHead S (buf.drop (i - base)) = true)
    (hmax : ∀ j, i < j → frameAtHead S (buf.drop (j - base)) = false) : lastFrame S base buf = some i := by
  have hspec := lastFrame_spec S base buf
  rcases hr : lastFrame S base buf with _ | i'
  · rw [hr] at hspec
    exact absurd hframe (by rw [hspec]; decide)
  · rw [hr] at hspec
    obtain ⟨-, hframe', hmax'⟩ := hspec
    rcases Nat.lt_trichotomy i i' with hlt | rfl | hlt
    · exact absurd hframe' (by rw [hmax i' hlt]; decide)
    · rfl
    · exact absurd hframe (by rw [hmax' i hlt]; decide)

end

/-! ### SIG.SCAN and SIG.LATEST -/

/-- SIG.SCAN and SIG.LATEST as one command, the command word being `w`: `find` is the search of the one or of the
other, `a` the offset it starts from (R185, R186). -/
def scanCommand (w : Word) (find : Slot → Nat → List Byte → Option Nat) (a : Nat) (k : Byte) (len : Half)
    (s : State) : Result :=
  if k.toNat ≥ Config.sigSlots ∨ len.toNat > Config.inCap then .next (s.fail .badArg)
  else if ¬ (slotGet s.slots k.toNat).reg then .next (s.fail .badArg)
  else match inBytes s.mem 2 a (len.toNat - a) with
    | .error i => .next (s.modelFault (.unwrittenInput w i))
    | .ok buf => .next (scanResult k.toNat a buf (find (slotGet s.slots k.toNat) a buf) s)

theorem execSigScan_eq (k : Byte) (len : Half) (s : State) : execSigScan k len s =
    scanCommand (encode (.sigScan k len)) firstFrame s.args.a0.toNat k len s := rfl

theorem execSigLatest_eq (k : Byte) (len : Half) (s : State) : execSigLatest k len s =
    scanCommand (encode (.sigLatest k len)) lastFrame 0 k len s := rfl

section

variable {s : State} {w : Word} {find : Slot → Nat → List Byte → Option Nat} {a : Nat} {k : Byte} {len : Half}

theorem scanCommand_badArg (h : 8 ≤ k.toNat ∨ 4096 < len.toNat ∨ (slotGet s.slots k.toNat).reg = false) :
    scanCommand w find a k len s = .next (s.fail .badArg) := by
  unfold scanCommand
  split
  · rfl
  · rename_i hn
    obtain ⟨hk, hlen⟩ := not_or.1 hn
    have hreg := (h.resolve_left hk).resolve_left hlen
    exact if_pos (by simp [hreg])

variable (hk : k.toNat < 8) (hlen : len.toNat ≤ 4096)
include hk hlen

theorem scanOperands_ok : ¬ (k.toNat ≥ Config.sigSlots ∨ len.toNat > Config.inCap) :=
  not_or.2 ⟨Nat.not_le.2 hk, Nat.not_lt.2 hlen⟩

variable (hreg : (slotGet s.slots k.toNat).reg = true)
include hreg

theorem scanCommand_error {i : Nat} (hr : inBytes s.mem 2 a (len.toNat - a) = .error i) :
    scanCommand w find a k len s = .next (s.modelFault (.unwrittenInput w i)) := by
  rw [scanCommand, if_neg (scanOperands_ok hk hlen), if_neg (not_not.2 hreg), hr]

theorem scanCommand_ok {buf : List Byte} (hr : inBytes s.mem 2 a (len.toNat - a) = .ok buf) :
    scanCommand w find a k len s =
      .next (scanResult k.toNat a buf (find (slotGet s.slots k.toNat) a buf) s) := by
  rw [scanCommand, if_neg (scanOperands_ok hk hlen), if_neg (not_not.2 hreg), hr]

/-- Written bytes are searched. -/
theorem scanCommand_written (h : Written s.mem 2 a len.toNat) : ∃ buf, buf.length = len.toNat - a ∧
    Holds s.mem 2 a buf ∧ scanCommand w find a k len s =
      .next (scanResult k.toNat a buf (find (slotGet s.slots k.toNat) a buf) s) := by
  obtain ⟨buf, hr, hl, hbuf⟩ := inBytes_of_written (m := s.mem) (u := 2) (i := a) (n := len.toNat - a)
    fun j hj hjL => h j hj (by omega)
  exact ⟨buf, hl, fun j hj => hbuf j (hl ▸ hj), scanCommand_ok hk hlen hreg hr⟩

/-- An unwritten byte in the range is a model fault, and such a byte is the one recorded. -/
theorem scanCommand_unwritten (h : ¬ Written s.mem 2 a len.toNat) : ∃ i, a ≤ i ∧ i < len.toNat ∧
    inByte s.mem 2 i = none ∧
    scanCommand w find a k len s = .next (s.modelFault (.unwrittenInput w i)) := by
  have hspec := inBytes_spec s.mem 2 a (len.toNat - a)
  rcases hr : inBytes s.mem 2 a (len.toNat - a) with i | buf
  · rw [hr] at hspec
    obtain ⟨hle, hlt, hnone, -⟩ := hspec
    exact ⟨i, hle, by omega, hnone, scanCommand_error hk hlen hreg hr⟩
  · rw [hr] at hspec
    obtain ⟨hl, hbuf⟩ := hspec
    refine absurd (fun j hj hjL => ?_) h
    rw [← Nat.add_sub_cancel' hj, hbuf _ (by omega), List.getElem?_eq_getElem (by omega)]
    exact Option.some_ne_none _

/-- A buffer with no frame in it ends in not found. -/
theorem scanCommand_notFound (h : Written s.mem 2 a len.toNat)
    (hno : ∀ i p, a ≤ i → ¬ FrameAt s.mem (slotGet s.slots k.toNat) len.toNat i p)
    (hfind : ∀ buf : List Byte, (∀ j, frameAtHead (slotGet s.slots k.toNat) (buf.drop j) = false) →
      find (slotGet s.slots k.toNat) a buf = none) :
    scanCommand w find a k len s = .next ((s.setRes01 0xFFFFFFFF 0xFFFFFFFF).finish false false) := by
  obtain ⟨buf, hl, hbuf, hs⟩ := scanCommand_written hk hlen hreg h
  rw [hs, hfind buf fun j => ?_, scanResult]
  have hfalse := frameAtHead_eq_false hbuf hl (Nat.le_add_right a j) fun p => hno _ p (Nat.le_add_right a j)
  rwa [Nat.add_sub_cancel_left] at hfalse

/-- The frame the search finds is accepted (R183). -/
theorem scanCommand_found {i : Nat} {p : List Byte} (h : Written s.mem 2 a len.toNat) (hi : a ≤ i)
    (hframe : FrameAt s.mem (slotGet s.slots k.toNat) len.toNat i p)
    (hfind : ∀ buf : List Byte, Holds s.mem 2 a buf → buf.length = len.toNat - a →
      find (slotGet s.slots k.toNat) a buf = some i) :
    ∃ v, scanCommand w find a k len s = .next { s with
        slots := v
        res := { s.res with
          r0 := BitVec.ofNat 32 (i + (slotGet s.slots k.toNat).size.toNat + 6), r1 := BitVec.ofNat 32 i }
        status := ⟨.ok, true, false⟩ } ∧
      SlotsAccepted s.slots v k.toNat p := by
  obtain ⟨buf, hl, hbuf, hs⟩ := scanCommand_written hk hlen hreg h
  obtain ⟨-, rfl⟩ := (frameAt_iff hbuf hl hi).1 hframe
  rw [hs, hfind buf hbuf hl]
  exact ⟨_, rfl, slotsAccepted_slotSet s.slots hk _⟩

end

/-! ### SIG.REG and SIG.CLR -/

section

variable {s : State} {k : Byte} {size : Half}

/-- The slot SIG.REG leaves (R184). -/
def registeredSlot (x : Args) (size : Half) : Slot :=
  ⟨true, BitVec.ofNat 8 x.a0.toNat, BitVec.ofNat 8 (x.a0.toNat / 256), BitVec.ofNat 12 size.toNat, false, []⟩

theorem execSigReg_badArg (h : 8 ≤ k.toNat ∨ 4095 < size.toNat) :
    execSigReg k size s = .next (s.fail .badArg) := if_pos h

theorem execSigReg_ok (hk : k.toNat < 8) (hsize : size.toNat ≤ 4095) : execSigReg k size s =
    .next { s with
      slots := slotSet s.slots k.toNat (registeredSlot s.args size), status := ⟨.ok, true, false⟩ } := by
  have hok : ¬ (k.toNat ≥ Config.sigSlots ∨ size.toNat > Config.sigMaxSize) :=
    not_or.2 ⟨Nat.not_le.2 hk, Nat.not_lt.2 hsize⟩
  have h0 : sigName0 s.args = BitVec.ofNat 8 s.args.a0.toNat :=
    (byteLane_eq_ofNat s.args.a0 0).trans (by rw [Nat.pow_zero, Nat.div_one])
  have h1 : sigName1 s.args = BitVec.ofNat 8 (s.args.a0.toNat / 256) := byteLane_eq_ofNat s.args.a0 1
  rw [execSigReg, if_neg hok, h0, h1, registeredSlot, BitVec.ofNat_toNat 12]
  rfl

theorem execSigClr_badArg (h : 8 ≤ k.toNat) : execSigClr k s = .next (s.fail .badArg) := if_pos h

theorem execSigClr_ok (hk : k.toNat < 8) : execSigClr k s = .next { s with
    slots := slotSet s.slots k.toNat { slotGet s.slots k.toNat with present := false }
    res := { s.res with r0 := if (slotGet s.slots k.toNat).present then 1 else 0 }
    status := ⟨.ok, true, false⟩ } := if_neg (Nat.not_le.2 hk)

end

end Sys2Proof.Machine

namespace Sys2Proof.Proofs

open Sys2Proof.Machine

/-- Settles O37: each command replaces its slot and no other one. -/
theorem sigRegisterAndClear : Obligations.SigRegisterAndClear := by
  unfold Obligations.SigRegisterAndClear
  intro k size ub s
  rw [exec_sigReg, exec_sigClr]
  exact ⟨Laws.OpcodeByte.sigReg k size, Laws.OpcodeByte.sigClr k ub, execSigReg_badArg,
    fun hk hsize => ⟨_, execSigReg_ok hk hsize, slotGet_slotSet_self _ hk _,
      fun j hj => slotGet_slotSet_ne _ hj _⟩,
    execSigClr_badArg,
    fun hk => ⟨_, execSigClr_ok hk, slotGet_slotSet_self _ hk _, fun j hj => slotGet_slotSet_ne _ hj _⟩⟩

/-- Settles O38: the bytes searched are the window's, a frame in them is a frame in the window, and the forward
search finds the least offset. -/
theorem sigScanFindsFirst : Obligations.SigScanFindsFirst := by
  unfold Obligations.SigScanFindsFirst
  intro k len s S start L
  rw [exec_sigScan, execSigScan_eq]
  refine ⟨Laws.OpcodeByte.sigScan k len, scanCommand_badArg, fun hk hlen hreg =>
    ⟨fun _ => scanCommand_unwritten hk hlen hreg,
      fun hw hno => scanCommand_notFound hk hlen hreg hw hno fun _ => firstFrame_eq_none,
      fun i p hw hi hframe hmin => scanCommand_found hk hlen hreg hw hi hframe fun buf hbuf hl => ?_⟩⟩
  exact firstFrame_eq_some hi ((frameAt_iff hbuf hl hi).1 hframe).1
    fun j hj hji => frameAtHead_eq_false hbuf hl hj fun p' => hmin j p' hj hji

/-- Settles O39: as for the forward scan, with the search that finds the greatest offset. -/
theorem sigLatestFindsLast : Obligations.SigLatestFindsLast := by
  unfold Obligations.SigLatestFindsLast
  intro k len s S L
  rw [exec_sigLatest, execSigLatest_eq]
  refine ⟨Laws.OpcodeByte.sigLatest k len, scanCommand_badArg, fun hk hlen hreg =>
    ⟨fun _ hw => ?_,
      fun hw hno => scanCommand_notFound hk hlen hreg hw (fun i p _ => hno i p) fun _ => lastFrame_eq_none,
      fun i p hw hframe hmax => scanCommand_found hk hlen hreg hw (Nat.zero_le i) hframe fun buf hbuf hl => ?_⟩⟩
  · obtain ⟨i, -, h⟩ := scanCommand_unwritten hk hlen hreg hw
    exact ⟨i, h⟩
  · exact lastFrame_eq_some ((frameAt_iff hbuf hl (Nat.zero_le i)).1 hframe).1
      fun j hj => frameAtHead_eq_false hbuf hl (Nat.zero_le j) fun p' => hmax j p' hj

end Sys2Proof.Proofs
end

section
/-!
The slots of U2 are independent (42_sigcsum.md R188): what a command on slot `k` answers is said once, for
every content of the other slots together.
-/

namespace Sys2Proof.Machine

/-- Slot `k` is all the command sees of the slots and all it writes of them: in every state that differs from
`s` in other slots alone it leaves the same slot `k`, RES, STATUS and fault mark, and nothing else changed. -/
def ActsOnSlot (k : Nat) (s : State) (command : State → Result) : Prop :=
  ∃ S x st f, ∀ v, slotGet v k = slotGet s.slots k → command { s with slots := v } =
    .next { s with slots := slotSet v k S, res := x, status := st, faultMark := f }

theorem slotSet_slotGet (v : Vector Slot 8) (k : Nat) : slotSet v k (slotGet v k) = v := by
  refine Vector.ext fun i hi => ?_
  by_cases h : k = i
  · subst h
    simp [slotSet, slotGet, hi]
  · simp [slotSet, h]

section

variable {s : State} {k : Nat} {command : State → Result}

/-- A command that leaves the slots. -/
theorem ActsOnSlot.of_kept {x : Results} {st : Status} {f : Option ModelFault}
    (h : ∀ v, slotGet v k = slotGet s.slots k → command { s with slots := v } =
      .next { s with slots := v, res := x, status := st, faultMark := f }) : ActsOnSlot k s command :=
  ⟨slotGet s.slots k, x, st, f, fun v hv => by rw [h v hv, ← hv, slotSet_slotGet]⟩

variable (h : ActsOnSlot k s command)
include h

/-- What a command on slot `k` changes (R188). -/
theorem ActsOnSlot.frame {t : State} (ht : command s = .next t) :
    t = { s with slots := t.slots, res := t.res, status := t.status, faultMark := t.faultMark } ∧
      ∀ j, j ≠ k → slotGet t.slots j = slotGet s.slots j := by
  obtain ⟨S, x, st, f, hc⟩ := h
  obtain rfl := Host.Outcome.next.inj ((hc s.slots rfl).symm.trans ht)
  exact ⟨rfl, fun j hj => slotGet_slotSet_ne _ hj S⟩

/-- Other slots make no difference to a command on slot `k` (R188). -/
theorem ActsOnSlot.others {t : State} {v : Vector Slot 8} (ht : command s = .next t)
    (hv : slotGet v k = slotGet s.slots k) : ∃ t', command { s with slots := v } = .next t' ∧
      t' = { t with slots := t'.slots } ∧ slotGet t'.slots k = slotGet t.slots k := by
  obtain ⟨S, x, st, f, hc⟩ := h
  obtain rfl := Host.Outcome.next.inj ((hc s.slots rfl).symm.trans ht)
  refine ⟨_, hc v hv, rfl, ?_⟩
  rw [slotGet_slotSet, slotGet_slotSet, hv]

end

/-! ### The four commands -/

section

variable (s : State) (k : Byte)

theorem execSigReg_actsOnSlot (size : Half) : ActsOnSlot k.toNat s (execSigReg k size) := by
  by_cases h : 8 ≤ k.toNat ∨ 4095 < size.toNat
  · exact .of_kept fun v _ => execSigReg_badArg h
  · obtain ⟨hk, hsize⟩ := not_or.1 h
    exact ⟨registeredSlot s.args size, s.res, ⟨.ok, true, false⟩, s.faultMark,
      fun v _ => execSigReg_ok (Nat.not_le.1 hk) (Nat.not_lt.1 hsize)⟩

theorem execSigClr_actsOnSlot : ActsOnSlot k.toNat s (execSigClr k) := by
  by_cases h : 8 ≤ k.toNat
  · exact .of_kept fun v _ => execSigClr_badArg h
  · refine ⟨{ slotGet s.slots k.toNat with present := false },
      { s.res with r0 := if (slotGet s.slots k.toNat).present then 1 else 0 }, ⟨.ok, true, false⟩, s.faultMark,
      fun v hv => ?_⟩
    rw [execSigClr_ok (Nat.not_le.1 h), hv]

theorem scanResult_actsOnSlot (k a : Nat) (buf : List Byte) (find : Slot → Nat → List Byte → Option Nat) :
    ActsOnSlot k s fun t => .next (scanResult k a buf (find (slotGet t.slots k) a buf) t) := by
  rcases hf : find (slotGet s.slots k) a buf with _ | i
  · refine .of_kept (x := { s.res with r0 := 0xFFFFFFFF, r1 := 0xFFFFFFFF }) (st := ⟨.ok, false, false⟩)
      (f := s.faultMark) fun v hv => ?_
    rw [hv, hf]
    rfl
  · refine ⟨sigAccept (slotGet s.slots k) ((buf.drop (i - a + 5)).take (slotGet s.slots k).size.toNat),
      { s.res with r0 := BitVec.ofNat 32 (i + frameLen (slotGet s.slots k)), r1 := BitVec.ofNat 32 i },
      ⟨.ok, true, false⟩, s.faultMark, fun v hv => ?_⟩
    beta_reduce
    rw [hv, hf, scanResult, hv]
    rfl

/-- The buffer a scan searches is no slot's, and of the slots the search sees the command's own. -/
theorem scanCommand_actsOnSlot (w : Word) (find : Slot → Nat → List Byte → Option Nat) (a : Nat) (len : Half) :
    ActsOnSlot k.toNat s (scanCommand w find a k len) := by
  by_cases h : 8 ≤ k.toNat ∨ 4096 < len.toNat ∨ (slotGet s.slots k.toNat).reg = false
  · exact .of_kept fun v hv => scanCommand_badArg (by rwa [hv])
  · simp only [not_or, Nat.not_le, Nat.not_lt, Bool.not_eq_false] at h
    obtain ⟨hk, hlen, hreg⟩ := h
    rcases hr : inBytes s.mem 2 a (len.toNat - a) with i | buf
    · exact .of_kept fun v hv => scanCommand_error hk hlen (by rwa [hv]) hr
    · obtain ⟨S, x, st, f, hc⟩ := scanResult_actsOnSlot s k.toNat a buf find
      refine ⟨S, x, st, f, fun v hv => ?_⟩
      exact (scanCommand_ok (s := { s with slots := v }) hk hlen (by rwa [hv]) hr).trans (hc v hv)

theorem execSigScan_actsOnSlot (len : Half) : ActsOnSlot k.toNat s (execSigScan k len) :=
  scanCommand_actsOnSlot s k (encode (.sigScan k len)) firstFrame s.args.a0.toNat len

theorem execSigLatest_actsOnSlot (len : Half) : ActsOnSlot k.toNat s (execSigLatest k len) :=
  scanCommand_actsOnSlot s k (encode (.sigLatest k len)) lastFrame 0 len

end

end Sys2Proof.Machine

namespace Sys2Proof.Proofs

open Sys2Proof.Machine

/-- Settles O41: each of the four commands acts on its slot. -/
theorem sigSlotsAreIndependent : Obligations.SigSlotsAreIndependent := by
  unfold Obligations.SigSlotsAreIndependent
  intro k i s s' t hi ht
  have hact : ActsOnSlot k.toNat s (exec i) := by
    rcases hi with ⟨size, rfl⟩ | ⟨len, rfl⟩ | ⟨len, rfl⟩ | ⟨ub, rfl⟩
    · exact execSigReg_actsOnSlot s k size
    · exact execSigScan_actsOnSlot s k len
    · exact execSigLatest_actsOnSlot s k len
    · exact execSigClr_actsOnSlot s k
  obtain ⟨hframe, hother⟩ := hact.frame ht
  refine ⟨hframe, hother, fun hs' hv => ?_⟩
  rw [hs']
  exact hact.others ht hv

end Sys2Proof.Proofs
end

section
/-!
U3's loops (43_crc32_framer.md R211, R216): the equations of `Run` and `Feed` without their bounds, the
mailbox through a feed, and U3 at rest when a command ends (R225).
-/

namespace Sys2Proof.Machine

open Sys2Proof.Claims

/-! ### A turn, by the state it is taken in -/

section

variable {c : Crc}

/-- The bytes from the search position on that a turn needs (R212 to R214). -/
def crcNeed (c : Crc) : Nat :=
  match c.st with
  | .seek => 3
  | .hdr => 24
  | .ver => crcFrameLen c

theorem crcStep_seek (hst : c.st = .seek) (ha : 3 ≤ crcAvail c) : crcStep c =
    some (if bufRead c.acc c.pos.toNat 3 = Config.crcPreamble then { c with st := .hdr }
      else crcAdvance c 1, 0) := by
  simp only [crcStep, hst, if_neg (Nat.not_lt.2 ha)]
  split <;> rfl

theorem crcStep_hdr (hst : c.st = .hdr) (ha : 24 ≤ crcAvail c) : crcStep c =
    some (if ((crcLatch c).mid, (crcLatch c).plen) ∈ Config.crcWhitelist then { crcLatch c with st := .ver }
      else crcReject (crcLatch c), 0) := by
  simp only [crcStep, hst, if_neg (show ¬ crcAvail c < Config.crcHdrLen from Nat.not_lt.2 ha)]
  split <;> rfl

theorem crcStep_ver (hst : c.st = .ver) (ha : crcFrameLen c ≤ crcAvail c) : crcStep c =
    if frameCrcOk (bufRead c.acc c.pos.toNat (crcFrameLen c)) then
      some (crcDeliver c (bufRead c.acc c.pos.toNat (crcFrameLen c)), 1)
    else some (crcReject c, 0) := by
  simp only [crcStep, hst, if_neg (Nat.not_lt.2 ha)]

/-- `Run` waits exactly where the bytes a turn needs are not all there. -/
theorem crcStep_eq_none_iff : crcStep c = none ↔ crcAvail c < crcNeed c := by
  constructor
  · intro h
    by_contra hn
    have hn := Nat.not_lt.1 hn
    unfold crcNeed at hn
    rcases hst : c.st with _ | _ | _ <;> rw [hst] at hn
    · rw [crcStep_seek hst hn] at h
      cases h
    · rw [crcStep_hdr hst hn] at h
      cases h
    · rw [crcStep_ver hst hn] at h
      split at h <;> cases h
  · intro h
    unfold crcNeed at h
    rcases hst : c.st with _ | _ | _ <;> rw [hst] at h
    · simp only [crcStep, hst, if_pos h]
    · simp only [crcStep, hst, if_pos (show crcAvail c < Config.crcHdrLen from h)]
    · simp only [crcStep, hst, if_pos h]

theorem crcNeed_le_of_step {d : Crc} {k : Nat} (h : crcStep c = some (d, k)) : crcNeed c ≤ crcAvail c :=
  Nat.not_lt.1 fun hlt => by
    rw [crcStep_eq_none_iff.2 hlt] at h
    cases h

end

/-! ### Run -/

/-- The count of frames so far is added to. -/
theorem crcTurns_count (n : Nat) (c : Crc) (d : Nat) :
    crcTurns n c d = ((crcTurns n c 0).1, d + (crcTurns n c 0).2) := by
  induction n generalizing c d with
  | zero => rfl
  | succ n ih =>
    rw [crcTurns, crcTurns]
    rcases crcStep c with _ | ⟨c', k⟩
    · rfl
    · simp only
      rw [ih c' (d + k), ih c' (0 + k)]
      simp [Nat.add_assoc]

/-- Two bounds above the measure give the same: neither is used up. -/
theorem crcTurns_bound {n m : Nat} {c : Crc} (hn : crcMeasure c < n) (hm : crcMeasure c < m) (d : Nat) :
    crcTurns n c d = crcTurns m c d := by
  induction n generalizing m c d with
  | zero => omega
  | succ n ih =>
    obtain ⟨m, rfl⟩ : ∃ k, m = k + 1 := ⟨m - 1, by omega⟩
    rw [crcTurns, crcTurns]
    rcases hs : crcStep c with _ | ⟨c', k⟩
    · rfl
    · have := crcStep_measure hs
      exact ih (by omega) (by omega) (d + k)

theorem crcMeasure_lt_bound (c : Crc) : crcMeasure c < 3 * crcAvail c + 3 := by
  unfold crcMeasure
  cases c.st <;> simp only <;> omega

/-- A turn of `Run`, then the rest of `Run` (R211). -/
theorem crcRun_of_step {c c' : Crc} {k : Nat} (h : crcStep c = some (c', k)) :
    crcRun c = ((crcRun c').1, k + (crcRun c').2) := by
  have hm := crcStep_measure h
  have hc := crcMeasure_lt_bound c
  rw [crcRun, crcTurns, h]
  simp only
  rw [crcTurns_count, crcTurns_bound (by omega) (crcMeasure_lt_bound c'), Nat.zero_add, ← crcRun]

theorem crcRun_eq (c : Crc) : crcRun c = match crcStep c with
    | none => (c, 0)
    | some (c', k) => ((crcRun c').1, k + (crcRun c').2) := by
  rcases h : crcStep c with _ | ⟨c', k⟩
  · exact crcRun_of_waits h
  · exact crcRun_of_step h

/-- Induction along `Run`: a claim about states holds of `c` if it holds wherever `Run` waits, and holds
before a turn when it holds behind it. -/
theorem crcRun_induction {P : Crc → Prop} (waits : ∀ c, crcStep c = none → P c)
    (turn : ∀ c c' k, crcStep c = some (c', k) → P c' → P c) (c : Crc) : P c := by
  rcases h : crcStep c with _ | ⟨c', k⟩
  · exact waits c h
  · exact turn c c' k h (crcRun_induction waits turn c')
termination_by crcMeasure c
decreasing_by exact crcStep_measure h

/-- Under an invariant in which no turn accepts, `Run` keeps the invariant and accepts nothing. -/
theorem crcRun_accepts_none {P : Crc → Prop}
    (hP : ∀ c c' k, P c → crcStep c = some (c', k) → P c' ∧ k = 0) (c : Crc) (h : P c) :
    P (crcRun c).1 ∧ (crcRun c).2 = 0 := by
  induction c using crcRun_induction with
  | waits c hs =>
    rw [crcRun_of_waits hs]
    exact ⟨h, rfl⟩
  | turn c c' k hs ih =>
    obtain ⟨h', rfl⟩ := hP c c' k h hs
    obtain ⟨hrun, hk⟩ := ih h'
    rw [crcRun_of_step hs]
    exact ⟨hrun, by rw [hk]⟩

/-! ### What a turn leaves -/

/-- A turn accepts nothing, and keeps the fill, the mailbox and the record (R212 to R214), or it is a delivery
(R215). -/
theorem crcStep_outcome {c c' : Crc} {k : Nat} (h : crcStep c = some (c', k)) :
    (k = 0 ∧ c'.fill = c.fill ∧ SameResult c c') ∨
    (k = 1 ∧ c' = crcDeliver c (bufRead c.acc c.pos.toNat (crcFrameLen c))) := by
  rcases crcStep_cases c with e | ⟨-, -, -, e⟩ | ⟨-, -, -, e⟩ | ⟨-, -, -, e⟩ | ⟨-, -, -, e⟩ | ⟨-, -, -, e⟩ |
    ⟨-, -, -, e⟩ <;> rw [e] at h <;> cases h
  iterate 4 exact .inl ⟨rfl, rfl, rfl, rfl, rfl⟩
  · exact .inr ⟨rfl, rfl⟩
  · exact .inl ⟨rfl, rfl, rfl, rfl, rfl⟩

theorem crcDeliver_fill (c : Crc) (f : List Byte) :
    (crcDeliver c f).fill.toNat = c.fill.toNat - (c.pos.toNat + f.length) := by
  have := c.fill.isLt
  exact toNat_ofNat_of_lt (by omega)

theorem crcStep_fill_le {c c' : Crc} {k : Nat} (h : crcStep c = some (c', k)) :
    c'.fill.toNat ≤ c.fill.toNat := by
  rcases crcStep_outcome h with ⟨-, hfill, -⟩ | ⟨-, rfl⟩
  · rw [hfill]
  · rw [crcDeliver_fill]
    exact Nat.sub_le _ _

/-- `Run` appends nothing. -/
theorem crcRun_fill_le (c : Crc) : (crcRun c).1.fill.toNat ≤ c.fill.toNat :=
  crcTurns_keeps (P := fun d => d.fill.toNat ≤ c.fill.toNat)
    (fun _ _ _ hd hs => Nat.le_trans (crcStep_fill_le hs) hd) _ c 0 (Nat.le_refl _)

/-- What `k` accepted frames say of the mailbox and the record: a frame leaves the ready flag set, and none
leaves both as they were (R215). -/
structure MailboxAfter (c c' : Crc) (k : Nat) : Prop where
  accepted : 1 ≤ k → c'.ready = true
  kept : k = 0 → SameResult c c'

theorem sameResult_trans {a b c : Crc} (h : SameResult a b) (h' : SameResult b c) : SameResult a c :=
  ⟨h'.1.trans h.1, h'.2.1.trans h.2.1, h'.2.2.trans h.2.2⟩

theorem MailboxAfter.of_same {c c' : Crc} (h : SameResult c c') : MailboxAfter c c' 0 :=
  ⟨fun hk => absurd hk (by omega), fun _ => h⟩

theorem MailboxAfter.trans {a b c : Crc} {k l : Nat} (h : MailboxAfter a b k) (h' : MailboxAfter b c l) :
    MailboxAfter a c (k + l) where
  accepted hkl := by
    by_cases hl : 1 ≤ l
    · exact h'.accepted hl
    · exact (h'.kept (by omega)).1.trans (h.accepted (by omega))
  kept hkl := sameResult_trans (h.kept (by omega)) (h'.kept (by omega))

theorem crcRun_mailbox (c : Crc) : MailboxAfter c (crcRun c).1 (crcRun c).2 := by
  induction c using crcRun_induction with
  | waits c hs =>
    rw [crcRun_of_waits hs]
    exact .of_same ⟨rfl, rfl, rfl⟩
  | turn c c' k hs ih =>
    rw [crcRun_of_step hs]
    refine .trans ?_ ih
    rcases crcStep_outcome hs with ⟨rfl, -, hsame⟩ | ⟨rfl, rfl⟩
    · exact .of_same hsame
    · exact ⟨fun _ => rfl, fun hk => absurd hk (by decide)⟩

/-! ### A pass of Feed -/

/-- `Run`, and the discard of a buffer that is full behind it (R216). -/
def crcSettle (c : Crc) : Crc × Nat × Nat :=
  ((crcDiscard (crcRun c).1).1, (crcRun c).2, (crcDiscard (crcRun c).1).2)

/-- One pass of `Feed` on bytes there is room for (R216). -/
def crcPass (bs : List Byte) (c : Crc) : Crc × Nat × Nat := crcSettle (crcAppend c bs)

/-- One feed, then another: the counts add up. -/
def crcThen (x : Crc × Nat × Nat) (f : Crc → Crc × Nat × Nat) : Crc × Nat × Nat :=
  ((f x.1).1, x.2.1 + (f x.1).2.1, x.2.2 + (f x.1).2.2)

theorem crcDiscard_full {c : Crc} (h : c.fill.toNat = 1024) :
    crcDiscard c = ({ c with fill := 0, pos := 0, st := .seek }, 1) := if_pos h

theorem crcDiscard_notFull {c : Crc} (h : c.fill.toNat ≠ 1024) : crcDiscard c = (c, 0) := if_neg h

theorem crcDiscard_sameResult (c : Crc) : SameResult c (crcDiscard c).1 := by
  unfold crcDiscard
  split <;> exact ⟨rfl, rfl, rfl⟩

theorem crcAppend_fill {c : Crc} {bs : List Byte} (h : c.fill.toNat + bs.length ≤ 1024) :
    (crcAppend c bs).fill.toNat = c.fill.toNat + bs.length :=
  toNat_ofNat_of_lt (by omega)

theorem crcPass_mailbox (bs : List Byte) (c : Crc) : MailboxAfter c (crcPass bs c).1 (crcPass bs c).2.1 := by
  have happend : MailboxAfter c (crcAppend c bs) 0 := .of_same ⟨rfl, rfl, rfl⟩
  have h := (happend.trans (crcRun_mailbox _)).trans (.of_same (crcDiscard_sameResult _))
  simpa [crcPass, crcSettle] using h

/-- A pass ends where `Run` returns at once, the buffer not full (R225). -/
theorem crcPass_atRest {bs : List Byte} {c : Crc} (h : c.fill.toNat + bs.length ≤ 1024) :
    (crcPass bs c).1.AtRest := by
  have hle : (crcRun (crcAppend c bs)).1.fill.toNat ≤ 1024 := by
    have := crcRun_fill_le (crcAppend c bs)
    rw [crcAppend_fill h] at this
    omega
  rw [crcPass, crcSettle]
  by_cases hfull : (crcRun (crcAppend c bs)).1.fill.toNat = 1024
  · rw [crcDiscard_full hfull]
    exact ⟨crcStep_eq_none_iff.2 (by simp [crcAvail, crcNeed]), by simp⟩
  · rw [crcDiscard_notFull hfull]
    exact ⟨crcRun_waits _, Nat.lt_of_le_of_ne hle hfull⟩

/-! ### Feed -/

/-- The bytes that fill the buffer. -/
theorem length_take_room {bs : List Byte} {c : Crc} (hc : c.fill.toNat ≤ 1024) :
    c.fill.toNat + (bs.take (1024 - c.fill.toNat)).length ≤ 1024 := by
  have := List.length_take_le (1024 - c.fill.toNat) bs
  omega

theorem crcPasses_count (n : Nat) (bs : List Byte) (c : Crc) (dec dis : Nat) :
    crcPasses n bs c dec dis =
      ((crcPasses n bs c 0 0).1, dec + (crcPasses n bs c 0 0).2.1, dis + (crcPasses n bs c 0 0).2.2) := by
  induction n generalizing bs c dec dis with
  | zero => rfl
  | succ n ih =>
    rw [crcPasses, crcPasses]
    simp only
    split
    · simp
    · rw [ih _ _ (dec + _) (dis + _), ih _ _ (0 + _) (0 + _)]
      simp [Nat.add_assoc]

/-- A pass, and the passes behind it where the input is not used up (R216). -/
theorem crcPasses_succ (n : Nat) (bs : List Byte) (c : Crc) : crcPasses (n + 1) bs c 0 0 =
    if bs.length ≤ 1024 - c.fill.toNat then crcPass (bs.take (1024 - c.fill.toNat)) c
    else crcThen (crcPass (bs.take (1024 - c.fill.toNat)) c)
      (fun d => crcPasses n (bs.drop (1024 - c.fill.toNat)) d 0 0) := by
  rw [crcPasses]
  simp only [Config.crcAccCap]
  split
  · rename_i hdrop
    rw [if_pos (List.drop_eq_nil_iff.1 hdrop), Nat.zero_add, Nat.zero_add]
    rfl
  · rename_i b t hdrop
    have hlen : ¬ bs.length ≤ 1024 - c.fill.toNat := fun h => by
      rw [List.drop_eq_nil_iff.2 h] at hdrop
      cases hdrop
    rw [if_neg hlen, hdrop, crcPasses_count, Nat.zero_add, Nat.zero_add]
    rfl

/-- The passes a feed may still take: one for each byte, and one that empties a full buffer. -/
def crcPassMeasure (bs : List Byte) (c : Crc) : Nat := bs.length + (if c.fill.toNat = 1024 then 1 else 0)

theorem crcPassMeasure_pass {bs : List Byte} {c : Crc} (hc : c.fill.toNat ≤ 1024)
    (hlen : ¬ bs.length ≤ 1024 - c.fill.toNat) :
    crcPassMeasure (bs.drop (1024 - c.fill.toNat)) (crcPass (bs.take (1024 - c.fill.toNat)) c).1 <
      crcPassMeasure bs c := by
  have hroom := (crcPass_atRest (length_take_room hc (bs := bs))).room
  unfold crcPassMeasure
  rw [if_neg (Nat.ne_of_lt hroom), List.length_drop]
  split <;> omega

/-- Two bounds above the measure give the same: neither is used up. -/
theorem crcPasses_bound {n m : Nat} {bs : List Byte} {c : Crc} (hc : c.fill.toNat ≤ 1024)
    (hn : crcPassMeasure bs c < n) (hm : crcPassMeasure bs c < m) :
    crcPasses n bs c 0 0 = crcPasses m bs c 0 0 := by
  induction n generalizing m bs c with
  | zero => omega
  | succ n ih =>
    obtain ⟨m, rfl⟩ : ∃ k, m = k + 1 := ⟨m - 1, by omega⟩
    rw [crcPasses_succ, crcPasses_succ]
    split
    · rfl
    · rename_i hlen
      have := crcPassMeasure_pass hc hlen
      have hroom := (crcPass_atRest (length_take_room hc (bs := bs))).room
      simp only [crcThen]
      rw [ih (m := m) (Nat.le_of_lt hroom) (by omega) (by omega)]

theorem crcPassMeasure_lt_bound (bs : List Byte) (c : Crc) : crcPassMeasure bs c < bs.length + 2 := by
  unfold crcPassMeasure
  split <;> omega

/-- `Feed` as the loop R216 writes. -/
theorem crcFeed_eq {bs : List Byte} {c : Crc} (hc : c.fill.toNat ≤ 1024) : crcFeed bs c =
    if bs.length ≤ 1024 - c.fill.toNat then crcPass bs c
    else crcThen (crcPass (bs.take (1024 - c.fill.toNat)) c) (crcFeed (bs.drop (1024 - c.fill.toNat))) := by
  rw [crcFeed, crcPasses_succ]
  split
  · rename_i hlen
    rw [List.take_of_length_le hlen]
  · rename_i hlen
    have hlt := crcPassMeasure_pass hc hlen
    have hbound := crcPassMeasure_lt_bound bs c
    have hroom := (crcPass_atRest (length_take_room hc (bs := bs))).room
    simp only [crcThen]
    rw [crcPasses_bound (Nat.le_of_lt hroom) (by omega) (crcPassMeasure_lt_bound _ _), ← crcFeed]

/-- A feed there is room for is one pass. -/
theorem crcFeed_fits {bs : List Byte} {c : Crc} (h : c.fill.toNat + bs.length ≤ 1024) :
    crcFeed bs c = crcPass bs c := by
  rw [crcFeed_eq (by omega), if_pos (by omega)]

/-- Induction along `Feed` from a buffer that is not full. -/
theorem crcFeed_induction {P : List Byte → Crc → Prop}
    (last : ∀ bs c, c.fill.toNat < 1024 → c.fill.toNat + bs.length ≤ 1024 → P bs c)
    (more : ∀ bs c, c.fill.toNat < 1024 → 1024 - c.fill.toNat < bs.length →
      P (bs.drop (1024 - c.fill.toNat)) (crcPass (bs.take (1024 - c.fill.toNat)) c).1 → P bs c)
    (bs : List Byte) (c : Crc) (hc : c.fill.toNat < 1024) : P bs c := by
  by_cases hlen : bs.length ≤ 1024 - c.fill.toNat
  · exact last bs c hc (by omega)
  · have hroom := (crcPass_atRest (length_take_room (Nat.le_of_lt hc) (bs := bs))).room
    exact more bs c hc (Nat.not_le.1 hlen) (crcFeed_induction last more _ _ hroom)
termination_by bs.length
decreasing_by
  rw [List.length_drop]
  omega

/-- A feed leaves U3 where `Run` returns at once, its buffer not full (R225). -/
theorem crcFeed_atRest (bs : List Byte) {c : Crc} (hc : c.fill.toNat < 1024) : (crcFeed bs c).1.AtRest := by
  refine crcFeed_induction (P := fun bs c => (crcFeed bs c).1.AtRest) (fun bs c _ hfit => ?_)
    (fun bs c hc hlen ih => ?_) bs c hc
  · rw [crcFeed_fits hfit]
    exact crcPass_atRest hfit
  · rw [crcFeed_eq (Nat.le_of_lt hc), if_neg (by omega)]
    exact ih

theorem crcPasses_mailbox (n : Nat) (bs : List Byte) (c : Crc) :
    MailboxAfter c (crcPasses n bs c 0 0).1 (crcPasses n bs c 0 0).2.1 := by
  induction n generalizing bs c with
  | zero => exact .of_same ⟨rfl, rfl, rfl⟩
  | succ n ih =>
    rw [crcPasses_succ]
    split
    · exact crcPass_mailbox _ _
    · exact (crcPass_mailbox _ _).trans (ih _ _)

/-! ### At rest -/

/-- Whether `Run` waits does not depend on the mailbox. -/
theorem Crc.AtRest.taken {c : Crc} (h : c.AtRest) : ({ c with ready := false } : Crc).AtRest :=
  ⟨crcStep_eq_none_iff.2 (show crcAvail c < crcNeed c from crcStep_eq_none_iff.1 h.waits), h.room⟩

theorem reset_crc_atRest : Crc.reset.AtRest :=
  ⟨crcStep_eq_none_iff.2 (by decide), by decide⟩

/-- Every step leaves U3 at rest (R225). -/
theorem U3Effect.atRest {c c' : Crc} (h : U3Effect c c') (hc : c.AtRest) : c'.AtRest := by
  cases h with
  | kept => exact hc
  | fed bs => exact crcFeed_atRest bs hc.room
  | taken => exact hc.taken
  | reset => exact reset_crc_atRest

/-- Appending nothing to a legal U3 is no change. -/
theorem crcAppend_nil {c : Crc} (h : c.Legal) : crcAppend c [] = c := by
  have hacc : bufWrite c.acc c.fill.toNat [] = c.acc :=
    buf_ext (bufWrite_wf h.acc_wf h.fill_le) h.acc_wf fun i => by
      rw [bufGet_bufWrite, if_neg (by rw [List.length_nil]; omega)]
  rw [crcAppend, hacc, List.length_nil, Nat.add_zero, BitVec.ofNat_toNat, BitVec.setWidth_eq]

theorem crcSettle_of_atRest {c : Crc} (hr : c.AtRest) : crcSettle c = (c, 0, 0) := by
  rw [crcSettle, crcRun_of_waits hr.waits, crcDiscard_notFull (Nat.ne_of_lt hr.room)]

theorem crcFeed_nil {c : Crc} (h : c.Legal) (hr : c.AtRest) : crcFeed [] c = (c, 0, 0) := by
  rw [crcFeed_fits (show c.fill.toNat + 0 ≤ 1024 from h.fill_le), crcPass, crcAppend_nil h,
    crcSettle_of_atRest hr]

end Sys2Proof.Machine

namespace Sys2Proof.Proofs

open Sys2Proof.Machine

/-- Settles O55: every effect a step can have on U3 leaves it at rest. -/
theorem stepKeepsCrcAtRest : Obligations.StepKeepsCrcAtRest := by
  unfold Obligations.StepKeepsCrcAtRest
  exact fun s t _ hrest h => (step_effect h).u3.atRest hrest

/-- Settles O45: the measures of `Run` and of `Feed` stay below the model's bounds. -/
theorem crcLoopsAreUnbounded : Obligations.CrcLoopsAreUnbounded := by
  unfold Obligations.CrcLoopsAreUnbounded
  refine ⟨crcRun_eq, fun bs c hc => ?_⟩
  intro room r full c'
  have hpass : crcPass (bs.take room) c = (c', r.2, full.toNat) := by
    by_cases hfull : r.1.fill.toNat = 1024
    · simp only [crcPass, crcSettle, c', full, r, crcDiscard_full hfull, hfull]
      rfl
    · simp only [crcPass, crcSettle, c', full, r, crcDiscard_notFull hfull, hfull]
      rfl
  rw [crcFeed_eq hc]
  by_cases hlen : bs.length ≤ room
  · rw [if_pos hlen, if_pos hlen, ← hpass, List.take_of_length_le hlen]
  · rw [if_neg hlen, if_neg hlen, hpass]
    rfl

end Sys2Proof.Proofs
end

section
/-!
U3's commands (43_crc32_framer.md R210, R217 to R223): the bit-serial register, what the input window gives a
command, and the fields of the accepted frame.
-/

namespace Sys2Proof.Machine

open Sys2Proof.Claims

/-! ### The CRC register -/

/-- The register shifts its own bits and those it has not taken in yet alike: a bit may enter as it is used. -/
theorem crcShift_xor (c x : Word) : crcShift (c ^^^ x) = lfsr c (x.getLsbD 0) ^^^ x >>> 1 := by
  rw [crcShift, lfsr, BitVec.getLsbD_xor, BitVec.ushiftRight_xor_distrib, Config.crcPoly]
  split
  · rw [BitVec.xor_assoc, BitVec.xor_assoc, BitVec.xor_comm (x >>> 1)]
  · rfl

/-- The `n` low bits of a word. -/
def lowBits (x : Word) (n : Nat) : List Bool := (List.range n).map x.getLsbD

theorem lowBits_succ (x : Word) (n : Nat) : lowBits x (n + 1) = lowBits x n ++ [x.getLsbD n] := by
  rw [lowBits, List.range_succ, List.map_append]
  rfl

theorem iterate_crcShift_xor (c x : Word) (n : Nat) :
    crcShift^[n] (c ^^^ x) = (lowBits x n).foldl lfsr c ^^^ x >>> n := by
  induction n with
  | zero => simp [lowBits]
  | succ n ih =>
    rw [Function.iterate_succ_apply', ih, crcShift_xor, lowBits_succ, List.foldl_append,
      ← BitVec.shiftRight_add, BitVec.getLsbD_ushiftRight, Nat.add_zero]
    rfl

/-- A byte's eight shifts are the register run over its bits (R210). -/
theorem crcByte_eq_lfsr (c : Word) (b : Byte) :
    crcByte c b = ((List.range 8).map fun i => b.getLsbD i).foldl lfsr c := by
  have hbits : lowBits (b.setWidth 32) 8 = (List.range 8).map fun i => b.getLsbD i := by
    refine List.map_congr_left fun i hi => ?_
    have := List.mem_range.1 hi
    simp [show i < 32 by omega]
  have hrest : (b.setWidth 32 : Word) >>> 8 = 0#32 := BitVec.eq_of_toNat_eq (by
    rw [BitVec.toNat_ushiftRight, Nat.shiftRight_eq_div_pow, BitVec.toNat_setWidth]
    exact Nat.div_eq_of_lt (Nat.lt_of_le_of_lt (Nat.mod_le _ _) b.isLt))
  have h := iterate_crcShift_xor c (b.setWidth 32) 8
  rw [hbits, hrest, BitVec.xor_zero] at h
  exact h

theorem foldl_crcByte (s : List Byte) (c : Word) : s.foldl crcByte c = (bitsOf s).foldl lfsr c := by
  induction s generalizing c with
  | nil => rfl
  | cons b t ih =>
    rw [List.foldl_cons, ih, crcByte_eq_lfsr, ← List.foldl_append]
    rfl

theorem crc32_eq_lfsr (s : List Byte) : crc32 s = (bitsOf s).foldl lfsr 0 := by
  rw [crc32, crc32With, foldl_crcByte]
  exact BitVec.xor_zero

/-! ### The input window -/

section

variable {m : Memory} {u n : Nat}

theorem written_of_holds {bs : List Byte} (h : Holds m u 0 bs) (hn : bs.length = n) : Written m u 0 n :=
  fun j _ hj => by
    have hb := h j (hn ▸ hj)
    rw [Nat.zero_add, List.getElem?_eq_getElem (hn ▸ hj)] at hb
    rw [hb]
    exact Option.some_ne_none _

/-- The string the window holds is the one a command reads. -/
theorem inBytes_holds {bs : List Byte} (h : Holds m u 0 bs) (hn : bs.length = n) :
    inBytes m u 0 n = .ok bs := by
  obtain ⟨cs, hok, hl, hcs⟩ := inBytes_of_written (m := m) (u := u) (i := 0) (n := n)
    fun j hj hjn => written_of_holds h hn j hj (by omega)
  rw [hok]
  refine congrArg Except.ok (List.ext_getElem? fun j => ?_)
  by_cases hj : j < n
  · rw [← hcs j hj, h j (hn ▸ hj)]
  · rw [List.getElem?_eq_none (by omega), List.getElem?_eq_none (by omega)]

/-- The first unwritten byte is the one recorded. -/
theorem inBytes_firstUnwritten {k : Nat} (h : FirstUnwritten m u 0 n k) : inBytes m u 0 n = .error k := by
  obtain ⟨-, hkn, hk, hbefore⟩ := h
  have hspec := inBytes_spec m u 0 n
  rcases hr : inBytes m u 0 n with i | bs
  · rw [hr] at hspec
    obtain ⟨-, -, hi, hfirst⟩ := hspec
    have hik : ¬ i < k := fun hlt => hbefore i (Nat.zero_le _) hlt hi
    have hki : ¬ k < i := fun hlt => hfirst k (Nat.zero_le _) hlt hk
    rw [show i = k by omega]
  · rw [hr] at hspec
    obtain ⟨hl, hbs⟩ := hspec
    have hb := hbs k hkn
    rw [Nat.zero_add, hk, List.getElem?_eq_getElem (by omega)] at hb
    cases hb

/-- Where a byte is unwritten, one is recorded that is. -/
theorem inBytes_unwritten (h : ¬ Written m u 0 n) :
    ∃ k, k < n ∧ inByte m u k = none ∧ inBytes m u 0 n = .error k := by
  have hspec := inBytes_spec m u 0 n
  rcases hr : inBytes m u 0 n with k | bs
  · rw [hr] at hspec
    obtain ⟨-, hkn, hk, -⟩ := hspec
    exact ⟨k, by omega, hk, rfl⟩
  · rw [hr] at hspec
    exact absurd (written_of_holds (fun j hj => hspec.2 j (hspec.1 ▸ hj)) hspec.1) h

end

/-! ### CRC.FEED and CRC.CRC32 -/

section

variable (ua : Byte) {len : Half} {s : State}

theorem execCrcFeed_badArg (h : 4096 < len.toNat) : execCrcFeed ua len s = .next (s.fail .badArg) := if_pos h

theorem execCrcCrc32_badArg (h : 4096 < len.toNat) : execCrcCrc32 ua len s = .next (s.fail .badArg) := if_pos h

variable (hlen : len.toNat ≤ 4096)
include hlen

theorem execCrcFeed_error {k : Nat} (h : inBytes s.mem 3 0 len.toNat = .error k) : execCrcFeed ua len s =
    .next (s.modelFault (.unwrittenInput (encode (.crcFeed ua len)) k)) := by
  rw [execCrcFeed, if_neg (show ¬ len.toNat > Config.inCap from Nat.not_lt.2 hlen), h]

theorem execCrcFeed_ok {bs : List Byte} (h : inBytes s.mem 3 0 len.toNat = .ok bs) : execCrcFeed ua len s =
    .next { s with
      crc := (crcFeed bs s.crc).1
      res := { s.res with
        r0 := BitVec.ofNat 32 (crcFeed bs s.crc).2.1
        r1 := BitVec.ofNat 32 (crcFeed bs s.crc).2.2 }
      status := ⟨.ok, (crcFeed bs s.crc).1.ready, false⟩ } := by
  rw [execCrcFeed, if_neg (show ¬ len.toNat > Config.inCap from Nat.not_lt.2 hlen), h]
  rfl

theorem execCrcCrc32_error {k : Nat} (h : inBytes s.mem 3 0 len.toNat = .error k) : execCrcCrc32 ua len s =
    .next (s.modelFault (.unwrittenInput (encode (.crcCrc32 ua len)) k)) := by
  rw [execCrcCrc32, if_neg (show ¬ len.toNat > Config.inCap from Nat.not_lt.2 hlen), h]

theorem execCrcCrc32_ok {bs : List Byte} (h : inBytes s.mem 3 0 len.toNat = .ok bs) : execCrcCrc32 ua len s =
    .next ((s.setRes0 (crc32 bs)).finish true false) := by
  rw [execCrcCrc32, if_neg (show ¬ len.toNat > Config.inCap from Nat.not_lt.2 hlen), h]

end

/-! ### Fields of the accepted frame -/

theorem leNat_bufRead (b : Buf 8) (i w : Nat) : leNat (bufRead b i w) = littleEndian b i w := by
  induction w generalizing i with
  | zero => rfl
  | succ w ih =>
    rw [littleEndian, ← ih]
    rfl

/-- `w` bytes hold a number below `256 ^ w`. -/
theorem littleEndian_lt (b : Buf 8) (i w : Nat) : littleEndian b i w < 256 ^ w := by
  have h := leNat_lt (bufRead b i w)
  rwa [bufRead_length, leNat_bufRead] at h

theorem fieldRaw_eq (c : Crc) (f : FieldSpec) :
    fieldRaw c f = BitVec.ofNat 64 (littleEndian c.res (24 + f.offset) f.width) := by
  rw [fieldRaw, leNat_bufRead, Config.crcHdrLen]

/-- A field of 4 bytes at most has no bit above the low word (R221). -/
theorem highWord_eq_zero {n : Nat} (h : n < 256 ^ 4) : (BitVec.ofNat 64 n).extractLsb' 32 32 = 0 :=
  BitVec.eq_of_toNat_eq (by
    rw [BitVec.extractLsb'_toNat, toNat_ofNat_of_lt (by omega), Nat.shiftRight_eq_div_pow,
      Nat.div_eq_of_lt (by omega)]
    rfl)

theorem leNat_two (x y : Byte) : leNat [x, y] = x.toNat + 256 * y.toNat := by simp [leNat]

/-- A 16-bit header field has a value exactly when its two bytes are the value's. -/
theorem bufLE16_eq_iff (b : Buf 8) (i : Nat) (x y : Byte) :
    bufLE16 b i = BitVec.ofNat 16 (x.toNat + 256 * y.toNat) ↔ bufRead b i 2 = [x, y] := by
  have hread : bufRead b i 2 = [bufGet b i, bufGet b (i + 1)] := rfl
  have hx := x.isLt
  have hy := y.isLt
  have hi := (bufGet b i).isLt
  have hj := (bufGet b (i + 1)).isLt
  rw [bufLE16, hread, leNat_two, List.cons.injEq, List.cons.injEq]
  constructor
  · intro h
    have h := congrArg BitVec.toNat h
    rw [toNat_ofNat_of_lt (by omega), toNat_ofNat_of_lt (by omega)] at h
    exact ⟨BitVec.eq_of_toNat_eq (by omega), BitVec.eq_of_toNat_eq (by omega), rfl⟩
  · rintro ⟨h1, h2, -⟩
    rw [h1, h2]

/-- The header of an AGRICB frame by its bytes: id 11276 and length 228 (30_encoding.md R98). -/
theorem agricbPair_iff (b : Buf 8) (i : Nat) :
    (bufLE16 b i, bufLE16 b (i + 2)) = Config.agricbPair ↔ bufRead b i 4 = [0x0C, 0x2C, 0xE4, 0x00] := by
  have hid := bufLE16_eq_iff b i 0x0C 0x2C
  have hlen := bufLE16_eq_iff b (i + 2) 0xE4 0x00
  rw [bufRead_add b i 2 2, Config.agricbPair, Prod.mk.injEq]
  refine (and_congr hid hlen).trans ⟨fun ⟨h1, h2⟩ => by rw [h1, h2]; rfl, fun h => ?_⟩
  exact List.append_inj (s₂ := [0x0C, 0x2C]) (t₂ := [0xE4, 0x00]) h (bufRead_length ..)

theorem agricbHeld_iff (c : Crc) : agricbHeld c = true ↔ AgricbHeld c := by
  rw [agricbHeld, decide_eq_true_eq, AgricbHeld]
  exact and_congr_right' (agricbPair_iff c.res 3)

theorem execCrcField_noEntry {j : Byte} {s : State} (h : layoutEntry j.toNat = none) :
    execCrcField j s = .next (s.fail .badArg) := by
  rw [execCrcField, h]

theorem execCrcField_noFrame {j : Byte} {s : State} {f : FieldSpec} (h : layoutEntry j.toNat = some f)
    (hno : ¬ AgricbHeld s.crc) : execCrcField j s = .next (s.fail .noSent) := by
  rw [execCrcField, h]
  exact if_pos (mt (agricbHeld_iff _).1 hno)

theorem execCrcField_value {j : Byte} {s : State} {f : FieldSpec} (h : layoutEntry j.toNat = some f)
    (hheld : AgricbHeld s.crc) :
    execCrcField j s = .next ((s.setResPair (fieldRaw s.crc f)).finish true false) := by
  rw [execCrcField, h]
  exact if_neg (not_not.2 ((agricbHeld_iff _).2 hheld))

theorem execCrcNorm_badArg {j : Byte} {s : State} (h : 3 < j.toNat) :
    execCrcNorm j s = .next (s.fail .badArg) := if_pos h

theorem execCrcNorm_noFrame {j : Byte} {s : State} (h : j.toNat ≤ 3) (hno : ¬ AgricbHeld s.crc) :
    execCrcNorm j s = .next (s.fail .noSent) := by
  rw [execCrcNorm, if_neg (Nat.not_lt.2 h), if_pos (mt (agricbHeld_iff _).1 hno)]

theorem execCrcNorm_value {j : Byte} {s : State} (h : j.toNat ≤ 3) (hheld : AgricbHeld s.crc) :
    execCrcNorm j s = .next ((s.setResPair (normValue s.crc j.toNat)).finish true false) := by
  rw [execCrcNorm, if_neg (Nat.not_lt.2 h), if_neg (not_not.2 ((agricbHeld_iff _).2 hheld))]

/-- The entries R100 names are in the layout. -/
theorem layoutEntry_named {j : Nat} (h : j < 18) : layoutEntry j ≠ none := by
  have hnamed : ∀ i < 18, AgricbField.ofIndex i ≠ none := by decide
  obtain ⟨f, hf⟩ := Option.ne_none_iff_exists'.1 (hnamed j h)
  rw [layoutEntry, hf]
  exact Option.some_ne_none _

theorem eq_ofNat_iff_toNat {j : Byte} {n : Nat} (h : n < 256) : j = BitVec.ofNat 8 n ↔ j.toNat = n := by
  rw [← BitVec.toNat_inj, toNat_ofNat_of_lt h]

/-- The rows of R222's table, chosen by the operand. -/
theorem normValue_eq (c : Crc) (j : Byte) : normValue c j.toNat =
    if j = 0 then Config.norm2 (namedRaw c .posStd0) (namedRaw c .posStd1)
    else if j = 1 then Config.norm3 (namedRaw c .posStd0) (namedRaw c .posStd1) (namedRaw c .posStd2)
    else if j = 2 then Config.norm2 (namedRaw c .velStdN) (namedRaw c .velStdE)
    else Config.norm3 (namedRaw c .velStdN) (namedRaw c .velStdE) (namedRaw c .velStdU) := by
  have h0 : j = 0 ↔ j.toNat = 0 := eq_ofNat_iff_toNat (by decide)
  have h1 : j = 1 ↔ j.toNat = 1 := eq_ofNat_iff_toNat (by decide)
  have h2 : j = 2 ↔ j.toNat = 2 := eq_ofNat_iff_toNat (by decide)
  simp only [h0, h1, h2]
  rcases j.toNat with _ | _ | _ | n <;> rfl

end Sys2Proof.Machine

namespace Sys2Proof.Proofs

open Sys2Proof.Machine Sys2Proof.Claims

/-- Settles O42: each byte's shifts are the register run over its bits. -/
theorem crcIsBitSerial : Obligations.CrcIsBitSerial := by
  unfold Obligations.CrcIsBitSerial
  exact crc32_eq_lfsr

/-- Settles O43: the command reads the string the window holds. -/
theorem crcEngineCommand : Obligations.CrcEngineCommand := by
  unfold Obligations.CrcEngineCommand
  intro ua len s
  rw [exec_crcCrc32]
  refine ⟨Laws.OpcodeByte.crcCrc32 ua len, execCrcCrc32_badArg ua, fun hlen _ hw => ?_,
    fun bs hlen hbs hh => ?_⟩
  · obtain ⟨k, hk, hnone, herr⟩ := inBytes_unwritten hw
    exact ⟨k, hk, hnone, execCrcCrc32_error ua hlen herr⟩
  · rw [execCrcCrc32_ok ua hlen (inBytes_holds hh hbs), crc32_eq_lfsr]
    rfl

/-- Settles O44: the mailbox follows the frames accepted through every pass. -/
theorem crcFeedCompletes : Obligations.CrcFeedCompletes := by
  unfold Obligations.CrcFeedCompletes
  intro ua len s
  rw [exec_crcFeed]
  refine ⟨execCrcFeed_badArg ua, fun k hlen hk => execCrcFeed_error ua hlen (inBytes_firstUnwritten hk),
    fun bs hlen hbs hh => ?_⟩
  have hmail := crcPasses_mailbox (bs.length + 2) bs s.crc
  exact ⟨_, _, _, rfl, execCrcFeed_ok ua hlen (inBytes_holds hh hbs), hmail.accepted, hmail.kept⟩

/-- Settles O48: nothing is appended, and `Run` returns at once. -/
theorem emptyCrcFeedChangesNothing : Obligations.EmptyCrcFeedChangesNothing := by
  unfold Obligations.EmptyCrcFeedChangesNothing
  intro ua s hs hr
  rw [exec_crcFeed, execCrcFeed_ok ua (Nat.zero_le _) (bs := []) rfl, crcFeed_nil hs hr]
  rfl

/-- Settles O51: the frame test reads the header's bytes, and each value is the little-endian number at its
place in the record. -/
theorem crcFieldAndNorm : Obligations.CrcFieldAndNorm := by
  unfold Obligations.CrcFieldAndNorm
  intro j ub s raw named norm
  have hraw : ∀ f, fieldRaw s.crc f = raw f := fieldRaw_eq s.crc
  have hnorm : normValue s.crc j.toNat = norm := by
    simp only [normValue_eq, namedRaw, hraw]
    rfl
  rw [exec_crcField, exec_crcNorm]
  refine ⟨layoutEntry_named, execCrcField_noEntry, fun f => execCrcField_noFrame,
    fun f hf hheld => ⟨?_, fun hw => highWord_eq_zero ?_⟩, execCrcNorm_badArg, execCrcNorm_noFrame,
    fun hj hheld => ?_⟩
  · rw [execCrcField_value hf hheld, hraw]
    rfl
  · exact Nat.lt_of_lt_of_le (littleEndian_lt ..) (Nat.pow_le_pow_right (by decide) hw)
  · rw [execCrcNorm_value hj hheld, hnorm]
    rfl

/-- Settles O50: the command's effect written out. -/
theorem crcTakeReadsAndClears : Obligations.CrcTakeReadsAndClears := by
  unfold Obligations.CrcTakeReadsAndClears
  exact fun ua ub s => ⟨Laws.OpcodeByte.crcTake ua ub, rfl⟩

end Sys2Proof.Proofs
end

section
/-!
How the input of U3 is cut into feeds does not matter (43_crc32_framer.md R211, R216): what `Run` does on the
bytes held it does too with more bytes behind them, and so every feed is the feed of its bytes one by one.
-/

namespace Sys2Proof.Machine

open Sys2Proof.Claims

/-! ### The bytes held -/

/-- The bytes U3 has accumulated, as a string. -/
def crcHeld (c : Crc) : List Byte := bufRead c.acc 0 c.fill.toNat

@[simp] theorem crcHeld_length (c : Crc) : (crcHeld c).length = c.fill.toNat := bufRead_length ..

/-- A read inside the bytes held. -/
theorem bufRead_acc {c : Crc} {i n : Nat} (h : i + n ≤ c.fill.toNat) :
    bufRead c.acc i n = ((crcHeld c).drop i).take n := by
  refine List.ext_getElem? fun j => ?_
  rw [bufRead_getElem?, List.getElem?_take, List.getElem?_drop, crcHeld, bufRead_getElem?]
  by_cases hj : j < n
  · rw [if_pos hj, if_pos hj, if_pos (by omega), Nat.zero_add]
  · rw [if_neg hj, if_neg hj]

theorem crcHeld_append {c : Crc} {bs : List Byte} (h : c.fill.toNat + bs.length ≤ 1024) :
    crcHeld (crcAppend c bs) = crcHeld c ++ bs := by
  rw [crcHeld, crcAppend_fill h]
  exact bufRead_bufWrite_behind c.acc c.fill.toNat bs

/-- A delivery leaves the bytes behind the frame (R215). -/
theorem crcHeld_deliver {c : Crc} {f : List Byte} (h : c.pos.toNat + f.length ≤ c.fill.toNat) :
    crcHeld (crcDeliver c f) = (crcHeld c).drop (c.pos.toNat + f.length) := by
  have hwrite := bufRead_bufWrite_self c.acc 0
    (bufRead c.acc (c.pos.toNat + f.length) (c.fill.toNat - (c.pos.toNat + f.length)))
  rw [bufRead_length] at hwrite
  rw [crcHeld, crcDeliver_fill]
  refine hwrite.trans ?_
  rw [bufRead_acc (by omega), List.take_of_length_le (by rw [List.length_drop, crcHeld_length])]

/-! ### More bytes behind those held -/

/-- `c'` is `c` with the bytes `bs` behind those it holds. -/
structure Extends (bs : List Byte) (c c' : Crc) : Prop where
  same : ∃ a n, c' = { c with acc := a, fill := n }
  held : crcHeld c' = crcHeld c ++ bs

theorem extends_append {c : Crc} {bs : List Byte} (h : c.fill.toNat + bs.length ≤ 1024) :
    Extends bs c (crcAppend c bs) := ⟨⟨_, _, rfl⟩, crcHeld_append h⟩

theorem Extends.fill {bs : List Byte} {c c' : Crc} (h : Extends bs c c') :
    c'.fill.toNat = c.fill.toNat + bs.length := by
  rw [← crcHeld_length, h.held, List.length_append, crcHeld_length]

/-- Extended by nothing is the same stream. -/
theorem extends_nil_iff {c c' : Crc} : Extends [] c c' ↔ SameStream c c' := by
  constructor
  · intro h
    have hfill : c'.fill = c.fill := BitVec.eq_of_toNat_eq h.fill
    refine ⟨?_, (h.held.trans (List.append_nil _)).symm⟩
    obtain ⟨a, n, rfl⟩ := h.same
    exact congrArg (fun m => { c with acc := [], fill := m }) hfill.symm
  · rintro ⟨hsame, hheld⟩
    refine ⟨⟨c'.acc, c'.fill, ?_⟩, by rw [List.append_nil]; exact hheld.symm⟩
    exact congrArg (fun d : Crc => { d with acc := c'.acc, fill := c'.fill }) hsame.symm

/-- Two extensions of one state by the same bytes are the same stream. -/
theorem Extends.sameStream {bs : List Byte} {c d e : Crc} (hd : Extends bs c d) (he : Extends bs c e) :
    SameStream d e := by
  have hfill : d.fill = e.fill := BitVec.eq_of_toNat_eq (hd.fill.trans he.fill.symm)
  refine ⟨?_, hd.held.trans he.held.symm⟩
  obtain ⟨a, n, rfl⟩ := hd.same
  obtain ⟨a', n', rfl⟩ := he.same
  exact congrArg (fun m => { c with acc := [], fill := m }) hfill

section

variable {bs : List Byte} {c c' : Crc} (h : Extends bs c c')
include h

theorem Extends.read {i n : Nat} (hin : i + n ≤ c.fill.toNat) : bufRead c'.acc i n = bufRead c.acc i n := by
  have hfill := h.fill
  rw [bufRead_acc hin, bufRead_acc (c := c') (by omega), h.held,
    List.drop_append_of_le_length (by rw [crcHeld_length]; omega),
    List.take_append_of_le_length (by rw [List.length_drop, crcHeld_length]; omega)]

theorem Extends.st_eq : c'.st = c.st := by
  obtain ⟨a, n, rfl⟩ := h.same
  rfl

theorem Extends.pos_eq : c'.pos = c.pos := by
  obtain ⟨a, n, rfl⟩ := h.same
  rfl

theorem Extends.frameLen : crcFrameLen c' = crcFrameLen c := by
  obtain ⟨a, n, rfl⟩ := h.same
  rfl

theorem Extends.avail_le : crcAvail c ≤ crcAvail c' := by
  have hfill := h.fill
  rw [crcAvail, crcAvail, h.pos_eq]
  omega

theorem Extends.withSt (st : CrcSt) : Extends bs { c with st := st } { c' with st := st } := by
  refine ⟨?_, h.held⟩
  obtain ⟨a, n, rfl⟩ := h.same
  exact ⟨a, n, rfl⟩

theorem Extends.advance (n : Nat) : Extends bs (crcAdvance c n) (crcAdvance c' n) := by
  refine ⟨?_, h.held⟩
  obtain ⟨a, n, rfl⟩ := h.same
  exact ⟨a, n, rfl⟩

/-- The header read is the same: it lies in the bytes held (R213). -/
theorem Extends.latch (ha : 24 ≤ crcAvail c) : Extends bs (crcLatch c) (crcLatch c') := by
  unfold crcAvail at ha
  have hheader : ∀ i, i + 2 ≤ 24 → bufLE16 c'.acc (c.pos.toNat + i) = bufLE16 c.acc (c.pos.toNat + i) :=
    fun i hi => congrArg (fun s => BitVec.ofNat 16 (leNat s)) (h.read (by omega))
  refine ⟨?_, h.held⟩
  obtain ⟨a, n, rfl⟩ := h.same
  refine ⟨a, n, ?_⟩
  simp only [crcLatch, hheader Config.crcIdOff (by decide), hheader Config.crcLenOff (by decide)]

theorem Extends.deliver {f : List Byte} (hf : c.pos.toNat + f.length ≤ c.fill.toNat) :
    Extends bs (crcDeliver c f) (crcDeliver c' f) where
  same := by
    obtain ⟨a, n, rfl⟩ := h.same
    exact ⟨_, _, rfl⟩
  held := by
    have hfill := h.fill
    rw [crcHeld_deliver hf, crcHeld_deliver (by rw [h.pos_eq]; omega), h.held, h.pos_eq,
      List.drop_append_of_le_length (by rw [crcHeld_length]; exact hf)]

/-- A turn does the same with more bytes behind those held. -/
theorem Extends.turn {d : Crc} {k : Nat} (hs : crcStep c = some (d, k)) :
    ∃ d', crcStep c' = some (d', k) ∧ Extends bs d d' := by
  have havail := h.avail_le
  have hneed := crcNeed_le_of_step hs
  unfold crcNeed at hneed
  rcases hst : c.st with _ | _ | _ <;> rw [hst] at hneed <;> simp only at hneed
  · have hread : bufRead c'.acc c'.pos.toNat 3 = bufRead c.acc c.pos.toNat 3 := by
      rw [h.pos_eq]
      exact h.read (by unfold crcAvail at hneed; omega)
    rw [crcStep_seek hst hneed] at hs
    rw [crcStep_seek (h.st_eq.trans hst) (by omega), hread]
    obtain ⟨rfl, rfl⟩ := Prod.mk.inj (Option.some.inj hs)
    refine ⟨_, rfl, ?_⟩
    split
    · exact h.withSt .hdr
    · exact h.advance 1
  · have hlatch := h.latch hneed
    have hmid : (crcLatch c').mid = (crcLatch c).mid := by
      obtain ⟨a, n, e⟩ := hlatch.same
      rw [e]
    have hplen : (crcLatch c').plen = (crcLatch c).plen := by
      obtain ⟨a, n, e⟩ := hlatch.same
      rw [e]
    rw [crcStep_hdr hst hneed] at hs
    rw [crcStep_hdr (h.st_eq.trans hst) (by omega), hmid, hplen]
    obtain ⟨rfl, rfl⟩ := Prod.mk.inj (Option.some.inj hs)
    refine ⟨_, rfl, ?_⟩
    split
    · exact hlatch.withSt .ver
    · exact (hlatch.advance _).withSt .seek
  · have hpos : c.pos.toNat + crcFrameLen c ≤ c.fill.toNat := by
      have : 28 ≤ crcFrameLen c := by simp only [crcFrameLen, Config.crcHdrLen, Config.crcTrailer]; omega
      unfold crcAvail at hneed
      omega
    rw [crcStep_ver hst hneed] at hs
    rw [crcStep_ver (h.st_eq.trans hst) (by rw [h.frameLen]; omega), h.frameLen, h.pos_eq, h.read hpos]
    split at hs <;> obtain ⟨rfl, rfl⟩ := Prod.mk.inj (Option.some.inj hs)
    · rename_i hcrc
      exact ⟨_, if_pos hcrc, h.deliver (by rw [bufRead_length]; exact hpos)⟩
    · rename_i hcrc
      exact ⟨_, if_neg hcrc, (h.advance _).withSt .seek⟩

end

/-- With more bytes behind those held, `Run` first does what it does without them. -/
theorem Extends.run {bs : List Byte} {c c' : Crc} (h : Extends bs c c') :
    ∃ e, Extends bs (crcRun c).1 e ∧ crcRun c' = ((crcRun e).1, (crcRun c).2 + (crcRun e).2) := by
  induction c using crcRun_induction generalizing c' with
  | waits c hs =>
    rw [crcRun_of_waits hs]
    exact ⟨c', h, by rw [Nat.zero_add]⟩
  | turn c d k hs ih =>
    obtain ⟨d', hs', hd⟩ := h.turn hs
    obtain ⟨e, he, hrun⟩ := ih hd
    rw [crcRun_of_step hs]
    exact ⟨e, he, by rw [crcRun_of_step hs', hrun, Nat.add_assoc]⟩

/-! ### The same stream -/

theorem sameStream_refl (c : Crc) : SameStream c c := ⟨rfl, rfl⟩

theorem sameStream_symm {c d : Crc} (h : SameStream c d) : SameStream d c := ⟨h.1.symm, h.2.symm⟩

theorem sameStream_trans {c d e : Crc} (h : SameStream c d) (h' : SameStream d e) : SameStream c e :=
  ⟨h.1.trans h'.1, h.2.trans h'.2⟩

theorem sameStream_fill {c d : Crc} (h : SameStream c d) : d.fill = c.fill := (congrArg Crc.fill h.1).symm

theorem sameStream_waits {c d : Crc} (h : SameStream c d) (hc : crcStep c = none) : crcStep d = none := by
  have he := extends_nil_iff.2 (sameStream_symm h)
  rcases hs : crcStep d with _ | ⟨d', k⟩
  · rfl
  · obtain ⟨c', hs', -⟩ := he.turn hs
    rw [hc] at hs'
    cases hs'

/-- Two results of a feed that leave the same stream and the same counts. -/
def SameFeed (x y : Crc × Nat × Nat) : Prop := SameStream x.1 y.1 ∧ x.2 = y.2

theorem sameFeed_trans {x y z : Crc × Nat × Nat} (h : SameFeed x y) (h' : SameFeed y z) : SameFeed x z :=
  ⟨sameStream_trans h.1 h'.1, h.2.trans h'.2⟩

theorem sameFeed_symm {x y : Crc × Nat × Nat} (h : SameFeed x y) : SameFeed y x :=
  ⟨sameStream_symm h.1, h.2.symm⟩

theorem crcRun_sameStream {c d : Crc} (h : SameStream c d) :
    SameStream (crcRun c).1 (crcRun d).1 ∧ (crcRun d).2 = (crcRun c).2 := by
  obtain ⟨e, he, hrun⟩ := (extends_nil_iff.2 h).run
  have hwaits := sameStream_waits (extends_nil_iff.1 he) (crcRun_waits c)
  rw [hrun, crcRun_of_waits hwaits]
  exact ⟨extends_nil_iff.1 he, rfl⟩

theorem crcDiscard_sameStream {c d : Crc} (h : SameStream c d) :
    SameStream (crcDiscard c).1 (crcDiscard d).1 ∧ (crcDiscard d).2 = (crcDiscard c).2 := by
  have hfill := sameStream_fill h
  by_cases hfull : c.fill.toNat = 1024
  · rw [crcDiscard_full hfull, crcDiscard_full (hfill ▸ hfull)]
    exact ⟨⟨congrArg (fun e : Crc => { e with fill := 0, pos := 0, st := .seek }) h.1, rfl⟩, rfl⟩
  · rw [crcDiscard_notFull hfull, crcDiscard_notFull (hfill ▸ hfull)]
    exact ⟨h, rfl⟩

theorem crcSettle_sameStream {c d : Crc} (h : SameStream c d) : SameFeed (crcSettle c) (crcSettle d) := by
  obtain ⟨hrun, hk⟩ := crcRun_sameStream h
  obtain ⟨hdiscard, hx⟩ := crcDiscard_sameStream hrun
  exact ⟨hdiscard, by simp only [crcSettle, hk, hx]⟩

theorem crcAppend_sameStream {c d : Crc} {bs : List Byte} (h : SameStream c d)
    (hfit : c.fill.toNat + bs.length ≤ 1024) : SameStream (crcAppend c bs) (crcAppend d bs) := by
  have hfill := sameStream_fill h
  refine ⟨?_, ?_⟩
  · simp only [crcAppend, hfill]
    exact congrArg (fun e : Crc => { e with acc := [], fill := BitVec.ofNat 11 (c.fill.toNat + bs.length) }) h.1
  · exact (crcHeld_append hfit).trans ((congrArg (· ++ bs) h.2).trans (crcHeld_append (hfill ▸ hfit)).symm)

theorem crcPass_sameStream {c d : Crc} {bs : List Byte} (h : SameStream c d)
    (hfit : c.fill.toNat + bs.length ≤ 1024) : SameFeed (crcPass bs c) (crcPass bs d) :=
  crcSettle_sameStream (crcAppend_sameStream h hfit)

theorem crcThen_sameFeed {x y : Crc × Nat × Nat} {f g : Crc → Crc × Nat × Nat} (h : SameFeed x y)
    (hfg : SameFeed (f x.1) (g y.1)) : SameFeed (crcThen x f) (crcThen y g) := by
  obtain ⟨-, hcounts⟩ := h
  obtain ⟨hstream, hrest⟩ := hfg
  exact ⟨hstream, by simp only [crcThen, hcounts, hrest]⟩

theorem crcThen_assoc (x : Crc × Nat × Nat) (f g : Crc → Crc × Nat × Nat) :
    crcThen (crcThen x f) g = crcThen x fun c => crcThen (f c) g := by
  simp only [crcThen, Nat.add_assoc]

/-! ### Byte by byte -/

/-- The feed of a string by its bytes, each a pass of its own. -/
def crcFeedBytes : List Byte → Crc → Crc × Nat × Nat
  | [], c => (c, 0, 0)
  | b :: t, c => crcThen (crcPass [b] c) (crcFeedBytes t)

theorem crcFeedBytes_append (x y : List Byte) (c : Crc) :
    crcFeedBytes (x ++ y) c = crcThen (crcFeedBytes x c) (crcFeedBytes y) := by
  induction x generalizing c with
  | nil => simp [crcFeedBytes, crcThen]
  | cons b t ih =>
    rw [List.cons_append, crcFeedBytes, crcFeedBytes, crcThen_assoc]
    exact congrArg _ (funext ih)

theorem crcPass_one_room {c : Crc} (b : Byte) (hc : c.fill.toNat < 1024) :
    (crcPass [b] c).1.fill.toNat < 1024 := (crcPass_atRest (bs := [b]) hc).room

theorem crcFeedBytes_sameStream (bs : List Byte) {c d : Crc} (h : SameStream c d)
    (hc : c.fill.toNat < 1024) : SameFeed (crcFeedBytes bs c) (crcFeedBytes bs d) := by
  induction bs generalizing c d with
  | nil => exact ⟨h, rfl⟩
  | cons b t ih =>
    have hpass := crcPass_sameStream (bs := [b]) h hc
    exact crcThen_sameFeed hpass (ih hpass.1 (crcPass_one_room b hc))

/-- Bytes that do not fill the buffer cause no discard. -/
theorem crcPass_notFull {bs : List Byte} {c : Crc} (h : c.fill.toNat + bs.length < 1024) :
    crcPass bs c = ((crcRun (crcAppend c bs)).1, (crcRun (crcAppend c bs)).2, 0) := by
  have hle := crcRun_fill_le (crcAppend c bs)
  rw [crcAppend_fill (Nat.le_of_lt h)] at hle
  rw [crcPass, crcSettle, crcDiscard_notFull (by omega)]

/-- A pass over two strings is a pass over one, which does not fill the buffer, and a pass over the other. -/
theorem crcPass_append {x y : List Byte} {c : Crc} (hx : c.fill.toNat + x.length < 1024)
    (hfit : c.fill.toNat + (x ++ y).length ≤ 1024) :
    SameFeed (crcPass (x ++ y) c) (crcThen (crcPass x c) (crcPass y)) := by
  rw [List.length_append] at hfit
  have hle := crcRun_fill_le (crcAppend c x)
  rw [crcAppend_fill (Nat.le_of_lt hx)] at hle
  have hext : Extends y (crcAppend c x) (crcAppend c (x ++ y)) := by
    refine ⟨⟨_, _, rfl⟩, ?_⟩
    rw [crcHeld_append (by rw [List.length_append]; omega), crcHeld_append (Nat.le_of_lt hx), List.append_assoc]
  obtain ⟨e, he, hrun⟩ := hext.run
  obtain ⟨hstream, hcounts⟩ := crcSettle_sameStream (he.sameStream (extends_append (by omega)))
  obtain ⟨hk, hx'⟩ := Prod.mk.inj hcounts
  rw [crcPass_notFull hx, crcPass, crcSettle, hrun]
  exact ⟨hstream, by simp only [crcThen, crcPass, crcSettle, hk, hx', Nat.zero_add]⟩

/-- A pass is the feed of its bytes. -/
theorem crcPass_eq_bytes {bs : List Byte} {c : Crc} (hr : c.AtRest) (hfit : c.fill.toNat + bs.length ≤ 1024) :
    SameFeed (crcPass bs c) (crcFeedBytes bs c) := by
  induction bs generalizing c with
  | nil =>
    have happend := extends_nil_iff.1 (extends_append (bs := []) hfit)
    have h := crcSettle_sameStream (sameStream_symm happend)
    rw [crcSettle_of_atRest hr] at h
    exact h
  | cons b t ih =>
    rw [List.length_cons] at hfit
    rcases t with _ | ⟨b', t⟩
    · exact ⟨sameStream_refl _, rfl⟩
    · have hroom : c.fill.toNat + [b].length < 1024 := by
        simp only [List.length_cons, List.length_nil] at hfit ⊢
        omega
      have hle := crcRun_fill_le (crcAppend c [b])
      rw [crcAppend_fill (Nat.le_of_lt hroom)] at hle
      refine sameFeed_trans (crcPass_append (x := [b]) hroom hfit) ?_
      refine crcThen_sameFeed ⟨sameStream_refl _, rfl⟩ (ih (crcPass_atRest (Nat.le_of_lt hroom)) ?_)
      rw [crcPass_notFull hroom]
      simp only [List.length_cons, List.length_nil] at hfit hle ⊢
      omega

/-- A feed is the feed of its bytes. -/
theorem crcFeed_eq_bytes (bs : List Byte) {c : Crc} (hr : c.AtRest) :
    SameFeed (crcFeed bs c) (crcFeedBytes bs c) := by
  refine crcFeed_induction (P := fun bs c => c.AtRest → SameFeed (crcFeed bs c) (crcFeedBytes bs c))
    (fun bs c _ hfit hr => ?_) (fun bs c hc hlen ih hr => ?_) bs c hr.room hr
  · rw [crcFeed_fits hfit]
    exact crcPass_eq_bytes hr hfit
  · have hfit := length_take_room (bs := bs) (Nat.le_of_lt hc)
    have hrest := crcPass_atRest hfit
    have hfirst := crcPass_eq_bytes hr hfit
    have hbytes := crcFeedBytes_append (bs.take (1024 - c.fill.toNat)) (bs.drop (1024 - c.fill.toNat)) c
    rw [List.take_append_drop] at hbytes
    rw [crcFeed_eq (Nat.le_of_lt hc), if_neg (by omega), hbytes]
    exact crcThen_sameFeed hfirst (sameFeed_trans (ih hrest) (crcFeedBytes_sameStream _ hfirst.1 hrest.room))

/-- One feed of two strings, and two feeds. -/
theorem crcFeed_append (a b : List Byte) {c : Crc} (hr : c.AtRest) :
    SameFeed (crcFeed (a ++ b) c) (crcThen (crcFeed a c) (crcFeed b)) := by
  have ha := crcFeed_eq_bytes a hr
  have hrest := crcFeed_atRest a hr.room
  have hb := sameFeed_trans (crcFeed_eq_bytes b hrest) (crcFeedBytes_sameStream b ha.1 hrest.room)
  have hab := crcFeed_eq_bytes (a ++ b) hr
  rw [crcFeedBytes_append] at hab
  exact sameFeed_trans hab (sameFeed_symm (crcThen_sameFeed ha hb))

end Sys2Proof.Machine

namespace Sys2Proof.Proofs

open Sys2Proof.Machine

/-- Settles O49: both sides are the feed of the same bytes one by one. -/
theorem crcFeedsJoin : Obligations.CrcFeedsJoin := by
  unfold Obligations.CrcFeedsJoin
  intro a b c _ hr one fst snd
  obtain ⟨hstream, hcounts⟩ := crcFeed_append a b hr
  exact ⟨hstream, congrArg Prod.fst hcounts, congrArg Prod.snd hcounts⟩

end Sys2Proof.Proofs
end

section
/-!
The search for a frame (43_crc32_framer.md R212 to R216, R224, R226): no valid AGRICB frame in the bytes held is
passed over, none is accepted that is not valid, and a buffer that fills with none accepted is discarded.
-/

namespace Sys2Proof.Machine

open Sys2Proof.Claims

/-! ### The CRC of a frame -/

/-- The `n` low bytes of a number, least significant first, are its residue. -/
theorem leNat_bytesOf (v n : Nat) :
    leNat ((List.range n).map fun j => BitVec.ofNat 8 (v / 256 ^ j)) = v % 256 ^ n := by
  induction n generalizing v with
  | zero => simp [leNat, Nat.mod_one]
  | succ n ih =>
    have htail : (List.range n).map (fun j => BitVec.ofNat 8 (v / 256 ^ (j + 1))) =
        (List.range n).map fun j => BitVec.ofNat 8 (v / 256 / 256 ^ j) :=
      List.map_congr_left fun j _ => by rw [Nat.div_div_eq_div_mul, Nat.pow_succ']
    rw [List.range_succ_eq_map, List.map_cons, List.map_map, leNat_cons, Nat.pow_succ', Nat.mod_mul, ← ih]
    exact congrArg₂ (fun x y => x + 256 * leNat y) (by simp) htail

/-- Strings of one length with one value are equal. -/
theorem leNat_injective {x y : List Byte} (hl : x.length = y.length) (h : leNat x = leNat y) : x = y := by
  induction x generalizing y with
  | nil => exact (List.length_eq_zero_iff.1 hl.symm).symm
  | cons a t ih =>
    obtain ⟨b, u, rfl⟩ := List.exists_cons_of_length_eq_add_one hl.symm
    rw [leNat_cons, leNat_cons] at h
    have ha := a.isLt
    have hb := b.isLt
    rw [show a = b from BitVec.eq_of_toNat_eq (by omega), ih (Nat.succ.inj hl) (by omega)]

/-- The trailer of a 256-byte frame holds its CRC (30_encoding.md R99). -/
theorem frameCrcOk_iff {f : List Byte} (h : f.length = 256) : frameCrcOk f = true ↔
    f.drop 252 = (List.range 4).map
      fun j => BitVec.ofNat 8 (((bitsOf (f.take 252)).foldl lfsr 0).toNat / 256 ^ j) := by
  have hlen : (f.drop 252).length = 4 := by rw [List.length_drop, h]
  have hlt := leNat_lt (f.drop 252)
  rw [hlen] at hlt
  have hcrc := ((bitsOf (f.take 252)).foldl lfsr 0).isLt
  have hbytes := leNat_bytesOf ((bitsOf (f.take 252)).foldl lfsr 0).toNat 4
  rw [Nat.mod_eq_of_lt (by omega)] at hbytes
  rw [frameCrcOk, decide_eq_true_eq, h, crc32_eq_lfsr]
  constructor
  · intro heq
    refine leNat_injective (by simp [hlen]) ?_
    rw [hbytes, heq, toNat_ofNat_of_lt (by omega)]
  · intro heq
    refine BitVec.eq_of_toNat_eq ?_
    rw [toNat_ofNat_of_lt (by omega), heq, hbytes]

theorem crcByte_injective {c d : Word} {b b' : Byte} (h : crcByte c b = crcByte d b') :
    c ^^^ b.setWidth 32 = d ^^^ b'.setWidth 32 :=
  have hinj : Function.Injective crcShift := fun _ _ => crcShift_injective
  (hinj.iterate 8) h

theorem foldl_crcByte_injective (s : List Byte) {c d : Word} (h : s.foldl crcByte c = s.foldl crcByte d) :
    c = d := by
  induction s generalizing c d with
  | nil => exact h
  | cons b t ih => exact BitVec.xor_left_inj _ |>.1 (crcByte_injective (ih h))

/-- The CRC depends on each byte by a bijection. -/
theorem crc32_changed (x y : List Byte) {b b' : Byte} (h : b ≠ b') :
    crc32 (x ++ b :: y) ≠ crc32 (x ++ b' :: y) := by
  intro heq
  have hfold := BitVec.xor_left_inj _ |>.1 heq
  rw [List.foldl_append, List.foldl_append] at hfold
  have hbyte := BitVec.xor_right_inj _ |>.1 (crcByte_injective (foldl_crcByte_injective y hfold))
  have hnat := congrArg BitVec.toNat hbyte
  have hb := b.isLt
  have hb' := b'.isLt
  rw [BitVec.toNat_setWidth, BitVec.toNat_setWidth] at hnat
  exact h (BitVec.eq_of_toNat_eq (by omega))

/-- A string with one byte changed has another CRC (R226). -/
theorem crc32_set {s : List Byte} {j : Nat} {b : Byte} (hj : j < s.length) (hb : s[j]? ≠ some b) :
    crc32 (s.set j b) ≠ crc32 s := by
  have hs : s = s.take j ++ s[j] :: s.drop (j + 1) := by simp
  rw [List.set_eq_take_append_cons_drop, if_pos hj]
  conv_rhs => rw [hs]
  exact crc32_changed _ _ fun h => hb (by rw [List.getElem?_eq_getElem hj, h])

/-! ### A frame, as U3 tests it -/

/-- The id and length bytes of an AGRICB header (30_encoding.md R98). -/
def agricbHeader : List Byte := [0x0C, 0x2C, 0xE4, 0x00]

/-- A valid frame is 256 bytes with the preamble, a whitelisted header and its own CRC. -/
theorem agricbFrame_iff {f : List Byte} : AgricbFrame f ↔ f.length = 256 ∧
    f.take 3 = Config.crcPreamble ∧ (f.drop 3).take 4 = agricbHeader ∧ frameCrcOk f = true := by
  rw [AgricbFrame]
  refine and_congr_right fun hlen => ?_
  rw [← frameCrcOk_iff hlen, ← and_assoc]
  refine and_congr_left' ?_
  rw [show f.take 7 = f.take 3 ++ (f.drop 3).take 4 from List.take_add (i := 3) (j := 4)]
  refine ⟨fun h => ?_, fun ⟨h1, h2⟩ => by rw [h1, h2]; rfl⟩
  exact List.append_inj (s₂ := Config.crcPreamble) (t₂ := agricbHeader) h
    (by rw [List.length_take, hlen]; rfl)

/-- A valid frame begins at index `i` of `w`. -/
def FrameIn (w : List Byte) (i : Nat) : Prop := AgricbFrame ((w.drop i).take 256)

theorem frameIn_iff {w : List Byte} {i : Nat} : FrameIn w i ↔ i + 256 ≤ w.length ∧
    (w.drop i).take 3 = Config.crcPreamble ∧ (w.drop (i + 3)).take 4 = agricbHeader ∧
    frameCrcOk ((w.drop i).take 256) = true := by
  rw [FrameIn, agricbFrame_iff, List.take_take, List.drop_take, List.take_take, List.drop_drop,
    List.length_take, List.length_drop]
  exact and_congr_left' ⟨fun h => by omega, fun h => by omega⟩

/-- No preamble begins at the second or third byte of one (R224). -/
theorem no_preamble_inside {l : List Byte} (h : l.take 3 = Config.crcPreamble) :
    (l.drop 1).take 3 ≠ Config.crcPreamble ∧ (l.drop 2).take 3 ≠ Config.crcPreamble := by
  have hl : l = 0xAA :: 0x44 :: 0xB5 :: l.drop 3 := by
    rw [← List.take_append_drop 3 l, h]
    rfl
  rw [hl]
  exact ⟨fun h => absurd (List.cons.inj h).1 (by decide), fun h => absurd (List.cons.inj h).1 (by decide)⟩

/-! ### The search -/

/-- U3 searching the string `w` it holds: outside SEEK a preamble stands at the search position, and in VER a
whitelisted header too (R212 to R214). -/
structure Searching (w : List Byte) (c : Crc) : Prop where
  held : crcHeld c = w
  pos_le : c.pos.toNat ≤ w.length
  preamble : c.st ≠ .seek → (w.drop c.pos.toNat).take 3 = Config.crcPreamble
  header : c.st = .ver → (w.drop (c.pos.toNat + 3)).take 4 = agricbHeader ∧ c.plen = 228

/-- `d` searches on where `c` searched, with no valid frame passed over. -/
structure SearchesOn (w : List Byte) (c d : Crc) : Prop where
  searching : Searching w d
  passed : ∀ i, c.pos.toNat ≤ i → i < d.pos.toNat → ¬ FrameIn w i

/-- A turn that keeps the search position passes over nothing. -/
theorem searchesOn_of_pos_eq {w : List Byte} {c d : Crc} (hd : Searching w d) (hpos : d.pos = c.pos) :
    SearchesOn w c d :=
  ⟨hd, fun _ hi hlt => absurd hlt (Nat.not_lt.2 (hpos ▸ hi))⟩

theorem searching_append {c : Crc} (hc : CrcEmpty c) {w : List Byte} (hw : w.length ≤ 1024) :
    Searching w (crcAppend c w) := by
  obtain ⟨hst, hfill, hpos⟩ := hc
  have hfit : c.fill.toNat + w.length ≤ 1024 := by rw [hfill]; simpa using hw
  have hempty : crcHeld c = [] := List.length_eq_zero_iff.1 (by rw [crcHeld_length, hfill]; rfl)
  refine ⟨by rw [crcHeld_append hfit, hempty, List.nil_append], ?_, fun h => absurd hst h, fun h => ?_⟩
  · show c.pos.toNat ≤ w.length
    rw [hpos]
    exact Nat.zero_le _
  · rw [show (crcAppend c w).st = .seek from hst] at h
    cases h

section

variable {w : List Byte} {c : Crc} (h : Searching w c)
include h

theorem Searching.fill : c.fill.toNat = w.length := by rw [← h.held, crcHeld_length]

theorem Searching.avail : crcAvail c = w.length - c.pos.toNat := by rw [crcAvail, h.fill]

theorem Searching.read {i n : Nat} (hin : i + n ≤ w.length) : bufRead c.acc i n = (w.drop i).take n := by
  rw [bufRead_acc (by rw [h.fill]; exact hin), h.held]

theorem Searching.frameLen (hst : c.st = .ver) : crcFrameLen c = 256 := by
  rw [crcFrameLen, (h.header hst).2]
  rfl

theorem Searching.need_le : crcNeed c ≤ 256 := by
  unfold crcNeed
  rcases hst : c.st with _ | _ | _
  · exact show 3 ≤ 256 by decide
  · exact show 24 ≤ 256 by decide
  · exact Nat.le_of_eq (h.frameLen hst)

theorem Searching.advance_pos {n : Nat} (hn : c.pos.toNat + n ≤ w.length) :
    (crcAdvance c n).pos.toNat = c.pos.toNat + n := by
  have hfill := c.fill.isLt
  rw [h.fill] at hfill
  rw [crcAdvance, BitVec.toNat_add, BitVec.toNat_ofNat]
  omega

theorem Searching.advanced {n : Nat} (hn : c.pos.toNat + n ≤ w.length) :
    Searching w { crcAdvance c n with st := .seek } :=
  ⟨h.held, by rw [h.advance_pos hn]; exact hn, fun hst => absurd rfl hst, fun hst => by cases hst⟩

/-- A rejection passes over no valid frame: none begins inside the preamble (R224). -/
theorem Searching.rejected (hst : c.st ≠ .seek) (ha : 3 ≤ crcAvail c) (hno : ¬ FrameIn w c.pos.toNat) :
    SearchesOn w c (crcReject c) := by
  rw [h.avail] at ha
  have hpos : c.pos.toNat + 3 ≤ w.length := by omega
  refine ⟨h.advanced hpos, fun i hi hlt hframe => ?_⟩
  have hend : (crcReject c).pos.toNat = c.pos.toNat + 3 := h.advance_pos hpos
  obtain ⟨h1, h2⟩ := no_preamble_inside (h.preamble hst)
  rw [List.drop_drop] at h1 h2
  obtain ⟨-, hpre, -⟩ := frameIn_iff.1 hframe
  obtain rfl | rfl | rfl : i = c.pos.toNat ∨ i = c.pos.toNat + 1 ∨ i = c.pos.toNat + 2 := by omega
  · exact hno hframe
  · exact h1 hpre
  · exact h2 hpre

theorem Searching.seek (hst : c.st = .seek) (ha : 3 ≤ crcAvail c) :
    ∃ d, crcStep c = some (d, 0) ∧ SearchesOn w c d := by
  have hpos : c.pos.toNat + 3 ≤ w.length := by rw [h.avail] at ha; omega
  refine ⟨_, crcStep_seek hst ha, ?_⟩
  rw [h.read hpos]
  split
  · rename_i hpre
    exact searchesOn_of_pos_eq ⟨h.held, h.pos_le, fun _ => hpre, fun hv => by cases hv⟩ rfl
  · rename_i hpre
    have hadv := h.advanced (n := 1) (by omega)
    rw [show ({ crcAdvance c 1 with st := .seek } : Crc) = crcAdvance c 1 by rw [← hst]; rfl] at hadv
    refine ⟨hadv, fun i hi hlt hframe => hpre ?_⟩
    rw [h.advance_pos (by omega)] at hlt
    obtain rfl : i = c.pos.toNat := by omega
    exact (frameIn_iff.1 hframe).2.1

theorem Searching.hdr (hst : c.st = .hdr) (ha : 24 ≤ crcAvail c) :
    ∃ d, crcStep c = some (d, 0) ∧ SearchesOn w c d := by
  have hpos : c.pos.toNat + 24 ≤ w.length := by rw [h.avail] at ha; omega
  have hne : c.st ≠ .seek := by rw [hst]; decide
  have hlatch : Searching w (crcLatch c) := ⟨h.held, h.pos_le, fun _ => h.preamble hne, fun hv => by
    rw [show (crcLatch c).st = .hdr from hst] at hv
    cases hv⟩
  have hwhite : ((crcLatch c).mid, (crcLatch c).plen) ∈ Config.crcWhitelist ↔
      (w.drop (c.pos.toNat + 3)).take 4 = agricbHeader := by
    rw [← h.read (by omega)]
    exact List.mem_singleton.trans (agricbPair_iff c.acc (c.pos.toNat + 3))
  refine ⟨_, crcStep_hdr hst ha, ?_⟩
  split
  · rename_i hw
    have hplen := (Prod.mk.inj (List.mem_singleton.1 hw)).2
    exact searchesOn_of_pos_eq ⟨h.held, h.pos_le, fun _ => h.preamble hne, fun _ => ⟨hwhite.1 hw, hplen⟩⟩ rfl
  · rename_i hw
    have hno : ¬ FrameIn w c.pos.toNat := fun hframe => hw (hwhite.2 (frameIn_iff.1 hframe).2.2.1)
    obtain ⟨hd, hpassed⟩ := hlatch.rejected hne (show 3 ≤ crcAvail c by omega) hno
    exact ⟨hd, hpassed⟩

theorem Searching.ver (hst : c.st = .ver) (ha : 256 ≤ crcAvail c) :
    (∃ d, crcStep c = some (d, 0) ∧ SearchesOn w c d) ∨ (FrameIn w c.pos.toNat ∧
      crcStep c = some (crcDeliver c ((w.drop c.pos.toNat).take 256), 1)) := by
  have hpos : c.pos.toNat + 256 ≤ w.length := by rw [h.avail] at ha; omega
  have hne : c.st ≠ .seek := by rw [hst]; decide
  have hframe : FrameIn w c.pos.toNat ↔ frameCrcOk ((w.drop c.pos.toNat).take 256) = true :=
    frameIn_iff.trans ⟨fun hf => hf.2.2.2, fun hcrc => ⟨hpos, h.preamble hne, (h.header hst).1, hcrc⟩⟩
  have hstep := crcStep_ver hst (by rw [h.frameLen hst]; exact ha)
  rw [h.frameLen hst, h.read hpos] at hstep
  split at hstep
  · rename_i hcrc
    exact .inr ⟨hframe.2 hcrc, hstep⟩
  · rename_i hcrc
    exact .inl ⟨_, hstep, h.rejected hne (by omega) (mt hframe.1 hcrc)⟩

/-- What a turn of the search does: it accepts nothing and passes over no valid frame, or it accepts the one at
the search position. -/
theorem Searching.turn {d : Crc} {k : Nat} (hs : crcStep c = some (d, k)) :
    (k = 0 ∧ SearchesOn w c d) ∨
    (k = 1 ∧ FrameIn w c.pos.toNat ∧ d = crcDeliver c ((w.drop c.pos.toNat).take 256)) := by
  have hneed := crcNeed_le_of_step hs
  have hon : (∃ e, crcStep c = some (e, 0) ∧ SearchesOn w c e) ∨ (FrameIn w c.pos.toNat ∧
      crcStep c = some (crcDeliver c ((w.drop c.pos.toNat).take 256), 1)) := by
    unfold crcNeed at hneed
    rcases hst : c.st with _ | _ | _ <;> rw [hst] at hneed
    · exact .inl (h.seek hst hneed)
    · exact .inl (h.hdr hst hneed)
    · exact h.ver hst (h.frameLen hst ▸ hneed)
  rcases hon with ⟨e, he, hsearch⟩ | ⟨hframe, he⟩
  · obtain ⟨rfl, rfl⟩ := Prod.mk.inj (Option.some.inj (hs.symm.trans he))
    exact .inl ⟨rfl, hsearch⟩
  · obtain ⟨rfl, rfl⟩ := Prod.mk.inj (Option.some.inj (hs.symm.trans he))
    exact .inr ⟨rfl, hframe, rfl⟩

/-- Where no valid frame begins, none is accepted and the bytes stay. -/
theorem Searching.run_none (hno : ∀ i, ¬ FrameIn w i) :
    Searching w (crcRun c).1 ∧ (crcRun c).2 = 0 := by
  refine crcRun_accepts_none (P := Searching w) (fun c d k hc hs => ?_) c h
  rcases hc.turn hs with ⟨hk, hd⟩ | ⟨-, hframe, -⟩
  · exact ⟨hd.searching, hk⟩
  · exact absurd hframe (hno _)

end

theorem crcStep_of_empty {c : Crc} (h : CrcEmpty c) : crcStep c = none := by
  obtain ⟨hst, hfill, hpos⟩ := h
  refine crcStep_eq_none_iff.2 ?_
  simp only [crcAvail, crcNeed, hst, hfill, hpos]
  decide

/-- U3 after accepting a frame with nothing behind it (R215). -/
structure FrameAccepted (f : List Byte) (c : Crc) : Prop where
  ready : c.ready = true
  rlen : c.rlen.toNat = 256
  record : bufRead c.res 0 256 = f
  empty : CrcEmpty c

theorem crcDeliver_accepted {c : Crc} {f : List Byte} (hf : f.length = 256)
    (hend : c.fill.toNat = c.pos.toNat + 256) : FrameAccepted f (crcDeliver c f) where
  ready := rfl
  rlen := by
    rw [crcDeliver, hf]
    rfl
  record := by
    have hwrite := bufRead_bufWrite_self c.res 0 f
    rwa [hf] at hwrite
  empty := ⟨rfl, BitVec.eq_of_toNat_eq (by rw [crcDeliver_fill, hf, hend, Nat.sub_self]; rfl), rfl⟩

/-- The first valid frame is accepted, here one at the end of the bytes held (R212 to R215). -/
theorem Searching.run_accepts {w : List Byte} {p : Nat} {c : Crc} (h : Searching w c) (hle : c.pos.toNat ≤ p)
    (hp : FrameIn w p) (hlen : w.length = p + 256) (hfirst : ∀ i < p, ¬ FrameIn w i) :
    ∃ d, crcRun c = (d, 1) ∧ FrameAccepted ((w.drop p).take 256) d := by
  induction c using crcRun_induction with
  | waits c hs =>
    have hwait := crcStep_eq_none_iff.1 hs
    have hneed := h.need_le
    rw [h.avail] at hwait
    omega
  | turn c c' k hs ih =>
    rw [crcRun_of_step hs]
    rcases h.turn hs with ⟨rfl, hsearch⟩ | ⟨rfl, hframe, rfl⟩
    · have hle' : c'.pos.toNat ≤ p := Nat.not_lt.1 fun hlt => hsearch.passed p hle hlt hp
      obtain ⟨d, hrun, hd⟩ := ih hsearch.searching hle'
      exact ⟨d, congrArg (fun r : Crc × Nat => (r.1, 0 + r.2)) hrun, hd⟩
    · obtain rfl : c.pos.toNat = p := Nat.le_antisymm hle (Nat.not_lt.1 fun hlt => hfirst _ hlt hframe)
      have hacc := crcDeliver_accepted hp.1 (h.fill.trans hlen)
      have hwaits := crcRun_of_waits (crcStep_of_empty hacc.empty)
      exact ⟨_, congrArg (fun r : Crc × Nat => (r.1, 1 + r.2)) hwaits, hacc⟩

/-! ### Feeds of an empty U3 -/

section

variable {c : Crc} (hc : CrcEmpty c)
include hc

theorem crcEmpty_fits {w : List Byte} (hw : w.length ≤ 1024) : c.fill.toNat + w.length ≤ 1024 := by
  obtain ⟨-, hfill, -⟩ := hc
  rw [hfill]
  simpa using hw

/-- A frame behind bytes where none begins is accepted (R226). -/
theorem crcFeed_accepts {before f : List Byte} (hf : AgricbFrame f) (hlen : before.length + 256 ≤ 1024)
    (hfirst : ∀ i < before.length, ¬ FrameIn (before ++ f) i) :
    ∃ c', crcFeed (before ++ f) c = (c', 1, 0) ∧ FrameAccepted f c' := by
  have hl : (before ++ f).length = before.length + 256 := by rw [List.length_append, hf.1]
  have hat : ((before ++ f).drop before.length).take 256 = f := by
    rw [List.drop_left, List.take_of_length_le (Nat.le_of_eq hf.1)]
  have hp : FrameIn (before ++ f) before.length := by
    rw [FrameIn, hat]
    exact hf
  have hpos : (crcAppend c (before ++ f)).pos.toNat ≤ before.length := by
    rw [show (crcAppend c (before ++ f)).pos = 0 from hc.2.2]
    exact Nat.zero_le _
  obtain ⟨d, hrun, hd⟩ := (searching_append hc (by omega)).run_accepts hpos hp hl hfirst
  rw [hat] at hd
  refine ⟨d, ?_, hd⟩
  rw [crcFeed_fits (crcEmpty_fits hc (by omega)), crcPass, crcSettle, hrun, crcDiscard_notFull]
  rw [hd.empty.2.1]
  decide

/-- Bytes that hold no frame and do not fill the buffer are kept, nothing accepted. -/
theorem crcFeed_accepts_none {w : List Byte} (hw : w.length < 1024) (hno : ∀ i, ¬ FrameIn w i) :
    crcFeed w c = ((crcRun (crcAppend c w)).1, 0, 0) ∧ SameResult c (crcRun (crcAppend c w)).1 := by
  have hfit := crcEmpty_fits hc (Nat.le_of_lt hw)
  obtain ⟨hsearch, hk⟩ := (searching_append hc (Nat.le_of_lt hw)).run_none hno
  have hmail := (crcRun_mailbox (crcAppend c w)).kept hk
  refine ⟨?_, sameResult_trans ⟨rfl, rfl, rfl⟩ hmail⟩
  rw [crcFeed_fits hfit, crcPass, crcSettle, hk, crcDiscard_notFull (by rw [hsearch.fill]; omega)]

/-- A preamble with fewer than 24 bytes waits for the header (R213). -/
theorem crcRun_shortHeader {w : List Byte} (hpre : w.take 3 = Config.crcPreamble) (hw : w.length < 24) :
    crcRun (crcAppend c w) = ({ crcAppend c w with st := .hdr }, 0) := by
  have hsearch := searching_append hc (w := w) (by omega)
  obtain ⟨hst, -, hpos⟩ := hc
  have hpos' : (crcAppend c w).pos.toNat = 0 := congrArg BitVec.toNat hpos
  have h3 : 3 ≤ w.length := by
    have := congrArg List.length hpre
    rw [List.length_take, show Config.crcPreamble.length = 3 from rfl] at this
    omega
  have hread : bufRead (crcAppend c w).acc (crcAppend c w).pos.toNat 3 = Config.crcPreamble := by
    rw [hsearch.read (by omega), hpos', List.drop_zero, hpre]
  have hturn := crcStep_seek (c := crcAppend c w) hst (by rw [hsearch.avail]; omega)
  rw [if_pos hread] at hturn
  have hwait : crcStep { crcAppend c w with st := .hdr } = none :=
    crcStep_eq_none_iff.2 (show crcAvail (crcAppend c w) < 24 by rw [hsearch.avail]; omega)
  exact (crcRun_of_step hturn).trans (congrArg (fun r : Crc × Nat => (r.1, 0 + r.2)) (crcRun_of_waits hwait))

end

/-- One changed payload byte leaves no frame: the CRC differs, and no other place has 256 bytes (R226). -/
theorem no_frame_of_altered {f : List Byte} {j : Nat} {b : Byte} (hf : AgricbFrame f) (hj : j < 252)
    (hb : f[j]? ≠ some b) (i : Nat) : ¬ FrameIn (f.set j b) i := by
  intro hframe
  obtain ⟨hlen, -, -, hcrc⟩ := agricbFrame_iff.1 hf
  obtain ⟨hend, -, -, hcrc'⟩ := frameIn_iff.1 hframe
  rw [List.length_set, hlen] at hend
  obtain rfl : i = 0 := by omega
  rw [List.drop_zero, List.take_of_length_le (by rw [List.length_set]; omega), frameCrcOk, decide_eq_true_eq,
    List.length_set, hlen, List.drop_set_of_lt hj, List.take_set] at hcrc'
  rw [frameCrcOk, decide_eq_true_eq, hlen] at hcrc
  refine crc32_set (s := f.take 252) (j := j) (b := b) ?_ ?_ (hcrc'.trans hcrc.symm)
  · rw [List.length_take]
    omega
  · rwa [List.getElem?_take_of_lt hj]

/-! ### Overflow -/

/-- A run that accepts nothing keeps the fill. -/
theorem crcRun_fill_of_none (c : Crc) (h : (crcRun c).2 = 0) : (crcRun c).1.fill = c.fill := by
  induction c using crcRun_induction with
  | waits c hs => rw [crcRun_of_waits hs]
  | turn c c' k hs ih =>
    rw [crcRun_of_step hs] at h ⊢
    obtain ⟨hzero, hk⟩ := Nat.add_eq_zero_iff.1 h
    rcases crcStep_outcome hs with ⟨-, hfill, -⟩ | ⟨hone, -⟩
    · exact (ih hk).trans hfill
    · omega

/-- Bytes that fill the buffer with no frame accepted are discarded with it (R216). -/
theorem crcFeed_overflow {c d : Crc} {bs : List Byte} (hfull : c.fill.toNat + bs.length = 1024)
    (hrun : crcRun (crcAppend c bs) = (d, 0)) : ∃ c', crcFeed bs c = (c', 0, 1) ∧ CrcEmpty c' ∧
      SameResult c c' ∧ c'.mid = d.mid ∧ c'.plen = d.plen := by
  have hfill := crcRun_fill_of_none (crcAppend c bs) (by rw [hrun])
  have hmail := (crcRun_mailbox (crcAppend c bs)).kept (by rw [hrun])
  rw [hrun] at hfill hmail
  have hd : d.fill.toNat = 1024 := by
    rw [hfill, crcAppend_fill (Nat.le_of_eq hfull)]
    exact hfull
  refine ⟨{ d with fill := 0, pos := 0, st := .seek }, ?_, ⟨rfl, rfl, rfl⟩, hmail, rfl, rfl⟩
  rw [crcFeed_fits (Nat.le_of_eq hfull), crcPass, crcSettle, hrun, crcDiscard_full hd]

/-- Where no preamble stands the search stays in SEEK, and no header is latched (R212). -/
theorem Searching.run_noPreamble {w : List Byte} {c : Crc} (h : Searching w c)
    (hno : ∀ i, (w.drop i).take 3 ≠ Config.crcPreamble) :
    (crcRun c).2 = 0 ∧ (crcRun c).1.mid = c.mid ∧ (crcRun c).1.plen = c.plen := by
  have hrun := crcRun_accepts_none (P := fun d => Searching w d ∧ d.mid = c.mid ∧ d.plen = c.plen)
    (fun d d' k hd hs => ?_) c ⟨h, rfl, rfl⟩
  · exact ⟨hrun.2, hrun.1.2⟩
  · obtain ⟨hsearch, hmid, hplen⟩ := hd
    have hst : d.st = .seek := by_contra fun hne => hno _ (hsearch.preamble hne)
    have hheader : d'.mid = d.mid ∧ d'.plen = d.plen := by
      have hneed := crcNeed_le_of_step hs
      rw [crcNeed, hst] at hneed
      rw [crcStep_seek hst hneed] at hs
      obtain ⟨rfl, -⟩ := Prod.mk.inj (Option.some.inj hs)
      split <;> exact ⟨rfl, rfl⟩
    rcases hsearch.turn hs with ⟨hk, hd'⟩ | ⟨-, hframe, -⟩
    · exact ⟨⟨hd'.searching, hheader.1.trans hmid, hheader.2.trans hplen⟩, hk⟩
    · exact absurd (frameIn_iff.1 hframe).2.1 (hno _)

end Sys2Proof.Machine

namespace Sys2Proof.Proofs

open Sys2Proof.Machine Sys2Proof.Claims

/-- Settles O46: the search accepts the first valid frame and passes over none. -/
theorem agricbFrameBehaviour : Obligations.AgricbFrameBehaviour := by
  unfold Obligations.AgricbFrameBehaviour
  intro c hc
  refine ⟨fun f hf => ?_, fun before f hf hlen hfirst => ?_, fun f j b hf _ hj hb => ?_, fun bs hpre hlen => ?_⟩
  · obtain ⟨c', hfeed, h⟩ := crcFeed_accepts hc (before := []) hf (by decide) (by simp)
    exact ⟨c', hfeed, h.ready, h.rlen, h.record, h.empty⟩
  · obtain ⟨c', hfeed, h⟩ := crcFeed_accepts hc hf hlen hfirst
    exact ⟨c', hfeed, h.ready, h.rlen, h.record, h.empty⟩
  · have hlen : (f.set j b).length < 1024 := by
      rw [List.length_set, hf.1]
      decide
    obtain ⟨hfeed, hsame⟩ := crcFeed_accepts_none hc hlen (no_frame_of_altered hf hj hb)
    exact ⟨_, hfeed, hsame⟩
  · have hno : ∀ i, ¬ FrameIn bs i := fun i hframe => by
      have := (frameIn_iff.1 hframe).1
      omega
    obtain ⟨hfeed, hsame⟩ := crcFeed_accepts_none hc (by omega) hno
    rw [crcRun_shortHeader hc hpre hlen] at hfeed hsame
    refine ⟨_, hfeed, rfl, hc.2.2, ?_, hsame⟩
    exact (searching_append hc (by omega)).fill

/-- Settles O47: a run that accepts nothing leaves the buffer full. -/
theorem overflowDiscardsTheBuffer : Obligations.OverflowDiscardsTheBuffer := by
  unfold Obligations.OverflowDiscardsTheBuffer
  refine ⟨fun c bs hc hlen hno => ?_, fun c d bs _ _ hfull hrun => crcFeed_overflow hfull hrun⟩
  obtain ⟨hk, hmid, hplen⟩ := (searching_append hc (Nat.le_of_eq hlen)).run_noPreamble hno
  have hfull : c.fill.toNat + bs.length = 1024 := by
    rw [hc.2.1, hlen]
    rfl
  obtain ⟨c', hfeed, hempty, hsame, hm, hp⟩ := crcFeed_overflow hfull (Prod.ext rfl hk)
  exact ⟨c', hfeed, hempty, hsame, hm.trans hmid, hp.trans hplen⟩

end Sys2Proof.Proofs
end

section
/-!
A command touches its own unit alone (44_block.md R241): what it leaves there is said once, for every content
of the other units together, so that two commands of different units commute (R242).
-/

namespace Sys2Proof.Machine

open Sys2Proof.Claims

/-! ### The content of one unit -/

/-- `s` with the content of unit `u` that `t` holds. -/
def State.withUnit (s : State) (u : Nat) (t : State) : State :=
  { s with
    f0 := if u = 0 then t.f0 else s.f0
    f1 := if u = 1 then t.f1 else s.f1
    ais := if u = 1 then t.ais else s.ais
    slots := if u = 2 then t.slots else s.slots
    crc := if u = 3 then t.crc else s.crc }

/-- `o` with all that a command of unit `u` reads of `s`: ARG, the input windows and the unit (R241). -/
def State.showing (o : State) (u : Nat) (s : State) : State :=
  { o.withUnit u s with args := s.args, mem := s.mem }

/-- The answer `r` is `s` but for RES, STATUS and the fault mark. -/
def Reports (s : State) (r : Result) : Prop :=
  ∃ x st f, r = .next { s with res := x, status := st, faultMark := f }

/-- In every state that holds what the command reads of `s`, it leaves in unit `u` what `t` holds there. -/
def LeavesInUnit (u : Nat) (s t : State) (command : State → Result) : Prop :=
  ∀ o : State, Reports ((o.showing u s).withUnit u t) (command (o.showing u s))

/-- From `s`, unit `u` is all the command sees of the units and all it writes of them. -/
def ActsOnUnit (u : Nat) (s : State) (command : State → Result) : Prop := ∃ t, LeavesInUnit u s t command

section

variable (s t t' : State) {u v : Nat}

theorem withUnit_self : s.withUnit u s = s := by
  simp only [State.withUnit, ite_self]

theorem showing_self : s.showing u s = s := withUnit_self s

/-- A change to another unit, or to RES, STATUS and the fault mark, hides nothing of `s` from a command. -/
theorem showing_withUnit (h : u ≠ v) (x : Results) (st : Status) (f : Option ModelFault) :
    State.showing { s.withUnit u t with res := x, status := st, faultMark := f } v s =
      { s.withUnit u t with res := x, status := st, faultMark := f } := by
  simp only [State.showing, State.withUnit, State.mk.injEq]
  grind

/-- Every field is of one unit at most. -/
theorem withUnit_comm (h : u ≠ v) :
    (s.withUnit u t).withUnit v t' = (s.withUnit v t').withUnit u t := by
  simp only [State.withUnit, State.mk.injEq]
  grind

theorem withUnit_showing (o : State) : (o.showing u s).withUnit u s = o.showing u s := by
  simp only [State.showing, State.withUnit]
  grind

end

/-! ### Reports -/

section

variable (s : State)

@[simp] theorem reports_fail (e : Err) : Reports s (.next (s.fail e)) := ⟨_, _, _, rfl⟩

@[simp] theorem reports_modelFault (f : ModelFault) : Reports s (.next (s.modelFault f)) := ⟨_, _, _, rfl⟩

@[simp] theorem reports_setRes0 (v : Word) (r n : Bool) : Reports s (.next ((s.setRes0 v).finish r n)) :=
  ⟨_, _, _, rfl⟩

@[simp] theorem reports_setRes01 (v w : Word) (r n : Bool) : Reports s (.next ((s.setRes01 v w).finish r n)) :=
  ⟨_, _, _, rfl⟩

@[simp] theorem reports_setResPair (v : DWord) (r n : Bool) : Reports s (.next ((s.setResPair v).finish r n)) :=
  ⟨_, _, _, rfl⟩

@[simp] theorem reports_setRes2 (v : DWord) (w : Word) (r n : Bool) :
    Reports s (.next (((s.setResPair v).setRes2 w).finish r n)) := ⟨_, _, _, rfl⟩

@[simp] theorem reports_allResults (x : Results) (r n : Bool) :
    Reports s (.next (({ s with res := x } : State).finish r n)) := ⟨_, _, _, rfl⟩

/-! The queries of the units change no more than a report does. -/

theorem nmeaNfields_reports : Reports s (execNmeaNfields s) := by
  unfold execNmeaNfields
  split <;> simp

theorem nmeaField_reports (i : Byte) : Reports s (execNmeaField i s) := by
  unfold execNmeaField
  split
  · simp
  · split <;> simp

theorem nmeaFint_reports (i : Byte) : Reports s (execNmeaFint i s) := by
  unfold execNmeaFint
  split
  · simp
  · split
    · simp
    · split <;> simp

theorem nmeaFdec_reports (i : Byte) : Reports s (execNmeaFdec i s) := by
  unfold execNmeaFdec
  split
  · simp
  · split
    · simp
    · split <;> simp

theorem nmeaIsmsg_reports (n : Byte) (len : Half) : Reports s (execNmeaIsmsg n len s) := by
  unfold execNmeaIsmsg
  split
  · simp
  · split <;> simp

theorem aisMsglen_reports : Reports s (execAisMsglen s) := by
  unfold execAisMsglen
  split <;> simp

theorem readBitsCommand_reports (b n : Nat) (sg : Bool) : Reports s (readBitsCommand b n sg s) := by
  unfold readBitsCommand
  split
  · simp
  · split <;> simp

theorem aisBits_reports (sgn : Bool) (len : BitVec 7) (start : Half) :
    Reports s (execAisBits sgn len start s) := by
  unfold execAisBits
  split
  · simp
  · exact readBitsCommand_reports s _ _ _

theorem aisPos_reports : Reports s (execAisPos s) := by
  unfold execAisPos
  split
  · simp
  · split
    · simp
    · split <;> simp

theorem crcCrc32_reports (ua : Byte) (len : Half) : Reports s (execCrcCrc32 ua len s) := by
  unfold execCrcCrc32
  split
  · simp
  · split <;> simp

theorem crcField_reports (j : Byte) : Reports s (execCrcField j s) := by
  unfold execCrcField
  split
  · simp
  · split <;> simp

theorem crcNorm_reports (j : Byte) : Reports s (execCrcNorm j s) := by
  unfold execCrcNorm
  split
  · simp
  · split <;> simp

end

/-! ### The UNIT of a command -/

/-- The UNIT of each command, by its row of the opcode map (30_encoding.md R83). -/
def rowUnit : Instr → Nat
  | .nmeaCfg .. | .nmeaFeedn .. | .nmeaFeedc .. | .nmeaNfields .. | .nmeaField .. | .nmeaFint .. | .nmeaFdec ..
  | .nmeaIsmsg .. => 0
  | .aisFeedn .. | .aisFeedc .. | .aisMsglen .. | .aisBits .. | .aisType .. | .aisMmsi .. | .aisPos .. => 1
  | .sigReg .. | .sigScan .. | .sigLatest .. | .sigClr .. => 2
  | .crcFeed .. | .crcTake .. | .crcCrc32 .. | .crcField .. | .crcNorm .. => 3
  | .blkReset .. => 15

theorem unit_eq_rowUnit (i : Instr) : unit i = rowUnit i := by
  cases i <;> simp [unit, selector, rowUnit]

/-- BLK has one command. -/
theorem eq_blkReset_of_unit {i : Instr} (h : unit i = 15) : ∃ ua ub, i = .blkReset ua ub := by
  rw [unit_eq_rowUnit] at h
  cases i with
  | blkReset ua ub => exact ⟨ua, ub, rfl⟩
  | _ => exact absurd h (by simp [rowUnit])

/-! ### The commands of each unit -/

section

variable {s : State} {u : Nat} {command : State → Result}

/-- A command that changes no more than a report does leaves its unit. -/
theorem ActsOnUnit.of_reports (h : ∀ o : State, Reports (o.showing u s) (command (o.showing u s))) :
    ActsOnUnit u s command := by
  refine ⟨s, fun o => ?_⟩
  rw [withUnit_showing]
  exact h o

/-- A check of the operands alone is made alike in every state. -/
theorem ActsOnUnit.guard {p : Prop} [Decidable p] (e : Err) (h : ActsOnUnit u s command) :
    ActsOnUnit u s fun o => if p then .next (o.fail e) else command o := by
  by_cases hp : p
  · exact .of_reports fun o => by simp [hp]
  · simpa only [if_neg hp] using h

end

section

variable (s : State)

theorem nmeaCfg_actsOnUnit (c : Byte) : ActsOnUnit 0 s (execNmeaCfg c) :=
  .guard _ ⟨{ s with f0 := framerConfigured s.f0 c }, fun _ => ⟨_, _, _, rfl⟩⟩

theorem feedU0_of_error {w : Word} {F : Framer} {k : Nat} (h : framerRun s.mem 0 F = .error k) :
    feedU0 w F s = .next (s.modelFault (.unwrittenInput w k)) := by
  rw [feedU0, h]

theorem feedU0_actsOnUnit (w : Word) (start : Framer → Framer) :
    ActsOnUnit 0 s fun o => feedU0 w (start o.f0) o := by
  rcases h : framerRun s.mem 0 (start s.f0) with k | ⟨F, r⟩
  · exact .of_reports fun o => ⟨_, _, _, feedU0_of_error (o.showing 0 s) h⟩
  · exact ⟨{ s with f0 := F }, fun o => ⟨_, _, _, feedU0_of_run (s := o.showing 0 s) h⟩⟩

theorem feedU1_of_error {w : Word} {F : Framer} {k : Nat} (h : aisRun s.mem F s.ais = .error k) :
    feedU1 w F s = .next (s.modelFault (.unwrittenInput w k)) := by
  rw [feedU1, h]

theorem feedU1_actsOnUnit (w : Word) (start : Framer → Framer) :
    ActsOnUnit 1 s fun o => feedU1 w (start o.f1) o := by
  rcases h : aisRun s.mem (start s.f1) s.ais with k | ⟨F, A, r⟩
  · exact .of_reports fun o => ⟨_, _, _, feedU1_of_error (o.showing 1 s) h⟩
  · exact ⟨{ s with f1 := F, ais := A }, fun o => ⟨_, _, _, feedU1_of_run (s := o.showing 1 s) h⟩⟩

theorem sigReg_actsOnUnit (k : Byte) (size : Half) : ActsOnUnit 2 s (execSigReg k size) :=
  .guard _ ⟨{ s with
    slots := slotSet s.slots k.toNat
      { reg := true, n0 := sigName0 s.args, n1 := sigName1 s.args, size := size.setWidth 12,
        present := false, record := [] } }, fun _ => ⟨_, _, _, rfl⟩⟩

theorem sigClr_actsOnUnit (k : Byte) : ActsOnUnit 2 s (execSigClr k) :=
  .guard _ ⟨{ s with slots := slotSet s.slots k.toNat { slotGet s.slots k.toNat with present := false } },
    fun _ => ⟨_, _, _, rfl⟩⟩

theorem scanResult_actsOnUnit (k a : Nat) (buf : List Byte) (find : Slot → Nat → List Byte → Option Nat) :
    ActsOnUnit 2 s fun o => .next (scanResult k a buf (find (slotGet o.slots k) a buf) o) := by
  rcases h : find (slotGet s.slots k) a buf with _ | i
  · refine .of_reports fun o => ?_
    have hfind : find (slotGet (o.showing 2 s).slots k) a buf = none := h
    rw [hfind]
    exact reports_setRes01 _ _ _ _ _
  · refine ⟨scanResult k a buf (some i) s, fun o => ?_⟩
    have hfind : find (slotGet (o.showing 2 s).slots k) a buf = some i := h
    beta_reduce
    rw [hfind]
    exact ⟨_, _, _, rfl⟩

theorem scanCommand_actsOnUnit (w : Word) (find : Slot → Nat → List Byte → Option Nat) (a : Args → Nat)
    (k : Byte) (len : Half) : ActsOnUnit 2 s fun o => scanCommand w find (a o.args) k len o := by
  by_cases h : 8 ≤ k.toNat ∨ 4096 < len.toNat ∨ (slotGet s.slots k.toNat).reg = false
  · exact .of_reports fun o => ⟨_, _, _, scanCommand_badArg (s := o.showing 2 s) h⟩
  · simp only [not_or, Nat.not_le, Nat.not_lt, Bool.not_eq_false] at h
    obtain ⟨hk, hlen, hreg⟩ := h
    rcases hr : inBytes s.mem 2 (a s.args) (len.toNat - a s.args) with i | buf
    · exact .of_reports fun o => ⟨_, _, _, scanCommand_error (s := o.showing 2 s) hk hlen hreg hr⟩
    · obtain ⟨t, ht⟩ := scanResult_actsOnUnit s k.toNat (a s.args) buf find
      refine ⟨t, fun o => ?_⟩
      show Reports _ (scanCommand w find (a s.args) k len (o.showing 2 s))
      rw [scanCommand_ok (s := o.showing 2 s) hk hlen hreg hr]
      exact ht o

theorem crcFeed_actsOnUnit (ua : Byte) (len : Half) : ActsOnUnit 3 s (execCrcFeed ua len) := by
  by_cases hlen : 4096 < len.toNat
  · exact .of_reports fun _ => ⟨_, _, _, execCrcFeed_badArg ua hlen⟩
  · replace hlen := Nat.not_lt.1 hlen
    rcases h : inBytes s.mem 3 0 len.toNat with k | bs
    · exact .of_reports fun o => ⟨_, _, _, execCrcFeed_error (s := o.showing 3 s) ua hlen h⟩
    · exact ⟨{ s with crc := (crcFeed bs s.crc).1 },
        fun o => ⟨_, _, _, execCrcFeed_ok (s := o.showing 3 s) ua hlen h⟩⟩

theorem crcTake_actsOnUnit : ActsOnUnit 3 s execCrcTake :=
  ⟨{ s with crc := { s.crc with ready := false } }, fun _ => ⟨_, _, _, rfl⟩⟩

/-- Every command but BLK.RESET acts on its unit alone (R241). -/
theorem exec_actsOnUnit (i : Instr) (h : unit i ≠ 15) : ActsOnUnit (unit i) s (exec i) := by
  rw [unit_eq_rowUnit] at h ⊢
  cases i with
  | nmeaCfg c _ => exact nmeaCfg_actsOnUnit s c
  | nmeaFeedn _ len =>
    exact .guard _ (feedU0_actsOnUnit s _ fun F => framerNewBuffer F len Config.nmeaResetOnNewBuffer)
  | nmeaFeedc _ _ => exact feedU0_actsOnUnit s _ id
  | nmeaNfields _ _ => exact .of_reports fun _ => nmeaNfields_reports _
  | nmeaField j _ => exact .of_reports fun _ => nmeaField_reports _ j
  | nmeaFint j _ => exact .of_reports fun _ => nmeaFint_reports _ j
  | nmeaFdec j _ => exact .of_reports fun _ => nmeaFdec_reports _ j
  | nmeaIsmsg n len => exact .of_reports fun _ => nmeaIsmsg_reports _ n len
  | aisFeedn _ len =>
    exact .guard _ (feedU1_actsOnUnit s _ fun F => framerNewBuffer F len Config.nmeaResetOnNewBuffer)
  | aisFeedc _ _ => exact feedU1_actsOnUnit s _ id
  | aisMsglen _ _ => exact .of_reports fun _ => aisMsglen_reports _
  | aisBits sgn len start => exact .of_reports fun _ => aisBits_reports _ sgn len start
  | aisType _ _ => exact .of_reports fun _ => readBitsCommand_reports _ _ _ _
  | aisMmsi _ _ => exact .of_reports fun _ => readBitsCommand_reports _ _ _ _
  | aisPos _ _ => exact .of_reports fun _ => aisPos_reports _
  | sigReg k size => exact sigReg_actsOnUnit s k size
  | sigScan k len => exact scanCommand_actsOnUnit s _ firstFrame sigStart k len
  | sigLatest k len => exact scanCommand_actsOnUnit s _ lastFrame (fun _ => 0) k len
  | sigClr k _ => exact sigClr_actsOnUnit s k
  | crcFeed ua len => exact crcFeed_actsOnUnit s ua len
  | crcTake _ _ => exact crcTake_actsOnUnit s
  | crcCrc32 ua len => exact .of_reports fun _ => crcCrc32_reports _ ua len
  | crcField j _ => exact .of_reports fun _ => crcField_reports _ j
  | crcNorm j _ => exact .of_reports fun _ => crcNorm_reports _ j
  | blkReset _ _ => exact absurd rfl h

end

/-! ### Two commands -/

section

variable {s : State}

/-- From `s` a command of unit `u` changes that unit alone, but for RES, STATUS and the fault mark. -/
theorem LeavesInUnit.reports {t : State} {u : Nat} {command : State → Result}
    (h : LeavesInUnit u s t command) : Reports (s.withUnit u t) (command s) := by
  have hs := h s
  rwa [showing_self] at hs

/-- The second of two commands of different units finds its unit as `s` has it, and each leaves in its own unit
what it would leave there alone. -/
theorem LeavesInUnit.andThen {i j : Instr} {u v : Nat} {t t' : State} (huv : u ≠ v)
    (hi : LeavesInUnit u s t (exec i)) (hj : LeavesInUnit v s t' (exec j)) :
    Reports ((s.withUnit u t).withUnit v t') (andThen i j s) := by
  obtain ⟨x, st, f, hexec⟩ := hi.reports
  have hnext := hj { s.withUnit u t with res := x, status := st, faultMark := f }
  rw [showing_withUnit s t huv] at hnext
  rw [Claims.andThen, hexec]
  exact hnext

end

/-! ### The view windows -/

section

variable {s t : State} {a : Nat}

/-- NM_CHARS and NM_FSTART show U0's framer alone. -/
theorem windowByte_congr_f0 (h : t.f0 = s.f0) (h1 : 0x5000 ≤ a) (h2 : a < 0x5240) :
    windowByte t a = windowByte s a := by
  rcases Nat.lt_or_ge a 0x5200 with hc | hf
  · obtain ⟨i, rfl⟩ := Nat.exists_eq_add_of_le h1
    rw [windowByte_chars t (by omega), windowByte_chars s (by omega), h]
  · have ha : a = 0x5200 + 2 * ((a - 0x5200) / 2) + (a - 0x5200) % 2 := by omega
    rw [ha, windowByte_fstart t (by omega) (by omega), windowByte_fstart s (by omega) (by omega), h]

/-- AI_MSGBUF shows the AIS state alone. -/
theorem windowByte_congr_ais (h : t.ais = s.ais) (h1 : 0x6000 ≤ a) (h2 : a < 0x7000) :
    windowByte t a = windowByte s a := by
  obtain ⟨i, rfl⟩ := Nat.exists_eq_add_of_le h1
  rw [windowByte_msg t (by omega), windowByte_msg s (by omega), h]

/-- SG_REC shows the slots alone. -/
theorem windowByte_congr_slots (h : t.slots = s.slots) (h1 : 0x10000 ≤ a) (h2 : a < 0x18000) :
    windowByte t a = windowByte s a := by
  have ha : a = 0x10000 + 0x1000 * ((a - 0x10000) / 0x1000) + (a - 0x10000) % 0x1000 := by omega
  rw [ha, windowByte_record t (by omega) (by omega), windowByte_record s (by omega) (by omega), h]

/-- CR_RESULT shows U3 alone. -/
theorem windowByte_congr_crc (h : t.crc = s.crc) (h1 : 0x7000 ≤ a) (h2 : a < 0x7400) :
    windowByte t a = windowByte s a := by
  obtain ⟨i, rfl⟩ := Nat.exists_eq_add_of_le h1
  rw [windowByte_result t (by omega), windowByte_result s (by omega), h]

end

end Sys2Proof.Machine

namespace Sys2Proof.Proofs

open Sys2Proof.Machine Sys2Proof.Claims

/-- Settles O52: every unit element, ARG and RES are written with their values of the power-on state. -/
theorem blkResetRestoresPowerOn : Obligations.BlkResetRestoresPowerOn := by
  unfold Obligations.BlkResetRestoresPowerOn
  intro ua ub s
  refine ⟨Laws.OpcodeByte.blkReset ua ub, _, rfl, rfl, ?_, ?_, ?_, ?_, ?_⟩
  · show statusWord ⟨.ok, true, false⟩ = 0x00000100
    decide
  · show framerStateWord (Framer.reset Config.f0StartReset) = 0x00002400
    decide
  · show framerStateWord (Framer.reset Config.f1Start) = 0x00002100
    decide
  · show sigFlagsWord (Vector.replicate 8 Slot.reset) = 0
    decide
  · show crcStateWord Crc.reset = 0
    decide

/-- Settles O58: BLK.RESET keeps the input windows, and every other command acts on its unit alone. -/
theorem commandsTouchTheirUnitOnly : Obligations.CommandsTouchTheirUnitOnly := by
  unfold Obligations.CommandsTouchTheirUnitOnly
  intro i s t ht
  by_cases hblk : unit i = 15
  · obtain ⟨ua, ub, rfl⟩ := eq_blkReset_of_unit hblk
    obtain rfl := Host.Outcome.next.inj ht
    exact ⟨rfl, rfl, rfl, fun _ _ => rfl, (absurd hblk ·), (absurd hblk ·), (absurd hblk ·), (absurd hblk ·),
      (absurd hblk ·)⟩
  · obtain ⟨t', h⟩ := exec_actsOnUnit s i hblk
    obtain ⟨x, st, f, hexec⟩ := h.reports
    obtain rfl := Host.Outcome.next.inj (hexec.symm.trans ht)
    refine ⟨rfl, rfl, rfl, fun _ _ => rfl, fun _ => rfl, fun _ h0 => ?_, fun _ h1 => ?_, fun _ h2 => ?_,
      fun _ h3 => ?_⟩
    · exact ⟨if_neg h0, fun _ => windowByte_congr_f0 (if_neg h0)⟩
    · exact ⟨if_neg h1, if_neg h1, fun _ => windowByte_congr_ais (if_neg h1)⟩
    · exact ⟨if_neg h2, fun _ => windowByte_congr_slots (if_neg h2)⟩
    · exact ⟨if_neg h3, fun _ => windowByte_congr_crc (if_neg h3)⟩

/-- Settles O59: in either order each command leaves in its unit what it would leave there alone. -/
theorem unitsCommute : Obligations.UnitsCommute := by
  unfold Obligations.UnitsCommute
  intro i j s hij hi hj
  obtain ⟨ti, hti⟩ := exec_actsOnUnit s i hi
  obtain ⟨tj, htj⟩ := exec_actsOnUnit s j hj
  obtain ⟨x, st, f, h⟩ := hti.andThen hij htj
  obtain ⟨x', st', f', h'⟩ := htj.andThen hij.symm hti
  refine ⟨_, _, h, h', ?_⟩
  rw [withUnit_comm s tj ti hij.symm]

end Sys2Proof.Proofs
end

section
/-!
How a command ends: fail, a model fault or finish (00_scope.md R9; 60_exceptions.md R251, R261). That every
step answers a next state follows.
-/

namespace Sys2Proof.Machine

/-! ### The three ways -/

/-- The answer of the command word `w` in `s` is fail with an error code, the model fault of an unwritten input
byte, or finish in a state with the fault mark of `s`, where RES and NODATA are not both 1. -/
inductive Ends (w : Word) (s : State) : Result → Prop
  | failed {e : Err} (he : e ≠ .ok) : Ends w s (.next (s.fail e))
  | faulted (k : Nat) : Ends w s (.next (s.modelFault (.unwrittenInput w k)))
  | finished {t : State} {res nodata : Bool} (hmark : t.faultMark = s.faultMark)
      (hflags : res = true → nodata = false) : Ends w s (.next (t.finish res nodata))

section

variable {w : Word} {s : State} {r : Result}

theorem Ends.answers (h : Ends w s r) : ∃ t, r = .next t := by
  cases h <;> exact ⟨_, rfl⟩

/-- A check that ends in fail, before a command that ends in one of the ways. -/
theorem Ends.guard {p : Prop} [Decidable p] {e : Err} (h : Ends w s r) (he : e ≠ .ok := by decide) :
    Ends w s (if p then .next (s.fail e) else r) := by
  by_cases hp : p
  · rw [if_pos hp]
    exact .failed he
  · rwa [if_neg hp]

/-- Finish with NODATA 0, whatever RES is. -/
theorem Ends.finished_data {t : State} (res : Bool) (hmark : t.faultMark = s.faultMark) :
    Ends w s (.next (t.finish res false)) :=
  .finished hmark fun _ => rfl

end

/-! ### The commands of each unit -/

section

variable (w : Word) (s : State)

theorem nmeaCfg_ends (c : Byte) : Ends w s (execNmeaCfg c s) :=
  .guard (.finished_data _ rfl)

theorem feedU0_ends (F : Framer) : Ends w s (feedU0 w F s) := by
  unfold feedU0
  split
  · exact .faulted _
  · exact .finished_data _ rfl

theorem nmeaNfields_ends : Ends w s (execNmeaNfields s) :=
  .guard (.finished_data _ rfl)

theorem nmeaField_ends (i : Byte) : Ends w s (execNmeaField i s) :=
  .guard (.guard (.finished_data _ rfl))

theorem nmeaFint_ends (i : Byte) : Ends w s (execNmeaFint i s) := by
  refine .guard (.guard ?_)
  split
  · exact .failed (by decide)
  · exact .finished_data _ rfl

theorem nmeaFdec_ends (i : Byte) : Ends w s (execNmeaFdec i s) := by
  refine .guard (.guard ?_)
  split
  · exact .failed (by decide)
  · exact .finished_data _ rfl

theorem nmeaIsmsg_ends (n : Byte) (len : Half) : Ends w s (execNmeaIsmsg n len s) :=
  .guard (.guard (.finished_data _ rfl))

theorem feedU1_ends (F : Framer) : Ends w s (feedU1 w F s) := by
  unfold feedU1
  split
  · exact .faulted _
  · exact .finished_data _ rfl

theorem aisMsglen_ends : Ends w s (execAisMsglen s) :=
  .guard (.finished_data _ rfl)

/-- A read outside the message sets NODATA, with RES 0 (41_ais.md R156). -/
theorem readBitsCommand_ends (b n : Nat) (sg : Bool) : Ends w s (readBitsCommand b n sg s) := by
  refine .guard ?_
  split
  · exact .finished rfl nofun
  · exact .finished_data _ rfl

/-- A message without a type sets NODATA, with RES 0 (41_ais.md R160). -/
theorem aisPos_ends : Ends w s (execAisPos s) := by
  refine .guard ?_
  split
  · exact .finished rfl nofun
  · split
    · exact .finished_data _ rfl
    · exact .finished_data _ rfl

theorem sigReg_ends (k : Byte) (size : Half) : Ends w s (execSigReg k size s) :=
  .guard (.finished_data _ rfl)

theorem scanResult_ends (k base : Nat) (buf : List Byte) (found : Option Nat) :
    Ends w s (.next (scanResult k base buf found s)) := by
  cases found with
  | none => exact .finished_data _ rfl
  | some i => exact .finished_data _ rfl

theorem scanCommand_ends (find : Slot → Nat → List Byte → Option Nat) (a : Nat) (k : Byte) (len : Half) :
    Ends w s (scanCommand w find a k len s) := by
  refine .guard (.guard ?_)
  split
  · exact .faulted _
  · exact scanResult_ends w s _ _ _ _

theorem sigClr_ends (k : Byte) : Ends w s (execSigClr k s) :=
  .guard (.finished_data _ rfl)

theorem crcFeed_ends (ua : Byte) (len : Half) : Ends (encode (.crcFeed ua len)) s (execCrcFeed ua len s) := by
  refine .guard ?_
  split
  · exact .faulted _
  · exact .finished_data _ rfl

theorem crcTake_ends : Ends w s (execCrcTake s) :=
  .finished_data _ rfl

theorem crcCrc32_ends (ua : Byte) (len : Half) :
    Ends (encode (.crcCrc32 ua len)) s (execCrcCrc32 ua len s) := by
  refine .guard ?_
  split
  · exact .faulted _
  · exact .finished_data _ rfl

theorem crcField_ends (j : Byte) : Ends w s (execCrcField j s) := by
  unfold execCrcField
  split
  · exact .failed (by decide)
  · exact .guard (.finished_data _ rfl)

theorem crcNorm_ends (j : Byte) : Ends w s (execCrcNorm j s) :=
  .guard (.guard (.finished_data _ rfl))

theorem blkReset_ends : Ends w s (execBlkReset s) :=
  .finished_data _ rfl

/-- Every command ends in one of the three ways, with its own word in a model fault. -/
theorem exec_ends (i : Instr) : Ends (encode i) s (exec i s) := by
  cases i with
  | nmeaCfg c _ => exact nmeaCfg_ends _ s c
  | nmeaFeedn _ _ => exact .guard (feedU0_ends _ s _)
  | nmeaFeedc _ _ => exact feedU0_ends _ s _
  | nmeaNfields _ _ => exact nmeaNfields_ends _ s
  | nmeaField j _ => exact nmeaField_ends _ s j
  | nmeaFint j _ => exact nmeaFint_ends _ s j
  | nmeaFdec j _ => exact nmeaFdec_ends _ s j
  | nmeaIsmsg n len => exact nmeaIsmsg_ends _ s n len
  | aisFeedn _ _ => exact .guard (feedU1_ends _ s _)
  | aisFeedc _ _ => exact feedU1_ends _ s _
  | aisMsglen _ _ => exact aisMsglen_ends _ s
  | aisBits sgn len start => exact .guard (readBitsCommand_ends _ s _ _ _)
  | aisType _ _ => exact readBitsCommand_ends _ s _ _ _
  | aisMmsi _ _ => exact readBitsCommand_ends _ s _ _ _
  | aisPos _ _ => exact aisPos_ends _ s
  | sigReg k size => exact sigReg_ends _ s k size
  | sigScan k len => exact scanCommand_ends _ s firstFrame _ k len
  | sigLatest k len => exact scanCommand_ends _ s lastFrame 0 k len
  | sigClr k _ => exact sigClr_ends _ s k
  | crcFeed ua len => exact crcFeed_ends s ua len
  | crcTake _ _ => exact crcTake_ends _ s
  | crcCrc32 ua len => exact crcCrc32_ends s ua len
  | crcField j _ => exact crcField_ends _ s j
  | crcNorm j _ => exact crcNorm_ends _ s j
  | blkReset _ _ => exact blkReset_ends _ s

/-- A word that is no command ends in fail(ILLEGAL), every other one as its command does (44_block.md R241). -/
theorem cycle_answers : ∃ t, cycle w s = .next t := by
  rcases h : decode w with r | i
  · exact ⟨_, cycle_of_reject s h⟩
  · rw [cycle_of_decode s h]
    exact (exec_ends s i).answers

/-- Everything a step can do is a next state, a bad access too (60_exceptions.md R261). -/
theorem step_answers : ∃ t, step s = .next t := by
  rcases step_cases s with ⟨-, e⟩ | ⟨x, rest, -, ⟨a, e⟩ | ⟨a, size, -, -, e⟩ | ⟨w, e⟩ | ⟨a, size, v, -, e⟩⟩
  · exact ⟨_, e⟩
  · exact ⟨_, e⟩
  · exact ⟨_, e⟩
  · rw [e]
    exact cycle_answers w _
  · exact ⟨_, e⟩

end

end Sys2Proof.Machine

namespace Sys2Proof.Proofs

open Sys2Proof.Machine

/-- Settles O7: each thing a step can do and each way a command ends is a next state. -/
theorem everyStepAnswers : Obligations.EveryStepAnswers := by
  unfold Obligations.EveryStepAnswers
  exact ⟨step_answers, fun i s => (exec_ends s i).answers⟩

/-- Settles O57: the three ways of every command, as the states they leave. -/
theorem commandEndsInOneOfThreeWays : Obligations.CommandEndsInOneOfThreeWays := by
  unfold Obligations.CommandEndsInOneOfThreeWays
  intro i s
  have h := exec_ends s i
  generalize exec i s = r at h ⊢
  cases h with
  | failed he => exact .inl ⟨_, he, rfl⟩
  | faulted k => exact .inr (.inl ⟨k, rfl⟩)
  | finished hmark hflags => exact .inr (.inr ⟨_, rfl, rfl, hmark, hflags⟩)

end Sys2Proof.Proofs
end

section
/-!
The power-on state (70_reset_and_hazards.md R270): what its slots and registers read as, and that it starts the
invariants which every step keeps.
-/

namespace Sys2Proof.Machine

/-- Every slot is at its reset value, the default at an index past the last slot included (10_state.md R40). -/
theorem slotGet_reset (k : Nat) : slotGet State.reset.slots k = Slot.reset := by
  by_cases h : k < 8
  · simp [slotGet, State.reset, h]
  · simp [slotGet, h]

theorem reset_slot_legal : Slot.reset.Legal := ⟨nil_wf _⟩

/-- A register read gives 0 but for NM_STATE and AI_STATE, which show the start characters (10_state.md R22,
R32). -/
theorem regRead_reset {a : Nat} (hNm : a ≠ 0x040) (hAi : a ≠ 0x050) : regRead State.reset a = 0 := by
  unfold regRead
  split
  case h_14 => exact absurd rfl hNm
  case h_17 => exact absurd rfl hAi
  all_goals decide

end Sys2Proof.Machine

namespace Sys2Proof.Proofs

open Sys2Proof.Machine

/-- Settles O12: the elements are the fields of the reset state, and the registers are read from them. -/
theorem powerOnState : Obligations.PowerOnState := by
  unfold Obligations.PowerOnState
  intro s F
  have hNm : busRead s 0x040 4 = 0x00002400 := by
    show framerStateWord (Framer.reset Config.f0StartReset) = 0x00002400
    decide
  have hAi : busRead s 0x050 4 = 0x00002100 := by
    show framerStateWord (Framer.reset Config.f1Start) = 0x00002100
    decide
  have hzero : ∀ a, a < 0x1000 → a ≠ 0x040 → a ≠ 0x050 → busRead s a 4 = 0 := fun a ha h40 h50 => by
    rw [busRead, if_pos ha]
    exact regRead_reset h40 h50
  exact ⟨rfl, rfl, rfl, slotGet_reset, rfl, fun _ _ => rfl, rfl, rfl, rfl, fun _ _ => rfl, rfl, hNm, hAi, hzero⟩

/-- Settles O53: each unit is legal at its reset values, and both framers are idle with no field. -/
theorem resetIsLegal : Obligations.ResetIsLegal := by
  unfold Obligations.ResetIsLegal
  have hslots : ∀ k, (slotGet State.reset.slots k).Legal := fun k => by
    rw [slotGet_reset]
    exact reset_slot_legal
  have hlegal : State.reset.Legal :=
    { f0 := reset_framer_legal _
      f1 := reset_framer_legal _
      f0_start := .inl rfl
      f1_start := rfl
      ais := reset_ais_legal
      slots := hslots
      crc := reset_crc_legal
      mem := reset_mem_wf }
  exact ⟨hlegal, reset_crc_atRest, reset_framer_tableRuns _, reset_framer_tableRuns _, .inl ⟨rfl, rfl⟩,
    .inl ⟨rfl, rfl⟩⟩

end Sys2Proof.Proofs
end
